-- ==== Sys2Proof/Word.lean ====
section
/-! DEFINITION. The word types of MBCODEC (00_scope.md rule R8). -/

namespace Sys2Proof

/-- One frame byte, or one byte of a buffer (rule R8). -/
abbrev Byte := BitVec 8

/-- A register word of a frame, an address, a quantity or a CRC: 16 bits (rule R8). -/
abbrev Half := BitVec 16

/-- The data width of the host bus, and a command word: 32 bits (rules R8, R110). -/
abbrev Word := BitVec 32

/-- A raw pattern, or the pattern of an IEEE-754 binary64 datum: 64 bits (rule R8). -/
abbrev Wide := BitVec 64

end Sys2Proof
end

