-- ==== Sys2Proof/Syntax.lean ====
section
/-! DEFINITION. The commands of MBCODEC: one constructor for each row of spec/opcode_table.json
(30_encoding.md rules R111 to R114). -/

namespace Sys2Proof

/-- BUFSEL (rule R111): which frame buffer a CRC command reads. -/
inductive BufSel where
  | tx
  | rx
  deriving DecidableEq, Repr

/-- `PrimitiveType` (rules R112, R210). -/
inductive PrimType where
  | uint16
  | int16
  | uint32
  | int32
  | float32
  | float64
  | hex
  deriving DecidableEq, Repr

/-- `ByteOrder` (rules R113, R210). -/
inductive ByteOrder where
  | bigEndian
  | littleEndian
  | mixedBadc
  | mixedDcba
  deriving DecidableEq, Repr

/-- INTW (rule R111): how many integer words DECODE_INTFRAC takes. -/
inductive IntWords where
  | one
  | two
  deriving DecidableEq, Repr

/-- VAR (rule R111): which of the two formulas of rule R260 LEVEL_PCT computes. -/
inductive LevelVar where
  | direct
  | referenced
  deriving DecidableEq, Repr

/-- The twelve commands (rule R114). `len` is used as an integer (rule R115); that it fits the nine
bits of the LEN field is checked in WellFormed.lean. -/
inductive Instr where
  | nop
  | crcInit
  | crcFeed (byte : Byte)
  | crcCompute (buf : BufSel) (len : Nat)
  | crcVerify (buf : BufSel) (len : Nat)
  | buildRead
  | buildWriteMultiple
  | parseRead
  | parseWrite
  | decode (type : PrimType) (order : ByteOrder)
  | decodeIntfrac (intw : IntWords) (iord : ByteOrder) (ford : ByteOrder)
  | levelPct (var : LevelVar) (clampHi : Bool)
  deriving DecidableEq, Repr

end Sys2Proof
end

