-- ==== Sys2Proof/WellFormed.lean ====
section
/-! DEFINITION. Which commands are encodable: the range checks the types of Syntax.lean do not make
(30_encoding.md rules R111, R131). -/

namespace Sys2Proof

/-- A command is well formed when its LEN fits nine bits: "len in 0..511" (rule R131). Every other
operand is a closed enumeration or a bit vector of its field's width. -/
def Instr.wf : Instr → Bool
  | .nop => true
  | .crcInit => true
  | .crcFeed _ => true
  | .crcCompute _ len => decide (len ≤ 511)
  | .crcVerify _ len => decide (len ≤ 511)
  | .buildRead => true
  | .buildWriteMultiple => true
  | .parseRead => true
  | .parseWrite => true
  | .decode _ _ => true
  | .decodeIntfrac _ _ _ => true
  | .levelPct _ _ => true

end Sys2Proof
end

