-- ==== Sys2Proof/Decode.lean ====
section
/-! DEFINITION. From command words to commands and back (30_encoding.md rules R110 to R121, R131). -/

namespace Sys2Proof

/-- The rows of the opcode map (rule R114), named by their mnemonics. -/
inductive Opcode where
  | nop
  | crcInit
  | crcFeed
  | crcCompute
  | crcVerify
  | buildRead
  | buildWriteMultiple
  | parseRead
  | parseWrite
  | decode
  | decodeIntfrac
  | levelPct
  deriving DecidableEq, Repr

/-- One row of the opcode map: a word `w` selects the row when `w AND mask = matchBits` (rule R114). -/
structure OpcodeRow where
  op : Opcode
  matchBits : Word
  mask : Word
  deriving DecidableEq, Repr

/-- The opcode map, row for row (rule R114, spec/opcode_table.json). -/
def opcodeTable : List OpcodeRow :=
  [ ⟨.nop, 0x00000000, 0xFFFFFFFF⟩,
    ⟨.crcInit, 0x00000001, 0xFFFFFFFF⟩,
    ⟨.crcFeed, 0x00000002, 0xFFFF00FF⟩,
    ⟨.crcCompute, 0x00000003, 0xFE00FEFF⟩,
    ⟨.crcVerify, 0x00000004, 0xFE00FEFF⟩,
    ⟨.buildRead, 0x00000010, 0xFFFFFFFF⟩,
    ⟨.buildWriteMultiple, 0x00000011, 0xFFFFFFFF⟩,
    ⟨.parseRead, 0x00000020, 0xFFFFFFFF⟩,
    ⟨.parseWrite, 0x00000021, 0xFFFFFFFF⟩,
    ⟨.decode, 0x00000030, 0xFFFFC8FF⟩,
    ⟨.decodeIntfrac, 0x00000031, 0xFFFF0EFF⟩,
    ⟨.levelPct, 0x00000032, 0xFFFFFCFF⟩ ]

/-- Why a word is no command: the three cases of rule R121, and a byte string that is no 32-bit word
(rule R116: "Every command word has the same length, 32 bits"). -/
inductive DecodeReject where
  | unassignedOpcode
  | reservedBitSet
  | reservedType
  | notFourBytes
  deriving DecidableEq, Repr

/-- What decoding answers: a command, or a rejection by name. -/
inductive Decoded where
  | instr (i : Instr)
  | illegal (r : DecodeReject)
  deriving DecidableEq, Repr

/-- The field OP, bits [7:0] (rule R111). -/
def opField (w : Word) : Byte := w.extractLsb' 0 8

/-- BUFSEL: 0 = TXBUF, 1 = RXBUF (rule R111). -/
def bufSelOfBit (b : Bool) : BufSel := if b then .rx else .tx

/-- TYPE (rule R112); 7 is reserved. -/
def primTypeOfBits (b : BitVec 3) : Option PrimType :=
  match b.toNat with
  | 0 => some .uint16
  | 1 => some .int16
  | 2 => some .uint32
  | 3 => some .int32
  | 4 => some .float32
  | 5 => some .float64
  | 6 => some .hex
  | _ => none

/-- ORDER, IORD and FORD (rule R113). -/
def byteOrderOfBits (b : BitVec 2) : ByteOrder :=
  match b.toNat with
  | 0 => .bigEndian
  | 1 => .littleEndian
  | 2 => .mixedBadc
  | _ => .mixedDcba

/-- INTW: 0 = one integer word, 1 = two (rule R111). -/
def intWordsOfBit (b : Bool) : IntWords := if b then .two else .one

/-- VAR: 0 = DIRECT, 1 = REFERENCED (rule R111). -/
def levelVarOfBit (b : Bool) : LevelVar := if b then .referenced else .direct

/-- The operand fields of a word whose row is known (rules R111, R115, R121). -/
def decodeFields (op : Opcode) (w : Word) : Decoded :=
  match op with
  | .nop => .instr .nop
  | .crcInit => .instr .crcInit
  | .crcFeed => .instr (.crcFeed (w.extractLsb' 8 8))
  | .crcCompute =>
    .instr (.crcCompute (bufSelOfBit (w.getLsbD 8)) (w.extractLsb' 16 9).toNat)
  | .crcVerify =>
    .instr (.crcVerify (bufSelOfBit (w.getLsbD 8)) (w.extractLsb' 16 9).toNat)
  | .buildRead => .instr .buildRead
  | .buildWriteMultiple => .instr .buildWriteMultiple
  | .parseRead => .instr .parseRead
  | .parseWrite => .instr .parseWrite
  | .decode =>
    match primTypeOfBits (w.extractLsb' 8 3) with
    | some t => .instr (.decode t (byteOrderOfBits (w.extractLsb' 12 2)))
    | none => .illegal .reservedType
  | .decodeIntfrac =>
    .instr (.decodeIntfrac (intWordsOfBit (w.getLsbD 8)) (byteOrderOfBits (w.extractLsb' 12 2))
      (byteOrderOfBits (w.extractLsb' 14 2)))
  | .levelPct => .instr (.levelPct (levelVarOfBit (w.getLsbD 8)) (w.getLsbD 9))

/-- The row of the opcode map with the word's OP (rule R116: the command is told from bits [7:0]). -/
def rowOf (w : Word) : Option OpcodeRow :=
  opcodeTable.find? (fun r => opField r.matchBits == opField w)

/-- Decode a command word (rules R110, R116, R121). -/
def decodeWord (w : Word) : Decoded :=
  match rowOf w with
  | none => .illegal .unassignedOpcode
  | some r => if w &&& r.mask = r.matchBits then decodeFields r.op w else .illegal .reservedBitSet

/-- The 32-bit word of four bytes, the first at the lowest address (20_memory.md rule R81: the host bus
is little-endian). -/
def wordOfBytes (b0 b1 b2 b3 : Byte) : Word := b3 ++ b2 ++ b1 ++ b0

/-- Decode the bytes of a command word as the host bus carries them. -/
def decodeBytes (bs : List Byte) : Decoded :=
  match bs with
  | [b0, b1, b2, b3] => decodeWord (wordOfBytes b0 b1 b2 b3)
  | _ => .illegal .notFourBytes

/-- The four bytes that carry the number `w` on the host bus, lowest address first (rule R81). -/
def bytesOfTableWord (w : Nat) : List Byte :=
  [BitVec.ofNat 8 w, BitVec.ofNat 8 (w / 0x100), BitVec.ofNat 8 (w / 0x10000),
    BitVec.ofNat 8 (w / 0x1000000)]

/-- The instruction the decoder reads from the bits of an opcode-table word; none where it refuses. A
command word has 32 bits, so a longer one is refused. -/
def decodeTableWord (nbits w : Nat) : Option Instr :=
  if nbits ≤ 32 then
    match decodeBytes (bytesOfTableWord (w % 2 ^ nbits)) with
    | .instr i => some i
    | .illegal _ => none
  else none

/-! The encoder (rule R131). -/

/-- BUFSEL of a buffer (rules R111, R131: `(buf=RX)`). -/
def bufSelBit : BufSel → BitVec 1
  | .tx => 0
  | .rx => 1

/-- TYPE of a type (rule R112). -/
def primTypeBits : PrimType → BitVec 3
  | .uint16 => 0
  | .int16 => 1
  | .uint32 => 2
  | .int32 => 3
  | .float32 => 4
  | .float64 => 5
  | .hex => 6

/-- ORDER, IORD or FORD of an order (rule R113). -/
def byteOrderBits : ByteOrder → BitVec 2
  | .bigEndian => 0
  | .littleEndian => 1
  | .mixedBadc => 2
  | .mixedDcba => 3

/-- INTW (rules R111, R131: `(n=2)`). -/
def intWordsBit : IntWords → BitVec 1
  | .one => 0
  | .two => 1

/-- VAR (rules R111, R131: `(var=REF)`). -/
def levelVarBit : LevelVar → BitVec 1
  | .direct => 0
  | .referenced => 1

/-- A field value `v` placed with its lowest bit at position `p` of a command word. -/
def fieldAt {n : Nat} (p : Nat) (v : BitVec n) : Word := v.setWidth 32 <<< p

/-- The command word of a command (rule R131). -/
def encode : Instr → Word
  | .nop => 0x00000000
  | .crcInit => 0x00000001
  | .crcFeed b => 0x00000002 ||| fieldAt 8 b
  | .crcCompute buf len => 0x00000003 ||| fieldAt 8 (bufSelBit buf) ||| fieldAt 16 (BitVec.ofNat 9 len)
  | .crcVerify buf len => 0x00000004 ||| fieldAt 8 (bufSelBit buf) ||| fieldAt 16 (BitVec.ofNat 9 len)
  | .buildRead => 0x00000010
  | .buildWriteMultiple => 0x00000011
  | .parseRead => 0x00000020
  | .parseWrite => 0x00000021
  | .decode t o => 0x00000030 ||| fieldAt 8 (primTypeBits t) ||| fieldAt 12 (byteOrderBits o)
  | .decodeIntfrac n io fo =>
    0x00000031 ||| fieldAt 8 (intWordsBit n) ||| fieldAt 12 (byteOrderBits io)
      ||| fieldAt 14 (byteOrderBits fo)
  | .levelPct v c => 0x00000032 ||| fieldAt 8 (levelVarBit v) ||| fieldAt 9 (BitVec.ofBool c)

end Sys2Proof
end

