-- ==== Sys2Proof/Machine/Float.lean ====
section
/-! DEFINITION. Binary64 arithmetic (43_decode.md rules R215 to R217).

Every finite binary64 value is a whole number of units of 2^-1074, the smallest subnormal. An operation
computes its exact result as a fraction of natural numbers, counted in those units, and rounds once. What
rule R215 leaves to the IEEE-754 standard is PRESUMED (log entry 13). -/

namespace Sys2Proof.Machine.Float64

/-- What a binary64 pattern denotes: a NaN, an infinity, or a sign and a magnitude in units of
2^-1074 (a zero keeps its sign). -/
inductive Datum where
  | nan
  | inf (neg : Bool)
  | fin (neg : Bool) (mag : Nat)
  deriving DecidableEq, Repr

/-- The canonical NaN (rule R215). -/
def canonicalNaN : Wide := 0x7FF8000000000000

/-- The units of 2^-1074 in 1.0. -/
def one : Nat := 2 ^ 1074

/-- `f64_bits(v)` (00_scope.md rule R10): the datum of a binary64 pattern; subnormals are kept. -/
def unpack (x : Wide) : Datum :=
  let neg := x.getLsbD 63
  let e := (x.extractLsb' 52 11).toNat
  let f := (x.extractLsb' 0 52).toNat
  if e = 2047 then (if f = 0 then .inf neg else .nan)
  else if e = 0 then .fin neg f
  else .fin neg ((2 ^ 52 + f) * 2 ^ (e - 1))

/-- The whole number nearest to `n / d`, ties to even (rule R215). -/
def roundTiesEven (n d : Nat) : Nat :=
  let q := n / d
  let r := n % d
  if 2 * r < d then q else if d < 2 * r then q + 1 else q + q % 2

/-- The exponent of the last place kept of a magnitude whose whole part is `q` units: 53 significant
bits, or all of them where there are fewer (subnormals are kept, rule R215). -/
def lastPlace (q : Nat) : Nat := Nat.log2 q - 52

/-- The exponent and fraction fields, as one number, of the magnitude `n / d` units rounded to nearest,
ties to even. A carry out of the fraction runs into the exponent. -/
def roundedFields (n d : Nat) : Nat :=
  let e := lastPlace (n / d)
  e * 2 ^ 52 + roundTiesEven n (d * 2 ^ e)

/-- The exponent and fraction fields of infinity. -/
def infFields : Nat := 2047 * 2 ^ 52

/-- The binary64 pattern of the sign `neg` and the magnitude `n / d` units, rounded to nearest, ties to
even; a magnitude that rounds beyond the largest finite one gives infinity (rule R215). -/
def pack (neg : Bool) (n d : Nat) : Wide :=
  BitVec.ofNat 64 ((if neg then 2 ^ 63 else 0) + min (roundedFields n d) infFields)

/-- The pattern of an infinity. -/
def packInf (neg : Bool) : Wide := BitVec.ofNat 64 ((if neg then 2 ^ 63 else 0) + infFields)

/-- The whole number of units that a sign and a magnitude stand for. -/
def signedUnits (neg : Bool) (mag : Nat) : Int := if neg then -(mag : Int) else (mag : Int)

/-- Is the pattern a NaN? -/
def isNaN (x : Wide) : Bool := unpack x == .nan

/-- Is the pattern +0.0 or -0.0? -/
def isZero (x : Wide) : Bool := unpack x == .fin false 0 || unpack x == .fin true 0

/-- The pattern with its sign exchanged. -/
def negate (x : Wide) : Wide := x ^^^ 0x8000000000000000

/-- IEEE-754 multiply (rule R215). -/
def fmul (x y : Wide) : Wide :=
  match unpack x, unpack y with
  | .nan, _ => canonicalNaN
  | _, .nan => canonicalNaN
  | .inf a, .inf b => packInf (a != b)
  | .inf a, .fin b m => if m = 0 then canonicalNaN else packInf (a != b)
  | .fin a m, .inf b => if m = 0 then canonicalNaN else packInf (a != b)
  | .fin a m, .fin b k => pack (a != b) (m * k) one

/-- IEEE-754 add (rule R215). An exact zero sum of opposite signs is +0.0, as rounding to nearest
gives it; two zeros of one sign keep it. -/
def fadd (x y : Wide) : Wide :=
  match unpack x, unpack y with
  | .nan, _ => canonicalNaN
  | _, .nan => canonicalNaN
  | .inf a, .inf b => if a = b then packInf a else canonicalNaN
  | .inf a, .fin _ _ => packInf a
  | .fin _ _, .inf b => packInf b
  | .fin a m, .fin b k =>
    let z := signedUnits a m + signedUnits b k
    if z = 0 then pack (a && b) 0 1 else pack (decide (z < 0)) z.natAbs 1

/-- IEEE-754 subtract: `x - y = x + (-y)`; a NaN operand gives the canonical NaN whatever its sign
(rule R215). -/
def fsub (x y : Wide) : Wide := fadd x (negate y)

/-- IEEE-754 divide (rule R215). -/
def fdiv (x y : Wide) : Wide :=
  match unpack x, unpack y with
  | .nan, _ => canonicalNaN
  | _, .nan => canonicalNaN
  | .inf _, .inf _ => canonicalNaN
  | .inf a, .fin b _ => packInf (a != b)
  | .fin a _, .inf b => pack (a != b) 0 1
  | .fin a m, .fin b k =>
    if k = 0 then (if m = 0 then canonicalNaN else packInf (a != b))
    else pack (a != b) (m * one) k

/-- The place of a datum on the number line, infinities beyond every finite value; none for a NaN. -/
def position : Datum → Option Int
  | .nan => none
  | .inf neg => some (signedUnits neg (2 ^ 2200))
  | .fin neg m => some (signedUnits neg m)

/-- The IEEE-754 comparison `x < y`: false if either is a NaN, and -0.0 is not below +0.0
(44_vendor.md rule R261). -/
def flt (x y : Wide) : Bool :=
  match position (unpack x), position (unpack y) with
  | some a, some b => decide (a < b)
  | _, _ => false

/-- `f64_of_int(n)` (00_scope.md rule R10). -/
def ofInt (n : Int) : Wide := pack (decide (n < 0)) (n.natAbs * one) 1

/-- `widen(f32_bits(v))` (43_decode.md rule R216): the binary64 value of a binary32 pattern, whose
units are 2^-149 = 2^925 · 2^-1074; a NaN gives the canonical NaN. -/
def widen (x : BitVec 32) : Wide :=
  let neg := x.getLsbD 31
  let e := (x.extractLsb' 23 8).toNat
  let f := (x.extractLsb' 0 23).toNat
  if e = 255 then (if f = 0 then packInf neg else canonicalNaN)
  else if e = 0 then pack neg (f * 2 ^ 925) 1
  else pack neg ((2 ^ 23 + f) * 2 ^ (e - 1) * 2 ^ 925) 1

/-- +0.0. -/
def plusZero : Wide := 0x0000000000000000

/-- 100.0 (44_vendor.md rule R260). -/
def hundred : Wide := 0x4059000000000000

end Sys2Proof.Machine.Float64
end

