-- ==== Sys2Proof/Config.lean ====
section
/-! DEFINITION. What an implementation fixes (the OPEN parameters of 00_scope.md rule R7) and the
free values of the model (10_state.md rule R59). -/

namespace Sys2Proof

/-- A compound descriptor token table (43_decode.md rule R230): token to (type, order). -/
abbrev TokenTable := List (String × (PrimType × ByteOrder))

/-- The default P_TOKEN_TABLE (43_decode.md rule R232). -/
def Config.defaultTokenTable : TokenTable :=
  [ ("UINT32_1234", (.uint32, .bigEndian)),
    ("UINT32_3412", (.uint32, .littleEndian)),
    ("UINT32_2143", (.uint32, .mixedBadc)),
    ("UINT32_4321", (.uint32, .mixedDcba)),
    ("INT32_1234", (.int32, .bigEndian)),
    ("INT32_3412", (.int32, .littleEndian)),
    ("INT32_2143", (.int32, .mixedBadc)),
    ("INT32_4321", (.int32, .mixedDcba)),
    ("FLOAT32_1234", (.float32, .bigEndian)),
    ("FLOAT32_3412", (.float32, .littleEndian)),
    ("FLOAT32_2143", (.float32, .mixedBadc)),
    ("FLOAT32_4321", (.float32, .mixedDcba)),
    ("FLOAT64_12345678", (.float64, .bigEndian)),
    ("FLOAT64_78563412", (.float64, .littleEndian)),
    ("FLOAT64_21436587", (.float64, .mixedBadc)),
    ("FLOAT64_87654321", (.float64, .mixedDcba)) ]

/-- The OPEN parameters (00_scope.md rule R7; 92_eei_decisions.md). They are fixed for one
implementation and no reset changes them (70_reset_and_hazards.md rule R311). They are held as data
in State, so a claim about every state holds for every value of every parameter (log entry 2). -/
structure Params where
  /-- P_BASE: bus address of the window. -/
  pBase : Nat
  /-- P_MAX_WRITE_REGS: the maximum register count of a write-multiple request. -/
  maxWriteRegs : Nat
  /-- P_WM_EXC_SHORT: whether PARSE_WRITE classifies a 5 to 7 byte exception response first. -/
  wmExcShort : Bool
  /-- P_TOKEN_TABLE. -/
  tokenTable : TokenTable
  deriving DecidableEq, Repr

/-- The values rule R7 allows: P_BASE is 4096-byte aligned and P_MAX_WRITE_REGS lies in 1..127. -/
def Params.wf (p : Params) : Bool :=
  p.pBase % 4096 == 0 && (1 ≤ p.maxWriteRegs && p.maxWriteRegs ≤ 127)

/-- The defaults of rule R7. P_BASE has no default: the value 0 is a DESIGN CHOICE (log entry 2). -/
def Config.defaultParams : Params :=
  { pBase := 0, maxWriteRegs := 123, wmExcShort := false
    tokenTable := Config.defaultTokenTable }

/-- MAX_FRAME (rule R7): the size of TXBUF and of RXBUF in bytes. -/
abbrev Config.maxFrame : Nat := 256

/-- WBUF_WORDS (rule R7): the capacity of WBUF in words. -/
abbrev Config.wbufWords : Nat := 128

/-- FREE VALUE. What the buffer byte at window offset `offset` holds when nothing has written it
since reset number `epoch` (10_state.md rules R58, R59: "unspecified", "a draw under no law"). It has
no body, so nothing can be proved of its value (log entry 1). -/
opaque Config.unwrittenByte (epoch : Nat) (offset : Nat) : Byte

end Sys2Proof
end

