-- ==== Sys2Proof/Machine/State.lean ====
section
/-! DEFINITION. The state of MBCODEC (10_state.md rule R30), the host-side inputs it serves, the
reasons a step can stop, and the state after reset (rules R58, R311). -/

namespace Sys2Proof.Machine

/-- STATUS.RESULT (rule R33): the outcome of the most recent command. -/
inductive ResultCode where
  | none
  | success
  | timeout
  | invalidCrc
  | protocolException
  | malformedResponse
  | invalidArgument
  | illegalCommand
  deriving DecidableEq, Repr

/-- The contents of the buffers, as (window offset, byte) pairs: the bytes written since reset, in
rising order of their offsets. A byte that is not listed has no known value (rule R59). -/
abbrev Memory := List Host.Cell

/-- The canonical form of a buffer memory: offsets strictly rising. No listed entry can equal what an
unlisted offset reads as, since an unlisted offset has no known value (log entry 1). -/
def Memory.wf : Memory → Bool
  | [] => true
  | [_] => true
  | (a, _) :: (c, x) :: m => decide (a < c) && Memory.wf ((c, x) :: m)

/-- The width of a host bus access: n ∈ {1, 2, 4} bytes (00_scope.md rule R10). -/
inductive AccessSize where
  | one
  | two
  | four
  deriving DecidableEq, Repr

/-- The direction of a host bus access, and the data of a write (rule R10: MemRead, MemWrite). -/
inductive BusOp where
  | read
  | write (v : Word)
  deriving DecidableEq, Repr

/-- One host access: `MemRead(addr, n)` or `MemWrite(addr, n, v)` (rule R10). -/
structure BusAccess where
  addr : Nat
  size : AccessSize
  op : BusOp
  deriving DecidableEq, Repr

/-- What the outside does to MBCODEC: one access, or the reset input asserted, possibly during an
access, which then has no effect (70_reset_and_hazards.md rule R310; log entry 7). -/
inductive HostEvent where
  | access (a : BusAccess)
  | reset (during : Option BusAccess)
  deriving DecidableEq, Repr

/-- What the host saw of the last event: nothing yet, the data of a completed read, a completed write,
or the error response of rule R282. -/
inductive BusResponse where
  | idle
  | data (v : Word)
  | done
  | busError (addr : Nat)
  deriving DecidableEq, Repr

/-- The registers and buffers of rule R30, each register at its field width (rule R31); a 64-bit
register is stored whole and its two 32-bit halves are views of it (rule R52). CMD holds no value
between writes (rule R32) and has no field. Below them stand the fields that are not MBCODEC's
architectural state: the model's reset counter, the parameters, and the host side. -/
structure State where
  /-- STATUS[2:0] (rule R33). -/
  result : ResultCode
  /-- STATUS[15:8]: bits [7:0] of the last command word (rule R33). -/
  lastOp : BitVec 8
  /-- EXC_CODE (rule R34). -/
  excCode : BitVec 8
  /-- CRC (rule R35). -/
  crc : BitVec 16
  /-- SLAVE (rule R36). -/
  slave : BitVec 8
  /-- FUNC (rule R37). -/
  func : BitVec 8
  /-- ADDR (rule R38). -/
  addr : BitVec 16
  /-- QTY (rule R39). -/
  qty : BitVec 16
  /-- TXLEN (rule R40). -/
  txlen : BitVec 9
  /-- RXLEN (rule R41). -/
  rxlen : BitVec 9
  /-- BYTECOUNT (rule R42). -/
  bytecount : BitVec 8
  /-- WCOUNT (rule R43). -/
  wcount : BitVec 8
  /-- SCALE_HI:SCALE_LO (rule R44). -/
  scale : BitVec 64
  /-- RAW_HI:RAW_LO (rule R45). -/
  raw : BitVec 64
  /-- SCALED_HI:SCALED_LO (rule R46). -/
  scaled : BitVec 64
  /-- REF_HI:REF_LO (rule R47). -/
  ref : BitVec 64
  /-- SPAN_HI:SPAN_LO (rule R48). -/
  span : BitVec 64
  /-- TXBUF, RXBUF and WBUF (rules R49 to R51), by window offset. -/
  mem : Memory
  /-- The model's own: how many resets there have been. It selects the free contents of the buffers
  (log entry 1). -/
  epoch : Nat
  /-- The implementation's parameters (rule R7); nothing changes them. -/
  params : Params
  /-- Host side: the events that have yet to arrive, in arrival order (20_memory.md rules R91, R92). -/
  pending : List HostEvent
  /-- Host side: how the last event was answered. -/
  response : BusResponse
  deriving DecidableEq, Repr

/-- Why the machine stops. -/
inductive Fault where
  /-- Raised by the bus for an access outside the 4 KiB window (20_memory.md rule R80): it is another
  device's, and the spec does not say what answers it. Safe: the model stops where hardware goes on. -/
  | notAddressed (addr : Nat)
  deriving DecidableEq, Repr

/-- Why an instruction has no meaning. -/
inductive Refusal where
  /-- Raised by an arm of `exec` whose instruction has no meaning yet; no arm raises it. Safe. -/
  | notModelled (mnemonic : String)
  deriving DecidableEq, Repr

/-- What a step or a command ends in. -/
abbrev Out := Host.Outcome State Fault Refusal

/-- The machine right after reset (rules R58, R311), with nothing in the buffers known (rule R59), the
default parameters (log entry 2), and no host event pending (log entry 3). -/
def State.reset : State :=
  { result := .none
    lastOp := 0x00
    excCode := 0x00
    crc := 0xFFFF
    slave := 0x00
    func := 0x00
    addr := 0x0000
    qty := 0x0000
    txlen := 0
    rxlen := 0
    bytecount := 0
    wcount := 0
    scale := 0x3FF0000000000000
    raw := 0x0000000000000000
    scaled := 0x0000000000000000
    ref := 0x0000000000000000
    span := 0x0000000000000000
    mem := []
    epoch := 0
    params := Config.defaultParams
    pending := []
    response := .idle }

end Sys2Proof.Machine
end

