-- ==== Sys2Proof/Machine/Flags.lean ====
section
/-! DEFINITION. The condition code: STATUS (10_state.md rules R33, R53, R56). -/

namespace Sys2Proof.Machine

/-- The number of a result code (rule R33). -/
def resultBits : ResultCode → BitVec 3
  | .none => 0
  | .success => 1
  | .timeout => 2
  | .invalidCrc => 3
  | .protocolException => 4
  | .malformedResponse => 5
  | .invalidArgument => 6
  | .illegalCommand => 7

/-- STATUS as the host reads it: RESULT in bits [2:0], LAST_OP in bits [15:8], every other bit 0
(rules R33, R53). -/
def statusWord (s : State) : Word :=
  (s.lastOp.setWidth 32 <<< 8) ||| (resultBits s.result).setWidth 32

end Sys2Proof.Machine
end

