-- ==== Sys2Proof/Machine/Operands.lean ====
section
/-! DEFINITION. The operand forms: byte order (20_memory.md rules R81, R82), the buffers a command
addresses, and the composition of register words into patterns (43_decode.md rules R211 to R221). -/

namespace Sys2Proof.Machine

/-- `hi8(w)` (00_scope.md rule R10). -/
def hi8 (w : Half) : Byte := w.extractLsb' 8 8

/-- `lo8(w)` (rule R10). -/
def lo8 (w : Half) : Byte := w.extractLsb' 0 8

/-- `bswap16(w)`: the two bytes of a word exchanged (rule R10). -/
def bswap16 (w : Half) : Half := lo8 w ++ hi8 w

/-- A 16-bit field sent high byte first (20_memory.md rule R82). -/
def bigEndian16 (w : Half) : List Byte := [hi8 w, lo8 w]

/-- A 16-bit field sent low byte first: the CRC of a frame (rule R82), and a word of WBUF as the host
bus sees it (rule R81). -/
def littleEndian16 (w : Half) : List Byte := [lo8 w, hi8 w]

/-- The number a list of bytes carries, the first byte in the lowest bits (rule R81). -/
def leNat : List Byte → Nat
  | [] => 0
  | b :: bs => b.toNat + 256 * leNat bs

/-- The `n` bytes that carry the number `v`, lowest first (rule R81). -/
def leBytes : Nat → Nat → List Byte
  | 0, _ => []
  | n + 1, v => BitVec.ofNat 8 v :: leBytes n (v / 256)

/-- The window offset of `TXBUF[i]` (10_state.md rule R49). -/
def txOffset (i : Nat) : Nat := 0x100 + i

/-- The window offset of `RXBUF[i]` (rule R50). -/
def rxOffset (i : Nat) : Nat := 0x200 + i

/-- The window offset of the low byte of `WBUF[i]` (rule R51; its high byte is the next one, rule R81). -/
def wbufOffset (i : Nat) : Nat := 0x300 + 2 * i

/-- The window offset of byte `i` of the buffer BUFSEL selects (30_encoding.md rule R111). -/
def bufOffset (buf : BufSel) (i : Nat) : Nat :=
  match buf with
  | .tx => txOffset i
  | .rx => rxOffset i

/-- How many words a type needs (43_decode.md rule R211). -/
def wordsNeeded : PrimType → Nat
  | .uint16 => 1
  | .int16 => 1
  | .uint32 => 2
  | .int32 => 2
  | .float32 => 2
  | .float64 => 4
  | .hex => 2

/-- Which orders a type supports (rule R211). -/
def orderSupported : PrimType → ByteOrder → Bool
  | .float32, .mixedBadc => false
  | .float32, .mixedDcba => false
  | .float64, .mixedDcba => false
  | _, _ => true

/-- `compose32` (rule R213). -/
def compose32 (o : ByteOrder) (w0 w1 : Half) : BitVec 32 :=
  match o with
  | .bigEndian => w0 ++ w1
  | .littleEndian => w1 ++ w0
  | .mixedBadc => bswap16 w0 ++ bswap16 w1
  | .mixedDcba => bswap16 w1 ++ bswap16 w0

/-- `compose64` (rule R214). MIXED_DCBA is unsupported for FLOAT64 and DECODE ends before it composes
(rule R211); that row is not reached and repeats BIG_ENDIAN to keep the function total (log entry 12). -/
def compose64 (o : ByteOrder) (w0 w1 w2 w3 : Half) : BitVec 64 :=
  match o with
  | .bigEndian => w0 ++ w1 ++ w2 ++ w3
  | .littleEndian => w3 ++ w2 ++ w1 ++ w0
  | .mixedBadc => bswap16 w0 ++ bswap16 w1 ++ bswap16 w2 ++ bswap16 w3
  | .mixedDcba => w0 ++ w1 ++ w2 ++ w3

/-- The pattern a type and an order make of the first words of WBUF, zero-extended to 64 bits
(rules R212, R213, R214, R218 and R220; the `case` of rule R222). -/
def decodePattern (t : PrimType) (o : ByteOrder) (w0 w1 w2 w3 : Half) : Wide :=
  match t with
  | .uint16 => w0.setWidth 64
  | .int16 => w0.setWidth 64
  | .uint32 => (compose32 o w0 w1).setWidth 64
  | .int32 => (compose32 o w0 w1).setWidth 64
  | .float32 => (compose32 o w0 w1).setWidth 64
  | .float64 => compose64 o w0 w1 w2 w3
  | .hex => (w0 ++ w1 : BitVec 32).setWidth 64

end Sys2Proof.Machine
end

