-- ==== Sys2Proof/Machine/Ops.lean ====
section
/-! DEFINITION. The operations the commands and the bus share: the buffers' bytes and words, the end of
a command, an error response, and reset. MBCODEC has no trap entry and no return from one
(60_exceptions.md rules R280, R286, R287): what records an error is `State.finish`,
`State.protocolException` and `State.raiseBusError`. -/

namespace Sys2Proof.Machine

/-- The byte written to a buffer offset since reset, if there is one. -/
def Memory.get? : Memory → Nat → Option Byte
  | [], _ => none
  | (c, x) :: m, a => if c = a then some x else Memory.get? m a

/-- Write one byte, keeping the offsets rising. -/
def Memory.set : Memory → Nat → Byte → Memory
  | [], a, b => [(a, b)]
  | (c, x) :: m, a, b =>
    if a < c then (a, b) :: (c, x) :: m
    else if a = c then (a, b) :: m
    else (c, x) :: Memory.set m a b

/-- Write bytes at rising offsets from `a`. -/
def Memory.setBytes : Memory → Nat → List Byte → Memory
  | m, _, [] => m
  | m, a, b :: bs => Memory.setBytes (Memory.set m a b) (a + 1) bs

/-- Read the byte at a buffer offset. A byte that nothing has written since reset reads as a free
value, the same one until it is written or the machine is reset (10_state.md rule R59; log entry 1). -/
def State.byte (s : State) (a : Nat) : Byte :=
  (Memory.get? s.mem a).getD (Config.unwrittenByte s.epoch a)

/-- Read `n` bytes from offset `a` on: a byte sequence of 00_scope.md rule R12. -/
def State.bytes (s : State) (a n : Nat) : List Byte :=
  (List.range n).map (fun k => s.byte (a + k))

/-- `TXBUF[i]` (10_state.md rule R49). -/
def State.txbuf (s : State) (i : Nat) : Byte := s.byte (txOffset i)

/-- `RXBUF[i]` (rule R50). -/
def State.rxbuf (s : State) (i : Nat) : Byte := s.byte (rxOffset i)

/-- `WBUF[i]` (rule R51): its low byte lies at the lower offset (20_memory.md rule R81). -/
def State.wbuf (s : State) (i : Nat) : Half := s.byte (wbufOffset i + 1) ++ s.byte (wbufOffset i)

/-- `RXBUF[i] ‖ RXBUF[i+1]`: a 16-bit frame field, high byte first (rule R82). -/
def State.rxField (s : State) (i : Nat) : Half := s.rxbuf i ++ s.rxbuf (i + 1)

/-- Write bytes to a buffer at rising offsets from `a`. -/
def State.setBytes (s : State) (a : Nat) (bs : List Byte) : State :=
  { s with mem := Memory.setBytes s.mem a bs }

/-- `finish(code)` (00_scope.md rule R10): the end of every command. -/
def State.finish (s : State) (code : ResultCode) : State := { s with result := code }

/-- The end of a parser that met an exception response (42_frame.md rule R184): EXC_CODE takes the third
byte of the frame. -/
def State.protocolException (s : State) : State :=
  { s with excCode := s.rxbuf 2 }.finish .protocolException

/-- `raise BusError(addr)` (rule R10, 60_exceptions.md rule R282): the access ends with an error
response and MBCODEC's state is unchanged. The model goes on with the host's next event
(DESIGN CHOICE, log entry 5). -/
def State.raiseBusError (s : State) (addr : Nat) : State := { s with response := .busError addr }

/-- Reset (70_reset_and_hazards.md rules R310, R311): every register takes its reset value, the buffers
become unspecified, the parameters stay. The host's later events are not MBCODEC's and stay
(DEDUCED, log entry 7). -/
def State.resetNow (s : State) : State :=
  { State.reset with epoch := s.epoch + 1, params := s.params, pending := s.pending }

/-- Apply `f` to the next state of an outcome. -/
def mapNext (f : State → State) (o : Out) : Out :=
  match o with
  | .next s => .next (f s)
  | .fault r => .fault r
  | .refused r => .refused r

end Sys2Proof.Machine
end

