-- ==== Sys2Proof/Machine/Decoder.lean ====
section
/-! DEFINITION. The register-word decoder: DECODE (43_decode.md). -/

namespace Sys2Proof.Machine

/-- `interpret(type, v)` (rule R217), from the zero-extended pattern: the value scaling multiplies. -/
def interpret (t : PrimType) (raw : Wide) : Wide :=
  match t with
  | .uint16 => Float64.ofInt (raw.setWidth 16).toNat
  | .int16 => Float64.ofInt (raw.setWidth 16).toInt
  | .uint32 => Float64.ofInt (raw.setWidth 32).toNat
  | .int32 => Float64.ofInt (raw.setWidth 32).toInt
  | .float32 => Float64.widen (raw.setWidth 32)
  | .float64 => raw
  | .hex => Float64.ofInt (raw.setWidth 32).toNat

/-- The pattern DECODE composes from the first words of WBUF (rule R222). -/
def State.pattern (s : State) (t : PrimType) (o : ByteOrder) : Wide :=
  decodePattern t o (s.wbuf 0) (s.wbuf 1) (s.wbuf 2) (s.wbuf 3)

/-- DECODE (rule R222). -/
def execDecode (t : PrimType) (o : ByteOrder) (s : State) : Out :=
  .next (
    if s.wcount.toNat < wordsNeeded t then s.finish .invalidArgument
    else if !orderSupported t o then s.finish .invalidArgument
    else
      { s with
        raw := s.pattern t o
        scaled := Float64.fmul (interpret t (s.pattern t o)) s.scale }.finish .success)

end Sys2Proof.Machine
end

