-- ==== Sys2Proof/Machine/Crc.lean ====
section
/-! DEFINITION. The CRC generator and verifier, and the commands NOP, CRC_INIT, CRC_FEED, CRC_COMPUTE
and CRC_VERIFY (41_crc.md). -/

namespace Sys2Proof.Machine

/-- One iteration of rule R140: a logical right shift, and an XOR of 0xA001 if bit 0 was 1. -/
def crcShift (c : Half) : Half := if c.getLsbD 0 then (c >>> 1) ^^^ 0xA001 else c >>> 1

/-- `k` iterations of rule R140. -/
def crcShifts : Nat → Half → Half
  | 0, c => c
  | k + 1, c => crcShifts k (crcShift c)

/-- `crc_step(c, b)` (rule R140). -/
def crcStep (c : Half) (b : Byte) : Half := crcShifts 8 (c ^^^ b.setWidth 16)

/-- `crc16(S)` (rule R141). -/
def crc16 (bs : List Byte) : Half := bs.foldl crcStep 0xFFFF

/-- The 16-bit value in the last two bytes of a frame, low byte first (rule R147). -/
def storedCrc (f : List Byte) : Half := f.getD (f.length - 1) 0 ++ f.getD (f.length - 2) 0

/-- `verify(F)` (rule R147). -/
def verify (f : List Byte) : Bool :=
  if f.length < 3 then false else crc16 (f.take (f.length - 2)) == storedCrc f

/-- A frame body with its CRC appended, low byte first (rule R148). -/
def appendCrc (body : List Byte) : List Byte := body ++ littleEndian16 (crc16 body)

/-- NOP (rule R145). -/
def execNop (s : State) : Out := .next (s.finish .success)

/-- CRC_INIT (rule R142). -/
def execCrcInit (s : State) : Out := .next ({ s with crc := 0xFFFF }.finish .success)

/-- CRC_FEED (rule R143). -/
def execCrcFeed (b : Byte) (s : State) : Out :=
  .next ({ s with crc := crcStep s.crc b }.finish .success)

/-- CRC_COMPUTE (rule R144). -/
def execCrcCompute (buf : BufSel) (len : Nat) (s : State) : Out :=
  .next (
    if len > 256 then s.finish .invalidArgument
    else { s with crc := crc16 (s.bytes (bufOffset buf 0) len) }.finish .success)

/-- CRC_VERIFY (rule R146): the CRC register is unchanged. -/
def execCrcVerify (buf : BufSel) (len : Nat) (s : State) : Out :=
  .next (s.finish (
    if len > 256 then .invalidArgument
    else if verify (s.bytes (bufOffset buf 0) len) then .success
    else .invalidCrc))

end Sys2Proof.Machine
end

