-- ==== Sys2Proof/Machine/Frame.lean ====
section
/-! DEFINITION. The frame codec: BUILD_READ, BUILD_WRITE_MULTIPLE, PARSE_READ and PARSE_WRITE
(42_frame.md). -/

namespace Sys2Proof.Machine

/-- The six header bytes of a read request (rules R170, R172). -/
def readRequestBody (s : State) : List Byte :=
  [s.slave, s.func] ++ bigEndian16 s.addr ++ bigEndian16 s.qty

/-- `WBUF[0..n)`, each word high byte first (rule R176: "each value big-endian"). -/
def wbufValues (s : State) (n : Nat) : List Byte :=
  (List.range n).flatMap (fun i => bigEndian16 (s.wbuf i))

/-- The bytes of a write-multiple request before its CRC (rules R170, R176); `n` is QTY. -/
def writeRequestBody (s : State) (n : Nat) : List Byte :=
  [s.slave, 0x10] ++ bigEndian16 s.addr ++ bigEndian16 s.qty ++ [BitVec.ofNat 8 (2 * n)]
    ++ wbufValues s n

/-- Place a frame in TXBUF and its length in TXLEN (10_state.md rules R40, R49). -/
def State.placeFrame (s : State) (frame : List Byte) : State :=
  { s.setBytes (txOffset 0) frame with txlen := BitVec.ofNat 9 frame.length }

/-- Does BUILD_WRITE_MULTIPLE reject the value count `n`? (rule R176) -/
def writeCountRejected (s : State) (n : Nat) : Bool :=
  decide (n = 0) || decide (n > s.params.maxWriteRegs) || decide (9 + 2 * n > Config.maxFrame)

/-- BUILD_READ (rule R172). -/
def execBuildRead (s : State) : Out :=
  .next ((s.placeFrame (appendCrc (readRequestBody s))).finish .success)

/-- BUILD_WRITE_MULTIPLE (rule R176). -/
def execBuildWriteMultiple (s : State) : Out :=
  .next (
    if writeCountRejected s s.qty.toNat then s.finish .invalidArgument
    else (s.placeFrame (appendCrc (writeRequestBody s s.qty.toNat))).finish .success)

/-- The received frame `RXBUF[0..n)` (rule R180). -/
def State.received (s : State) (n : Nat) : List Byte := s.bytes (rxOffset 0) n

/-- The result of a response shorter than the minimum (rule R181). -/
def shortResponse (n : Nat) : ResultCode := if n = 0 then .timeout else .malformedResponse

/-- Bit 7 of the function code of the received frame (rule R184). -/
def State.isExceptionResponse (s : State) : Bool := (s.rxbuf 1).getLsbD 7

/-- Do the slave address and the function code of the response match the request? (rules R182, R190) -/
def State.headerMatches (s : State) : Bool := s.rxbuf 0 == s.slave && s.rxbuf 1 == s.func

/-- The first `n` payload words of a read response, as WBUF holds them: word `j` is
`RXBUF[3+2j] ‖ RXBUF[4+2j]` (rule R185), in WBUF low byte first (20_memory.md rule R81). -/
def payloadBytes (s : State) (n : Nat) : List Byte :=
  (List.range n).flatMap (fun j => littleEndian16 (s.rxField (3 + 2 * j)))

/-- The success writes of PARSE_READ (rule R182): the payload, BYTECOUNT and WCOUNT. -/
def State.acceptPayload (s : State) : State :=
  let bc := (s.rxbuf 2).toNat
  { s.setBytes (wbufOffset 0) (payloadBytes s (bc / 2)) with
    bytecount := s.rxbuf 2, wcount := BitVec.ofNat 8 (bc / 2) }

/-- PARSE_READ (rule R182), with its checks in the order of rule R183. -/
def execParseRead (s : State) : Out :=
  let n := s.rxlen.toNat
  .next (
    if n > 256 then s.finish .invalidArgument
    else if n < 5 then s.finish (shortResponse n)
    else if !verify (s.received n) then s.finish .invalidCrc
    else if s.isExceptionResponse then s.protocolException
    else if !s.headerMatches then s.finish .malformedResponse
    else if (s.rxbuf 2).getLsbD 0 || n != (s.rxbuf 2).toNat + 5 then s.finish .malformedResponse
    else s.acceptPayload.finish .success)

/-- Do the echoed address and quantity match the request? (rule R190) -/
def State.echoMatches (s : State) : Bool := s.rxField 2 == s.addr && s.rxField 4 == s.qty

/-- PARSE_WRITE (rules R190, R191), with its checks in the order of rule R183. -/
def execParseWrite (s : State) : Out :=
  let n := s.rxlen.toNat
  .next (
    if n > 256 then s.finish .invalidArgument
    else if s.params.wmExcShort && decide (5 ≤ n) && decide (n < 8) && s.isExceptionResponse then
      (if !verify (s.received n) then s.finish .invalidCrc else s.protocolException)
    else if n < 8 then s.finish (shortResponse n)
    else if !verify (s.received n) then s.finish .invalidCrc
    else if s.isExceptionResponse then s.protocolException
    else if !s.headerMatches then s.finish .malformedResponse
    else if !s.echoMatches then s.finish .malformedResponse
    else if n != 8 then s.finish .malformedResponse
    else s.finish .success)

end Sys2Proof.Machine
end

