-- ==== Sys2Proof/Machine/Vendor.lean ====
section
/-! DEFINITION. The vendor composite rules: DECODE_INTFRAC and LEVEL_PCT (44_vendor.md). -/

namespace Sys2Proof.Machine

/-- How many integer words INTW selects (rule R252). -/
def intWordCount : IntWords → Nat
  | .one => 1
  | .two => 2

/-- The unsigned integer pattern (rule R252); IORD is ignored for one word. -/
def State.intPattern (s : State) (n : IntWords) (io : ByteOrder) : BitVec 32 :=
  match n with
  | .one => (s.wbuf 0).setWidth 32
  | .two => compose32 io (s.wbuf 0) (s.wbuf 1)

/-- The binary32 pattern of the fraction: the two words after the integer words (rule R252). -/
def State.fracPattern (s : State) (n : IntWords) (fo : ByteOrder) : BitVec 32 :=
  compose32 fo (s.wbuf (intWordCount n)) (s.wbuf (intWordCount n + 1))

/-- `(integer + fraction) * scale`, with its two roundings (rule R252). -/
def intFracValue (ipat fpat : BitVec 32) (scale : Wide) : Wide :=
  Float64.fmul (Float64.fadd (Float64.ofInt ipat.toNat) (Float64.widen fpat)) scale

/-- DECODE_INTFRAC (rule R252). The fraction is a FLOAT32, so FORD is one of its orders. -/
def execDecodeIntfrac (n : IntWords) (io fo : ByteOrder) (s : State) : Out :=
  .next (
    if s.wcount.toNat < intWordCount n + 2 then s.finish .invalidArgument
    else if !orderSupported .float32 fo then s.finish .invalidArgument
    else
      { s with
        raw := s.intPattern n io ++ s.fracPattern n fo
        scaled := intFracValue (s.intPattern n io) (s.fracPattern n fo) s.scale }.finish .success)

/-- The two percentage formulas (rule R260), evaluated in their order. -/
def levelPercent (var : LevelVar) (m ref span : Wide) : Wide :=
  match var with
  | .direct => Float64.fmul (Float64.fdiv m span) Float64.hundred
  | .referenced =>
    Float64.fmul (Float64.fdiv (Float64.fsub ref m) span) Float64.hundred

/-- Clamping (rule R261): below 0 always, above 100 where CLAMPHI is 1. -/
def clampPercent (clampHi : Bool) (p : Wide) : Wide :=
  if Float64.flt p Float64.plusZero then Float64.plusZero
  else if clampHi && Float64.flt Float64.hundred p then Float64.hundred
  else p

/-- The operands LEVEL_PCT rejects (rule R262): a zero span or a NaN operand; REF matters for
REFERENCED only. -/
def levelOperandsRejected (var : LevelVar) (m ref span : Wide) : Bool :=
  Float64.isZero span || Float64.isNaN m || Float64.isNaN span
    || (decide (var = .referenced) && Float64.isNaN ref)

/-- LEVEL_PCT (rule R262). -/
def execLevelPct (var : LevelVar) (clampHi : Bool) (s : State) : Out :=
  let p := levelPercent var s.scaled s.ref s.span
  .next (
    if levelOperandsRejected var s.scaled s.ref s.span then s.finish .invalidArgument
    else if Float64.isNaN p then s.finish .invalidArgument
    else { s with scaled := clampPercent clampHi p }.finish .success)

end Sys2Proof.Machine
end

