-- ==== Sys2Proof/Machine/Dispatch.lean ====
section
/-! DEFINITION. The meaning of every command, one arm each (30_encoding.md rule R114). -/

namespace Sys2Proof.Machine

def exec (i : Instr) (s : State) : Host.Outcome State Fault Refusal :=
  match i with
  | .nop => Sys2Proof.Machine.execNop s
  | .crcInit => Sys2Proof.Machine.execCrcInit s
  | .crcFeed byte => Sys2Proof.Machine.execCrcFeed byte s
  | .crcCompute buf len => Sys2Proof.Machine.execCrcCompute buf len s
  | .crcVerify buf len => Sys2Proof.Machine.execCrcVerify buf len s
  | .buildRead => Sys2Proof.Machine.execBuildRead s
  | .buildWriteMultiple => Sys2Proof.Machine.execBuildWriteMultiple s
  | .parseRead => Sys2Proof.Machine.execParseRead s
  | .parseWrite => Sys2Proof.Machine.execParseWrite s
  | .decode type order => Sys2Proof.Machine.execDecode type order s
  | .decodeIntfrac intw iord ford => Sys2Proof.Machine.execDecodeIntfrac intw iord ford s
  | .levelPct var clampHi => Sys2Proof.Machine.execLevelPct var clampHi s

end Sys2Proof.Machine
end

