-- ==== Sys2Proof/Machine/Registers.lean ====
section
/-! DEFINITION. The register map and the bus view of each register (10_state.md rules R31 to R48, R52,
R53; 20_memory.md rule R85). -/

namespace Sys2Proof.Machine

/-- The 22 registers (rule R30). -/
inductive Reg where
  | cmd
  | status
  | excCode
  | crc
  | slave
  | func
  | addr
  | qty
  | txlen
  | rxlen
  | bytecount
  | wcount
  | scaleLo
  | scaleHi
  | rawLo
  | rawHi
  | scaledLo
  | scaledHi
  | refLo
  | refHi
  | spanLo
  | spanHi
  deriving DecidableEq, Repr

/-- Every register, in the order of the map (rule R31). -/
def allRegs : List Reg :=
  [.cmd, .status, .excCode, .crc, .slave, .func, .addr, .qty, .txlen, .rxlen, .bytecount, .wcount,
    .scaleLo, .scaleHi, .rawLo, .rawHi, .scaledLo, .scaledHi, .refLo, .refHi, .spanLo, .spanHi]

/-- The window offset of a register (rule R31). -/
def regOffset : Reg → Nat
  | .cmd => 0x000
  | .status => 0x004
  | .excCode => 0x008
  | .crc => 0x00C
  | .slave => 0x010
  | .func => 0x014
  | .addr => 0x018
  | .qty => 0x01C
  | .txlen => 0x020
  | .rxlen => 0x024
  | .bytecount => 0x028
  | .wcount => 0x02C
  | .scaleLo => 0x030
  | .scaleHi => 0x034
  | .rawLo => 0x038
  | .rawHi => 0x03C
  | .scaledLo => 0x040
  | .scaledHi => 0x044
  | .refLo => 0x048
  | .refHi => 0x04C
  | .spanLo => 0x050
  | .spanHi => 0x054

/-- The register at a window offset, if there is one (rule R31). -/
def regAt (off : Nat) : Option Reg := allRegs.find? (fun r => regOffset r == off)

/-- The high half of a 64-bit register (rule R52). -/
def hiHalf (v : Wide) : Word := v.extractLsb' 32 32

/-- The low half of a 64-bit register (rule R52). -/
def loHalf (v : Wide) : Word := v.extractLsb' 0 32

/-- A 64-bit register with its high half replaced. -/
def withHiHalf (v : Wide) (w : Word) : Wide := w ++ loHalf v

/-- A 64-bit register with its low half replaced. -/
def withLoHalf (v : Wide) (w : Word) : Wide := hiHalf v ++ w

/-- What a 4-byte read of a register returns: its fields, with every bit above them 0
(rules R31, R53); CMD reads 0 (rule R85). -/
def State.readReg (s : State) (r : Reg) : Word :=
  match r with
  | .cmd => 0
  | .status => statusWord s
  | .excCode => s.excCode.setWidth 32
  | .crc => s.crc.setWidth 32
  | .slave => s.slave.setWidth 32
  | .func => s.func.setWidth 32
  | .addr => s.addr.setWidth 32
  | .qty => s.qty.setWidth 32
  | .txlen => s.txlen.setWidth 32
  | .rxlen => s.rxlen.setWidth 32
  | .bytecount => s.bytecount.setWidth 32
  | .wcount => s.wcount.setWidth 32
  | .scaleLo => loHalf s.scale
  | .scaleHi => hiHalf s.scale
  | .rawLo => loHalf s.raw
  | .rawHi => hiHalf s.raw
  | .scaledLo => loHalf s.scaled
  | .scaledHi => hiHalf s.scaled
  | .refLo => loHalf s.ref
  | .refHi => hiHalf s.ref
  | .spanLo => loHalf s.span
  | .spanHi => hiHalf s.span

/-- What a 4-byte write to a register other than CMD stores (rule R85): a read-write register takes its
field bits, a write to a read-only one is ignored. A write to CMD runs a command instead (Bus.lean). -/
def State.writeReg (s : State) (r : Reg) (v : Word) : State :=
  match r with
  | .cmd => s
  | .status => s
  | .excCode => s
  | .crc => { s with crc := v.setWidth 16 }
  | .slave => { s with slave := v.setWidth 8 }
  | .func => { s with func := v.setWidth 8 }
  | .addr => { s with addr := v.setWidth 16 }
  | .qty => { s with qty := v.setWidth 16 }
  | .txlen => s
  | .rxlen => { s with rxlen := v.setWidth 9 }
  | .bytecount => s
  | .wcount => { s with wcount := v.setWidth 8 }
  | .scaleLo => { s with scale := withLoHalf s.scale v }
  | .scaleHi => { s with scale := withHiHalf s.scale v }
  | .rawLo => s
  | .rawHi => s
  | .scaledLo => s
  | .scaledHi => s
  | .refLo => { s with ref := withLoHalf s.ref v }
  | .refHi => { s with ref := withHiHalf s.ref v }
  | .spanLo => { s with span := withLoHalf s.span v }
  | .spanHi => { s with span := withHiHalf s.span v }

end Sys2Proof.Machine
end

