-- ==== Sys2Proof/Machine/Bus.lean ====
section
/-! DEFINITION. The host bus: what one access does (20_memory.md rules R80 to R91) and how a write to
CMD runs a command (30_encoding.md rule R110). -/

namespace Sys2Proof.Machine

/-- The bytes of an access (00_scope.md rule R10). -/
def sizeBytes : AccessSize → Nat
  | .one => 1
  | .two => 2
  | .four => 4

/-- The size of the window (rule R80). -/
def windowBytes : Nat := 0x1000

/-- Is a bus address in the window at P_BASE? (rules R80, R94) -/
def State.inWindow (s : State) (addr : Nat) : Bool :=
  decide (s.params.pBase ≤ addr) && decide (addr < s.params.pBase + windowBytes)

/-- What an access of a given size at a window offset reaches. -/
inductive Target where
  | register (r : Reg)
  | buffer (off : Nat)
  | rejected
  deriving DecidableEq, Repr

/-- Which accesses MBCODEC accepts: registers 4 bytes wide at their offsets (rule R83), buffers 1, 2 or 4
bytes wide and naturally aligned (rule R84), nothing else (rule R86). -/
def targetOf (off : Nat) (size : AccessSize) : Target :=
  if off < 0x058 then
    match size, regAt off with
    | .four, some r => .register r
    | _, _ => .rejected
  else if 0x100 ≤ off ∧ off < 0x400 ∧ off % sizeBytes size = 0 then .buffer off
  else .rejected

/-- The result of a buffer read: the byte at `off + k` in data bits [8k+7:8k] (rule R81), every data bit
above the access 0 (DESIGN CHOICE, log entry 8). -/
def State.readBuffer (s : State) (off : Nat) (size : AccessSize) : Word :=
  BitVec.ofNat 32 (leNat (s.bytes off (sizeBytes size)))

/-- A buffer write: data bits [8k+7:8k] to the byte at `off + k` (rules R81, R89). -/
def State.writeBuffer (s : State) (off : Nat) (size : AccessSize) (v : Word) : State :=
  s.setBytes off (leBytes (sizeBytes size) v.toNat)

/-- The start of every command, legal or not: LAST_OP takes bits [7:0] of the word (rule R110). -/
def State.startCommand (s : State) (w : Word) : State := { s with lastOp := opField w }

/-- Run the command a word encodes (rules R32, R110); an illegal word changes STATUS only (rule R121). -/
def runCommand (w : Word) (s : State) : Out :=
  match decodeWord w with
  | .instr i => exec i (s.startCommand w)
  | .illegal _ => .next ((s.startCommand w).finish .illegalCommand)

/-- Answer the host: the access has completed. -/
def State.respond (s : State) (r : BusResponse) : State := { s with response := r }

/-- A write to a register: to CMD it runs a command, and completes when the command has completed
(rules R32, R90). -/
def writeRegister (r : Reg) (v : Word) (s : State) : Out :=
  match r with
  | .cmd => mapNext (fun t => t.respond .done) (runCommand v s)
  | _ => .next ((s.writeReg r v).respond .done)

/-- One access in the window, at an offset from P_BASE. -/
def accessOffset (a : BusAccess) (off : Nat) (s : State) : Out :=
  match targetOf off a.size with
  | .rejected => .next (s.raiseBusError a.addr)
  | .register r =>
    match a.op with
    | .read => .next (s.respond (.data (s.readReg r)))
    | .write v => writeRegister r v s
  | .buffer o =>
    match a.op with
    | .read => .next (s.respond (.data (s.readBuffer o a.size)))
    | .write v => .next ((s.writeBuffer o a.size v).respond .done)

/-- One host access (rules R80, R94). -/
def serveAccess (a : BusAccess) (s : State) : Out :=
  if s.inWindow a.addr then accessOffset a (a.addr - s.params.pBase) s
  else .fault (.notAddressed a.addr)

/-- One host event (70_reset_and_hazards.md rule R310): an access cut by a reset has no effect. -/
def serveEvent (e : HostEvent) (s : State) : Out :=
  match e with
  | .access a => serveAccess a s
  | .reset _ => .next s.resetNow

/-- The write to CMD of the command word `w` (30_encoding.md rule R130: `W CMD, <w>`). -/
def cmdWrite (pBase : Nat) (w : Word) : BusAccess :=
  { addr := pBase + regOffset .cmd, size := .four, op := .write w }

end Sys2Proof.Machine
end

