-- ==== Sys2Proof/Machine/Step.lean ====
section
/-! DEFINITION. One step: MBCODEC serves the next host event in arrival order (20_memory.md rules R90,
R91). MBCODEC has no program counter (10_state.md rule R54): its program is the host's accesses. -/

namespace Sys2Proof.Machine

/-- Serve the next event. With no event pending nothing is in flight and nothing changes
(10_state.md rule R57; DESIGN CHOICE of form, log entry 6). -/
def step (s : State) : Host.Outcome State Fault Refusal :=
  match s.pending with
  | [] => .next s
  | e :: rest => serveEvent e { s with pending := rest }

/-- `s` with a write of an instruction's word to CMD as the next host event, so that the next step runs
that instruction (log entry 3). -/
def State.withFetchWord (s : State) (nbits w : Nat) : State :=
  { s with
    pending :=
      .access (cmdWrite s.params.pBase (BitVec.ofNat 32 (w % 2 ^ nbits))) :: s.pending }

end Sys2Proof.Machine
end

