-- ==== Sys2Proof/Machine/Program.lean ====
section
/-! DEFINITION. The host's programs: the lines of 30_encoding.md rules R130 to R132 as sequences of bus
accesses. The lines are modelled as data; their concrete spelling is not (log entry 9). -/

namespace Sys2Proof.Machine

/-- The binary64 registers LOADF sets (rule R132). -/
inductive F64Reg where
  | scale
  | ref
  | span
  deriving DecidableEq, Repr

/-- One line of a program (rules R130, R132). -/
inductive HostLine where
  /-- `W <REG>, <v>` -/
  | writeReg (r : Reg) (v : Word)
  /-- `R <REG>` -/
  | readReg (r : Reg)
  /-- `WB TXBUF[i], <b>` and `WB RXBUF[i], <b>` -/
  | writeByte (buf : BufSel) (i : Nat) (b : Byte)
  /-- `RB TXBUF[i]` and `RB RXBUF[i]` -/
  | readByte (buf : BufSel) (i : Nat)
  /-- `WH WBUF[i], <h>` -/
  | writeHalf (i : Nat) (h : Half)
  /-- `RH WBUF[i]` -/
  | readHalf (i : Nat)
  /-- `<command> <operands>` -/
  | command (i : Instr)
  /-- `WIDE_DOUBLE` -/
  | wideDouble
  /-- `LOADF <NAME>, <bits64>` -/
  | loadF (r : F64Reg) (bits : Wide)
  /-- `BUILD_READ_HOLDING` -/
  | buildReadHolding
  /-- `BUILD_READ_INPUT` -/
  | buildReadInput
  /-- `BUILD_WRITE_SINGLE` -/
  | buildWriteSingle
  deriving DecidableEq, Repr

/-- The low register of a binary64 register (10_state.md rule R31). -/
def loReg : F64Reg → Reg
  | .scale => .scaleLo
  | .ref => .refLo
  | .span => .spanLo

/-- The high register of a binary64 register (10_state.md rule R31). -/
def hiReg : F64Reg → Reg
  | .scale => .scaleHi
  | .ref => .refHi
  | .span => .spanHi

/-- A 4-byte write to a register of the window at `pBase`. -/
def regWrite (pBase : Nat) (r : Reg) (v : Word) : BusAccess :=
  { addr := pBase + regOffset r, size := .four, op := .write v }

/-- A 4-byte read of a register. -/
def regRead (pBase : Nat) (r : Reg) : BusAccess :=
  { addr := pBase + regOffset r, size := .four, op := .read }

/-- The accesses a line stands for (rules R130 to R132). -/
def assembleLine (pBase : Nat) : HostLine → List BusAccess
  | .writeReg r v => [regWrite pBase r v]
  | .readReg r => [regRead pBase r]
  | .writeByte buf i b => [⟨pBase + bufOffset buf i, .one, .write (b.setWidth 32)⟩]
  | .readByte buf i => [⟨pBase + bufOffset buf i, .one, .read⟩]
  | .writeHalf i h => [⟨pBase + wbufOffset i, .two, .write (h.setWidth 32)⟩]
  | .readHalf i => [⟨pBase + wbufOffset i, .two, .read⟩]
  | .command i => [cmdWrite pBase (encode i)]
  | .wideDouble => [cmdWrite pBase (encode (.decode .float64 .bigEndian))]
  | .loadF r bits => [regWrite pBase (loReg r) (loHalf bits), regWrite pBase (hiReg r) (hiHalf bits)]
  | .buildReadHolding => [regWrite pBase .func 0x03, cmdWrite pBase (encode .buildRead)]
  | .buildReadInput => [regWrite pBase .func 0x04, cmdWrite pBase (encode .buildRead)]
  | .buildWriteSingle => [regWrite pBase .func 0x06, cmdWrite pBase (encode .buildRead)]

/-- The accesses of a program, in order. -/
def assemble (pBase : Nat) : List HostLine → List BusAccess
  | [] => []
  | l :: ls => assembleLine pBase l ++ assemble pBase ls

/-- A machine about to serve a program, with nothing else pending. -/
def State.loadProgram (s : State) (p : List HostLine) : State :=
  { s with pending := (assemble s.params.pBase p).map .access }

end Sys2Proof.Machine
end

