-- ==== Sys2Proof/Machine/Tokens.lean ====
section
/-! DEFINITION. Compound descriptor tokens, a host-side function (43_decode.md rules R230 to R233). -/

namespace Sys2Proof.Machine

/-- The seven type names (rule R230). -/
def typeNames : List (String × PrimType) :=
  [("UINT16", .uint16), ("INT16", .int16), ("UINT32", .uint32), ("INT32", .int32),
    ("FLOAT32", .float32), ("FLOAT64", .float64), ("HEX", .hex)]

/-- `resolve(tok, ord)` (rule R230): a token of the table brings its own order, a type name takes the
configured one, and anything else is INVALID_ARGUMENT (none). Matching is exact and case-sensitive. -/
def resolveToken (table : TokenTable) (tok : String) (ord : ByteOrder) :
    Option (PrimType × ByteOrder) :=
  match table.find? (fun e => e.1 == tok) with
  | some e => some e.2
  | none => (typeNames.find? (fun e => e.1 == tok)).map (fun e => (e.2, ord))

/-- The decode descriptor the host configures by token on this implementation. -/
def State.resolve (s : State) (tok : String) (ord : ByteOrder) : Option (PrimType × ByteOrder) :=
  resolveToken s.params.tokenTable tok ord

/-- The digits after the underscore of a token (rule R231). -/
def suffixDigits (tok : String) : List Nat :=
  ((tok.toList.dropWhile (fun c => c != '_')).drop 1).map (fun c => c.toNat - '0'.toNat)

/-- The wire bytes of four words, first byte first: positions 1..8 of rule R231. -/
def wireBytes (w0 w1 w2 w3 : Half) : List Byte :=
  bigEndian16 w0 ++ bigEndian16 w1 ++ bigEndian16 w2 ++ bigEndian16 w3

/-- Byte number `d` of an `n`-byte value, 1 being the most significant (rule R231). -/
def valueByte (n : Nat) (v : Wide) (d : Nat) : Byte := v.extractLsb' (8 * (n - d)) 8

end Sys2Proof.Machine
end

