-- ==== Sys2Proof/Safety.lean ====
section
/-! DEFINITION. What counts as a safe run, and the terms the claims are stated in. -/

namespace Sys2Proof.Safety

open Sys2Proof.Machine

/-- Every listed buffer byte lies in TXBUF, RXBUF or WBUF (10_state.md rule R31). -/
def inBuffers (m : Memory) : Prop := ∀ c ∈ m, 0x100 ≤ c.1 ∧ c.1 < 0x400

/-- What every step keeps, from any state that has it. -/
structure StateInv (s : State) : Prop where
  /-- The buffer memory has its canonical form. -/
  memCanonical : Memory.wf s.mem = true
  /-- It lists buffer bytes only (rule R30). -/
  memInBuffers : inBuffers s.mem
  /-- The parameters are ones rule R7 allows. -/
  paramsLegal : s.params.wf = true
  /-- TXLEN is the length of a frame that fits TXBUF (rules R40, R49). -/
  txlenFits : s.txlen.toNat ≤ 256
  /-- BYTECOUNT is even and at most 250 (42_frame.md rules R182, R186). -/
  bytecountEven : s.bytecount.toNat % 2 = 0 ∧ s.bytecount.toNat ≤ 250
  /-- RESULT is NONE only before the first command, and LAST_OP is 0 then (rules R33, R58). -/
  noneMeansNoCommand : s.result = .none → s.lastOp = 0x00
  /-- SCALED holds no NaN but the canonical one (43_decode.md rule R215). -/
  scaledNaNCanonical : Float64.isNaN s.scaled = true → s.scaled = 0x7FF8000000000000

/-- A run of `n` steps is safe when no step of it faults or is refused and no access of it gets a bus
error. -/
def SafeRun : Nat → State → Prop
  | 0, _ => True
  | n + 1, s => ∃ t, step s = .next t ∧ (∀ a, t.response ≠ .busError a) ∧ SafeRun n t

/-- The offsets of `n` buffer bytes from `a` on. -/
def offsetsFrom (a n : Nat) : List Nat := (List.range n).map (fun k => a + k)

/-- The buffer bytes a command may read in a state (70_reset_and_hazards.md rule R312); none where the
command ends before it reads a buffer. -/
def commandReads (i : Instr) (s : State) : List Nat :=
  match i with
  | .nop => []
  | .crcInit => []
  | .crcFeed _ => []
  | .crcCompute buf len => if len ≤ 256 then offsetsFrom (bufOffset buf 0) len else []
  | .crcVerify buf len => if len ≤ 256 then offsetsFrom (bufOffset buf 0) len else []
  | .buildRead => []
  | .buildWriteMultiple => if s.qty.toNat ≤ 127 then offsetsFrom 0x300 (2 * s.qty.toNat) else []
  | .parseRead =>
    if 5 ≤ s.rxlen.toNat ∧ s.rxlen.toNat ≤ 256 then offsetsFrom 0x200 s.rxlen.toNat else []
  | .parseWrite =>
    if 5 ≤ s.rxlen.toNat ∧ s.rxlen.toNat ≤ 256 then offsetsFrom 0x200 s.rxlen.toNat else []
  | .decode t _ =>
    if wordsNeeded t ≤ s.wcount.toNat then offsetsFrom 0x300 (2 * wordsNeeded t) else []
  | .decodeIntfrac n _ _ =>
    if intWordCount n + 2 ≤ s.wcount.toNat then offsetsFrom 0x300 (2 * (intWordCount n + 2)) else []
  | .levelPct _ _ => []

/-- Every buffer byte the command may read has been written since reset, so that no free value enters
its result (rules R59, R312). -/
def Initialised (i : Instr) (s : State) : Prop :=
  ∀ a ∈ commandReads i s, Memory.get? s.mem a ≠ none

/-- The result codes of a command (60_exceptions.md rule R281). -/
def listedResults : Instr → List ResultCode
  | .nop => [.success]
  | .crcInit => [.success]
  | .crcFeed _ => [.success]
  | .crcCompute _ _ => [.success, .invalidArgument]
  | .crcVerify _ _ => [.success, .invalidCrc, .invalidArgument]
  | .buildRead => [.success]
  | .buildWriteMultiple => [.success, .invalidArgument]
  | .parseRead =>
    [.success, .timeout, .invalidCrc, .protocolException, .malformedResponse, .invalidArgument]
  | .parseWrite =>
    [.success, .timeout, .invalidCrc, .protocolException, .malformedResponse, .invalidArgument]
  | .decode _ _ => [.success, .invalidArgument]
  | .decodeIntfrac _ _ _ => [.success, .invalidArgument]
  | .levelPct _ _ => [.success, .invalidArgument]

/-- The offset column of the register map (10_state.md rule R31), written a second time so that claims
about register accesses do not go through the bus's own map. -/
def specOffset : Reg → Nat
  | .cmd => 0x000
  | .status => 0x004
  | .excCode => 0x008
  | .crc => 0x00C
  | .slave => 0x010
  | .func => 0x014
  | .addr => 0x018
  | .qty => 0x01C
  | .txlen => 0x020
  | .rxlen => 0x024
  | .bytecount => 0x028
  | .wcount => 0x02C
  | .scaleLo => 0x030
  | .scaleHi => 0x034
  | .rawLo => 0x038
  | .rawHi => 0x03C
  | .scaledLo => 0x040
  | .scaledHi => 0x044
  | .refLo => 0x048
  | .refHi => 0x04C
  | .spanLo => 0x050
  | .spanHi => 0x054

/-- The read-only registers (20_memory.md rule R85). -/
def readOnlyRegs : List Reg :=
  [.status, .excCode, .txlen, .bytecount, .rawLo, .rawHi, .scaledLo, .scaledHi]

/-- The field bits of a register (10_state.md rule R31), as a mask. -/
def fieldMask : Reg → Word
  | .cmd => 0xFFFFFFFF
  | .status => 0x0000FF07
  | .excCode => 0x000000FF
  | .crc => 0x0000FFFF
  | .slave => 0x000000FF
  | .func => 0x000000FF
  | .addr => 0x0000FFFF
  | .qty => 0x0000FFFF
  | .txlen => 0x000001FF
  | .rxlen => 0x000001FF
  | .bytecount => 0x000000FF
  | .wcount => 0x000000FF
  | .scaleLo => 0xFFFFFFFF
  | .scaleHi => 0xFFFFFFFF
  | .rawLo => 0xFFFFFFFF
  | .rawHi => 0xFFFFFFFF
  | .scaledLo => 0xFFFFFFFF
  | .scaledHi => 0xFFFFFFFF
  | .refLo => 0xFFFFFFFF
  | .refHi => 0xFFFFFFFF
  | .spanLo => 0xFFFFFFFF
  | .spanHi => 0xFFFFFFFF

/-- The match and mask columns of the opcode map (30_encoding.md rule R114), written a second time so
that claims about the decoder do not go through the decoder's own table. -/
def specRows : List (Word × Word) :=
  [(0x00000000, 0xFFFFFFFF), (0x00000001, 0xFFFFFFFF), (0x00000002, 0xFFFF00FF),
    (0x00000003, 0xFE00FEFF), (0x00000004, 0xFE00FEFF), (0x00000010, 0xFFFFFFFF),
    (0x00000011, 0xFFFFFFFF), (0x00000020, 0xFFFFFFFF), (0x00000021, 0xFFFFFFFF),
    (0x00000030, 0xFFFFC8FF), (0x00000031, 0xFFFF0EFF), (0x00000032, 0xFFFFFCFF)]

/-- A binary64 pattern that is a NaN: exponent field 2047, fraction field not 0. -/
def nanPattern (x : Wide) : Prop :=
  (x.extractLsb' 52 11).toNat = 2047 ∧ (x.extractLsb' 0 52).toNat ≠ 0

/-- `bswap16` on numbers (00_scope.md rule R10). -/
def swapped (w : Half) : Nat := (w.toNat % 256) * 256 + w.toNat / 256

/-- `compose32` on numbers (43_decode.md rule R213). -/
def composed32 (o : ByteOrder) (w0 w1 : Half) : Nat :=
  match o with
  | .bigEndian => w0.toNat * 2 ^ 16 + w1.toNat
  | .littleEndian => w1.toNat * 2 ^ 16 + w0.toNat
  | .mixedBadc => swapped w0 * 2 ^ 16 + swapped w1
  | .mixedDcba => swapped w1 * 2 ^ 16 + swapped w0

/-- `compose64` on numbers, for the orders FLOAT64 supports (rule R214). -/
def composed64 (o : ByteOrder) (w0 w1 w2 w3 : Half) : Nat :=
  match o with
  | .bigEndian => ((w0.toNat * 2 ^ 16 + w1.toNat) * 2 ^ 16 + w2.toNat) * 2 ^ 16 + w3.toNat
  | .littleEndian => ((w3.toNat * 2 ^ 16 + w2.toNat) * 2 ^ 16 + w1.toNat) * 2 ^ 16 + w0.toNat
  | .mixedBadc => ((swapped w0 * 2 ^ 16 + swapped w1) * 2 ^ 16 + swapped w2) * 2 ^ 16 + swapped w3
  | .mixedDcba => 0

/-- RAW of a decode, as a number (rules R212 to R214, R218, R220). -/
def rawNumber (t : PrimType) (o : ByteOrder) (w0 w1 w2 w3 : Half) : Nat :=
  match t with
  | .uint16 => w0.toNat
  | .int16 => w0.toNat
  | .uint32 => composed32 o w0 w1
  | .int32 => composed32 o w0 w1
  | .float32 => composed32 o w0 w1
  | .float64 => composed64 o w0 w1 w2 w3
  | .hex => w0.toNat * 2 ^ 16 + w1.toNat

/-- `signed_N(v)` (00_scope.md rule R10). -/
def signedNumber (bits v : Nat) : Int := if v < 2 ^ (bits - 1) then (v : Int) else (v : Int) - 2 ^ bits

/-- `interpret(type, v)` (43_decode.md rule R217) of the pattern with number `v`. -/
def interpreted (t : PrimType) (v : Nat) : Wide :=
  match t with
  | .uint16 => Float64.ofInt v
  | .int16 => Float64.ofInt (signedNumber 16 v)
  | .uint32 => Float64.ofInt v
  | .int32 => Float64.ofInt (signedNumber 32 v)
  | .float32 => Float64.widen (BitVec.ofNat 32 v)
  | .float64 => BitVec.ofNat 64 v
  | .hex => Float64.ofInt v

/-- The words a type needs (rule R211). -/
def need : PrimType → Nat
  | .uint16 => 1
  | .int16 => 1
  | .uint32 => 2
  | .int32 => 2
  | .float32 => 2
  | .float64 => 4
  | .hex => 2

/-- The three entries marked "no" in the support matrix (rule R211). -/
def unsupported (t : PrimType) (o : ByteOrder) : Prop :=
  (t = .float32 ∧ (o = .mixedBadc ∨ o = .mixedDcba)) ∨ (t = .float64 ∧ o = .mixedDcba)

/-- `RXBUF[0..n)`. -/
def rxFrame (s : State) (n : Nat) : List Byte := (List.range n).map (fun i => s.rxbuf i)

/-- A received frame carries a valid CRC (41_crc.md rule R147). -/
def validFrame (s : State) (n : Nat) : Prop :=
  3 ≤ n ∧ crc16 (rxFrame s (n - 2)) = s.rxbuf (n - 1) ++ s.rxbuf (n - 2)

/-- The received frame is an exception response (42_frame.md rule R184). -/
def exceptionBit (s : State) : Prop := (s.rxbuf 1).getLsbD 7 = true

end Sys2Proof.Safety
end

