-- ==== Sys2Proof/Certificates/Slice0/Obligations.lean ====
section
/-! DEFINITION. The statements for the provers, by the spec's files. -/

open Sys2Proof Sys2Proof.Machine Sys2Proof.Safety

/-! 30_encoding.md -/

/-- Decoding the word of any encodable command gives the command back, with every operand at every value
(rules R111 to R115, R131). -/
def Obligations.DecodeOfEncodeIsTheCommand : Prop :=
  ∀ i : Instr, i.wf = true → decodeWord (encode i) = .instr i

/-- A word that decodes is the encoding of what it decodes to, so no bit of a legal word is ignored
(rules R111, R131). -/
def Obligations.EncodeOfDecodeIsTheWord : Prop :=
  ∀ (w : Word) (i : Instr), decodeWord w = .instr i → encode i = w ∧ i.wf = true

/-- Rule R121: which words are illegal, and what writing one to CMD does. -/
def Obligations.IllegalWordsChangeStatusOnly : Prop :=
  ∀ (w : Word) (s : State) (rest : List HostEvent),
    s.pending = .access (cmdWrite s.params.pBase w) :: rest →
    let illegal := (∀ row ∈ specRows, w &&& row.2 ≠ row.1)
      ∨ (w.extractLsb' 0 8 = 0x30 ∧ w.extractLsb' 8 3 = 7)
    (illegal →
      step s = .next { s with
        pending := rest, lastOp := w.extractLsb' 0 8, result := .illegalCommand, response := .done })
    ∧ (¬ illegal → ∃ i, decodeWord w = .instr i)

/-- The decoder's table has the match and mask columns of rule R114; at most one of its rows matches a
word, the decoder reads the operand fields of that row, and a word that no row matches is illegal
(rules R110, R114, R116, R121). -/
def Obligations.AtMostOneRowMatches : Prop :=
  opcodeTable.map (fun r => (r.matchBits, r.mask)) = specRows
  ∧ ∀ w : Word,
    (∀ r ∈ opcodeTable, w &&& r.mask = r.matchBits →
      (∀ q ∈ opcodeTable, w &&& q.mask = q.matchBits → q = r)
      ∧ rowOf w = some r ∧ decodeWord w = decodeFields r.op w)
    ∧ ((∀ r ∈ opcodeTable, w &&& r.mask ≠ r.matchBits) → ∃ e, decodeWord w = .illegal e)

/-- The words of rule R131's examples, of rule R132 and of the opcode map decode to the commands they
stand for. -/
def Obligations.WordsOfTheSpecDecode : Prop :=
  decodeWord 0x00000000 = .instr .nop
  ∧ decodeWord 0x00000001 = .instr .crcInit
  ∧ decodeWord 0x00000102 = .instr (.crcFeed 0x01)
  ∧ decodeWord 0x00060103 = .instr (.crcCompute .rx 6)
  ∧ decodeWord 0x00080004 = .instr (.crcVerify .tx 8)
  ∧ decodeWord 0x00000010 = .instr .buildRead
  ∧ decodeWord 0x00000011 = .instr .buildWriteMultiple
  ∧ decodeWord 0x00000020 = .instr .parseRead
  ∧ decodeWord 0x00000021 = .instr .parseWrite
  ∧ decodeWord 0x00000430 = .instr (.decode .float32 .bigEndian)
  ∧ decodeWord 0x00001230 = .instr (.decode .uint32 .littleEndian)
  ∧ decodeWord 0x00000530 = .instr (.decode .float64 .bigEndian)
  ∧ decodeWord 0x00004131 = .instr (.decodeIntfrac .two .bigEndian .littleEndian)
  ∧ decodeWord 0x00000332 = .instr (.levelPct .referenced true)

/-! 10_state.md rule R32, 20_memory.md and 60_exceptions.md: the bus -/

/-- A step that meets a write of a command word to CMD runs the command it decodes to, with LAST_OP set
before and the write's completion reported after (rules R32, R90, R110); so does the step after
`withFetchWord`. -/
def Obligations.StepRunsTheDecodedCommand : Prop :=
  (∀ (s t : State) (rest : List HostEvent) (w : Word) (i : Instr),
    s.pending = .access (cmdWrite s.params.pBase w) :: rest →
    decodeWord w = .instr i →
    exec i { s with pending := rest, lastOp := w.extractLsb' 0 8 } = .next t →
    step s = .next { t with response := .done })
  ∧ (∀ (s t : State) (w : Nat) (i : Instr),
    w < 2 ^ 32 →
    decodeTableWord 32 w = some i →
    exec i { s with lastOp := BitVec.ofNat 8 w } = .next t →
    step (s.withFetchWord 32 w) = .next { t with response := .done })

/-- Every command completes, with a result code that rule R281 lists for it: no command traps
(rules R280, R281). -/
def Obligations.EveryCommandEndsInAListedResult : Prop :=
  ∀ (i : Instr) (s : State), ∃ t, exec i s = .next t ∧ t.result ∈ listedResults i

/-- Rules R83, R84 and R86: an access of the window that is not accepted gets an error response and
changes nothing; every other one completes (how the answer is recorded is the model's form, log entry 5). An aligned buffer access stays in its buffer. -/
def Obligations.UnacceptedAccessIsABusError : Prop :=
  ∀ (s : State) (a : BusAccess) (off : Nat) (rest : List HostEvent),
    s.pending = .access a :: rest → a.addr = s.params.pBase + off → off < 0x1000 →
    let n := match a.size with | .one => 1 | .two => 2 | .four => 4
    let unaccepted := (off < 0x058 ∧ ¬ (n = 4 ∧ off % 4 = 0)) ∨ (0x058 ≤ off ∧ off < 0x100)
      ∨ (0x100 ≤ off ∧ off < 0x400 ∧ off % n ≠ 0) ∨ 0x400 ≤ off
    (unaccepted → step s = .next { s with pending := rest, response := .busError a.addr })
    ∧ (¬ unaccepted → ∃ t, step s = .next t ∧ ∀ e, t.response ≠ .busError e)
    ∧ (¬ unaccepted → 0x100 ≤ off → off / 0x100 = (off + n - 1) / 0x100)

/-- A read changes nothing, whatever it reads and however it is answered (rule R87). -/
def Obligations.ReadsNeverChangeState : Prop :=
  ∀ (s t : State) (a : BusAccess) (rest : List HostEvent),
    s.pending = .access a :: rest → a.op = .read → step s = .next t →
    t = { s with pending := rest, response := t.response }

/-- A 4-byte read at the offset rule R31 gives each register returns its fields, every other bit 0, with
the number rule R33 gives each result code in STATUS; CMD reads 0 (rules R31, R33, R53, R85). -/
def Obligations.RegisterReadsReturnTheFields : Prop :=
  ∀ (s : State) (r : Reg) (rest : List HostEvent),
    s.pending = .access ⟨s.params.pBase + specOffset r, .four, .read⟩ :: rest →
    step s = .next { s with pending := rest, response := .data (s.readReg r) }
      ∧ (s.readReg r).toNat = match r with
        | .cmd => 0
        | .status => s.lastOp.toNat * 256 + (match s.result with
            | .none => 0
            | .success => 1
            | .timeout => 2
            | .invalidCrc => 3
            | .protocolException => 4
            | .malformedResponse => 5
            | .invalidArgument => 6
            | .illegalCommand => 7)
        | .excCode => s.excCode.toNat
        | .crc => s.crc.toNat
        | .slave => s.slave.toNat
        | .func => s.func.toNat
        | .addr => s.addr.toNat
        | .qty => s.qty.toNat
        | .txlen => s.txlen.toNat
        | .rxlen => s.rxlen.toNat
        | .bytecount => s.bytecount.toNat
        | .wcount => s.wcount.toNat
        | .scaleLo => s.scale.toNat % 2 ^ 32
        | .scaleHi => s.scale.toNat / 2 ^ 32
        | .rawLo => s.raw.toNat % 2 ^ 32
        | .rawHi => s.raw.toNat / 2 ^ 32
        | .scaledLo => s.scaled.toNat % 2 ^ 32
        | .scaledHi => s.scaled.toNat / 2 ^ 32
        | .refLo => s.ref.toNat % 2 ^ 32
        | .refHi => s.ref.toNat / 2 ^ 32
        | .spanLo => s.span.toNat % 2 ^ 32
        | .spanHi => s.span.toNat / 2 ^ 32

/-- Rule R85, at the offsets of rule R31: a write to a read-only register completes and changes nothing; a
write to a read-write register stores its field bits, the other bits then read as 0; a read of CMD
returns 0. No other register and no buffer byte changes. -/
def Obligations.RegisterWritesStoreTheFieldBits : Prop :=
  ∀ (s : State) (r : Reg) (v : Word) (rest : List HostEvent),
    (s.pending = .access ⟨s.params.pBase + specOffset r, .four, .write v⟩
        :: .access ⟨s.params.pBase + specOffset r, .four, .read⟩ :: rest →
      r ≠ .cmd →
      ∃ t u, step s = .next t ∧ t.response = .done ∧ step t = .next u
        ∧ u.response = .data (if r ∈ readOnlyRegs then s.readReg r else v &&& fieldMask r)
        ∧ (∀ q, q ≠ r → u.readReg q = s.readReg q)
        ∧ u.mem = s.mem ∧ u.epoch = s.epoch ∧ u.params = s.params ∧ u.pending = rest
        ∧ (r ∈ readOnlyRegs →
          t = { s with
            pending := .access ⟨s.params.pBase + specOffset r, .four, .read⟩ :: rest
            response := .done }))
    ∧ (s.pending = .access ⟨s.params.pBase + 0x000, .four, .read⟩ :: rest →
      step s = .next { s with pending := rest, response := .data 0 })

/-- LOADF writes the low half and then the high half of its register: after the first access the register
holds the new low half beside its old high half, after the second the whole value; nothing else changes
(rules R52, R132). -/
def Obligations.LoadFSetsTheRegisterByHalves : Prop :=
  ∀ (s : State) (r : F64Reg) (bits : Wide),
    let value : F64Reg → State → Wide := fun q u => match q with
      | .scale => u.scale
      | .ref => u.ref
      | .span => u.span
    (∃ t, Host.Core.run core 1 (s.loadProgram [.loadF r bits]) = .next t
      ∧ value r t = (value r s).extractLsb' 32 32 ++ bits.extractLsb' 0 32)
    ∧ ∃ t, Host.Core.run core 2 (s.loadProgram [.loadF r bits]) = .next t
      ∧ value r t = bits ∧ (∀ q, q ≠ r → value q t = value q s)
      ∧ t = { s with
          scale := t.scale, ref := t.ref, span := t.span, pending := [], response := .done }

/-- A buffer write puts data bits [8k+7:8k] in the byte at `off + k` and changes no other byte and no
register (rules R81, R84, R89). -/
def Obligations.BufferWriteReachesExactlyItsBytes : Prop :=
  ∀ (s : State) (off : Nat) (size : AccessSize) (v : Word) (rest : List HostEvent),
    s.pending = .access ⟨s.params.pBase + off, size, .write v⟩ :: rest →
    0x100 ≤ off → off < 0x400 → off % sizeBytes size = 0 →
    ∃ t, step s = .next t
      ∧ (∀ k, k < sizeBytes size → t.byte (off + k) = v.extractLsb' (8 * k) 8)
      ∧ (∀ b, ¬ (off ≤ b ∧ b < off + sizeBytes size) → t.byte b = s.byte b)
      ∧ t = { s with mem := t.mem, pending := rest, response := .done }

/-- A buffer read carries the byte at `off + k` in data bits [8k+7:8k]; TXBUF[i] is read at 0x100 + i,
RXBUF[i] at 0x200 + i and WBUF[i] at 0x300 + 2i, and a 4-byte read of WBUF returns two words, the first
one in the low half (rules R49, R50, R51, R81). That the data bits above a 1- or 2-byte read are 0 is the
model's choice (log entry 8). -/
def Obligations.BufferReadCarriesItsBytes : Prop :=
  (∀ i, txOffset i = 0x100 + i ∧ rxOffset i = 0x200 + i ∧ wbufOffset i = 0x300 + 2 * i
    ∧ bufOffset .tx i = 0x100 + i ∧ bufOffset .rx i = 0x200 + i)
  ∧ ∀ (s : State) (off : Nat) (size : AccessSize) (rest : List HostEvent),
    s.pending = .access ⟨s.params.pBase + off, size, .read⟩ :: rest →
    0x100 ≤ off → off < 0x400 →
    off % (match size with | .one => 1 | .two => 2 | .four => 4) = 0 →
    ∃ v : Word, step s = .next { s with pending := rest, response := .data v }
      ∧ (∀ k, k < sizeBytes size → v.extractLsb' (8 * k) 8 = s.byte (off + k))
      ∧ v.toNat < 2 ^ (8 * sizeBytes size)
      ∧ (∀ i, i < 256 → off = 0x100 + i → size = .one → v.extractLsb' 0 8 = s.txbuf i)
      ∧ (∀ i, i < 256 → off = 0x200 + i → size = .one → v.extractLsb' 0 8 = s.rxbuf i)
      ∧ (∀ i, i < 128 → off = 0x300 + 2 * i → size = .two → v.extractLsb' 0 16 = s.wbuf i)
      ∧ (∀ k, k < 64 → off = 0x300 + 4 * k → size = .four →
        v = s.wbuf (2 * k + 1) ++ s.wbuf (2 * k))

/-- An access outside the window is not MBCODEC's and stops the model by name (rule R80; the stop is the
model's choice, log entry 4). -/
def Obligations.AccessOutsideTheWindowFaults : Prop :=
  ∀ (s : State) (a : BusAccess) (rest : List HostEvent),
    s.pending = .access a :: rest →
    a.addr < s.params.pBase ∨ s.params.pBase + 0x1000 ≤ a.addr →
    step s = .fault (.notAddressed a.addr)

/-- Events are served one at a time in arrival order, and what they do does not depend on what arrives
later (rule R91). -/
def Obligations.EventsAreServedInArrivalOrder : Prop :=
  ∀ (s t : State) (es fs : List HostEvent),
    Host.Core.run core es.length { s with pending := es } = .next t →
    t.pending = [] ∧
    Host.Core.run core es.length { s with pending := es ++ fs } = .next { t with pending := fs }

/-! 10_state.md rules R58, R59 and 70_reset_and_hazards.md: reset -/

/-- Rule R58: the reset values, at power-on and at every later reset, even one that cuts an access. No
buffer byte is known after it, and the parameters stay (rules R59, R310, R311). That the reset counter moves
on, so that the bytes read as other unknown values, is the model's form (log entry 1); that a reset is an
event which may cut an access and keeps the events after it is the model's reading (log entry 7). -/
def Obligations.ResetGivesTheListedState : Prop :=
  ∀ (s : State) (cut : Option BusAccess) (rest : List HostEvent),
    s.pending = .reset cut :: rest →
    ∃ t, step s = .next t ∧ t.params = s.params ∧ t.pending = rest ∧ t.epoch ≠ s.epoch
      ∧ ∀ u ∈ [t, State.reset],
        statusWord u = 0x00000000 ∧ u.result = .none ∧ u.lastOp = 0x00
        ∧ u.crc = 0xFFFF ∧ u.scale = 0x3FF0000000000000
        ∧ u.excCode = 0 ∧ u.slave = 0 ∧ u.func = 0 ∧ u.addr = 0 ∧ u.qty = 0 ∧ u.txlen = 0
        ∧ u.rxlen = 0 ∧ u.bytecount = 0 ∧ u.wcount = 0 ∧ u.raw = 0 ∧ u.scaled = 0 ∧ u.ref = 0
        ∧ u.span = 0 ∧ ∀ b, Memory.get? u.mem b = none

/-! 41_crc.md -/

/-- Rule R145: NOP reports success and does nothing else. -/
def Obligations.NopReportsSuccess : Prop :=
  ∀ s : State, exec .nop s = .next { s with result := .success }

/-- Rule R142: CRC_INIT. -/
def Obligations.CrcInitLoadsTheInitialValue : Prop :=
  ∀ s : State, exec .crcInit s = .next { s with crc := 0xFFFF, result := .success }

/-- Rule R140, as CRC_FEED runs it over the accumulator: eight shifts with a conditional XOR; nothing else
changes (rule R143's command). -/
def Obligations.CrcFeedRunsEightShifts : Prop :=
  ∀ (s : State) (b : Byte),
    exec (.crcFeed b) s = .next { s with
      crc := BitVec.ofNat 16 ((List.range 8).foldl
        (fun c _ => if c % 2 = 1 then (c / 2) ^^^ 0xA001 else c / 2) (s.crc.toNat ^^^ b.toNat))
      result := .success }

/-- Rule R144: CRC_COMPUTE over the first LEN bytes of the selected buffer, or INVALID_ARGUMENT. -/
def Obligations.CrcComputeCoversTheBuffer : Prop :=
  ∀ (s : State) (buf : BufSel) (len : Nat),
    exec (.crcCompute buf len) s = .next
      (if len ≤ 256 then
        { s with
          crc := crc16 ((List.range len).map (fun i => s.byte (bufOffset buf i)))
          result := .success }
      else { s with result := .invalidArgument })

/-- Rule R146: CRC_VERIFY compares the CRC of all but the last two bytes with them, low byte first, and
changes STATUS only. -/
def Obligations.CrcVerifyComparesTheTrailer : Prop :=
  ∀ (s : State) (buf : BufSel) (len : Nat),
    let b := fun i => s.byte (bufOffset buf i)
    (256 < len → exec (.crcVerify buf len) s = .next { s with result := .invalidArgument })
    ∧ (len ≤ 256 →
      (3 ≤ len ∧ crc16 ((List.range (len - 2)).map b) = b (len - 1) ++ b (len - 2) →
        exec (.crcVerify buf len) s = .next { s with result := .success })
      ∧ (¬ (3 ≤ len ∧ crc16 ((List.range (len - 2)).map b) = b (len - 1) ++ b (len - 2)) →
        exec (.crcVerify buf len) s = .next { s with result := .invalidCrc }))

/-- After CRC_INIT and a CRC_FEED of each byte of a list, written to CMD one after another, CRC holds
`crc16` of the list and nothing but CRC and STATUS has changed (rule R143). -/
def Obligations.FeedingAStreamComputesItsCrc : Prop :=
  ∀ (s : State) (bs : List Byte),
    ∃ t, Host.Core.run core (bs.length + 1)
        (s.loadProgram (.command .crcInit :: bs.map (fun b => .command (.crcFeed b)))) = .next t
      ∧ t = { s with
          crc := crc16 bs
          result := .success
          lastOp := if bs = [] then 0x01 else 0x02
          pending := []
          response := .done }

/-- Rule R150: the CRC over a body with its CRC appended is 0, and `verify` is the length test and the
comparison. -/
def Obligations.AppendedCrcLeavesZeroResidue : Prop :=
  (∀ b : List Byte,
    crc16 (b ++ [(crc16 b).extractLsb' 0 8, (crc16 b).extractLsb' 8 8]) = 0x0000)
  ∧ (∀ f : List Byte, verify f = true ↔
    3 ≤ f.length ∧
      ∃ hi lo, f[f.length - 1]? = some hi ∧ f[f.length - 2]? = some lo
        ∧ crc16 (f.take (f.length - 2)) = hi ++ lo)

/-- `verify` rejects a valid frame of any length as soon as any one of its bytes is changed. -/
def Obligations.AnyOneByteChangeIsDetected : Prop :=
  ∀ (f : List Byte) (i : Nat) (b : Byte),
    verify f = true → i < f.length → f[i]? ≠ some b → verify (f.set i b) = false

/-- Rule R149: the reference vector. -/
def Obligations.ReferenceVector : Prop :=
  crc16 [0x01, 0x03, 0x00, 0x00, 0x00, 0x02] = 0x0BC4
  ∧ appendCrc [0x01, 0x03, 0x00, 0x00, 0x00, 0x02]
      = [0x01, 0x03, 0x00, 0x00, 0x00, 0x02, 0xC4, 0x0B]
  ∧ verify [0x01, 0x03, 0x00, 0x00, 0x00, 0x02, 0xC4, 0x0B] = true
  ∧ ∀ i b, i < 8 → ([0x01, 0x03, 0x00, 0x00, 0x00, 0x02, 0xC4, 0x0B] : List Byte)[i]? ≠ some b →
      verify (([0x01, 0x03, 0x00, 0x00, 0x00, 0x02, 0xC4, 0x0B] : List Byte).set i b) = false

/-! 42_frame.md -/

/-- Rule R172: BUILD_READ writes the six header bytes, the CRC low byte first, and TXLEN; nothing else
changes. -/
def Obligations.BuildReadWritesTheRequest : Prop :=
  ∀ s : State, ∃ t, exec .buildRead s = .next t
    ∧ t.txbuf 0 = s.slave ∧ t.txbuf 1 = s.func
    ∧ t.txbuf 2 = s.addr.extractLsb' 8 8 ∧ t.txbuf 3 = s.addr.extractLsb' 0 8
    ∧ t.txbuf 4 = s.qty.extractLsb' 8 8 ∧ t.txbuf 5 = s.qty.extractLsb' 0 8
    ∧ t.txbuf 7 ++ t.txbuf 6 = crc16 ((List.range 6).map (fun i => t.txbuf i))
    ∧ (∀ a, ¬ (txOffset 0 ≤ a ∧ a < txOffset 8) → t.byte a = s.byte a)
    ∧ t = { s with mem := t.mem, txlen := 8, result := .success }

/-- Rule R176: BUILD_WRITE_MULTIPLE rejects a count that is zero, above P_MAX_WRITE_REGS or too long for
the buffer, and otherwise writes the request, each value high byte first, and TXLEN. -/
def Obligations.BuildWriteMultipleWritesTheRequest : Prop :=
  ∀ s : State,
    let n := s.qty.toNat
    let rejected := n = 0 ∨ n > s.params.maxWriteRegs ∨ 9 + 2 * n > 256
    (rejected → exec .buildWriteMultiple s = .next { s with result := .invalidArgument })
    ∧ (¬ rejected → ∃ t, exec .buildWriteMultiple s = .next t
      ∧ t.txbuf 0 = s.slave ∧ t.txbuf 1 = 0x10
      ∧ t.txbuf 2 = s.addr.extractLsb' 8 8 ∧ t.txbuf 3 = s.addr.extractLsb' 0 8
      ∧ t.txbuf 4 = s.qty.extractLsb' 8 8 ∧ t.txbuf 5 = s.qty.extractLsb' 0 8
      ∧ (t.txbuf 6).toNat = 2 * n
      ∧ (∀ i, i < n → t.txbuf (7 + 2 * i) ++ t.txbuf (8 + 2 * i) = s.wbuf i)
      ∧ t.txbuf (8 + 2 * n) ++ t.txbuf (7 + 2 * n)
          = crc16 ((List.range (7 + 2 * n)).map (fun i => t.txbuf i))
      ∧ t.txlen.toNat = 9 + 2 * n
      ∧ (∀ a, ¬ (txOffset 0 ≤ a ∧ a < txOffset (9 + 2 * n)) → t.byte a = s.byte a)
      ∧ t = { s with mem := t.mem, txlen := t.txlen, result := .success })

/-- A frame either builder has placed in TXBUF passes CRC_VERIFY over its TXLEN bytes
(rules R146, R148, R172, R176). -/
def Obligations.BuiltFramesVerify : Prop :=
  ∀ (s t : State) (i : Instr),
    i = .buildRead ∨ i = .buildWriteMultiple → exec i s = .next t → t.result = .success →
    exec (.crcVerify .tx t.txlen.toNat) t = .next { t with result := .success }

/-- Rules R180 and R181: the range check and the length classification of both parsers. The write
parser's minimum gives way to rule R191 for a short exception response. -/
def Obligations.ParsersClassifyTheLength : Prop :=
  ∀ s : State,
    let n := s.rxlen.toNat
    (256 < n → exec .parseRead s = .next { s with result := .invalidArgument }
      ∧ exec .parseWrite s = .next { s with result := .invalidArgument })
    ∧ (n = 0 → exec .parseRead s = .next { s with result := .timeout }
      ∧ exec .parseWrite s = .next { s with result := .timeout })
    ∧ (1 ≤ n → n < 5 → exec .parseRead s = .next { s with result := .malformedResponse })
    ∧ (1 ≤ n → n < 8 → ¬ (s.params.wmExcShort = true ∧ 5 ≤ n ∧ exceptionBit s) →
      exec .parseWrite s = .next { s with result := .malformedResponse })

/-- Rules R182 and R185: a valid read response completes in SUCCESS, with its words taken high byte first
into WBUF, BYTECOUNT and WCOUNT; nothing else changes. -/
def Obligations.ParseReadDeliversThePayload : Prop :=
  ∀ s : State,
    let n := s.rxlen.toNat
    let bc := (s.rxbuf 2).toNat
    5 ≤ n → n ≤ 256 → validFrame s n → ¬ exceptionBit s →
    s.rxbuf 0 = s.slave → s.rxbuf 1 = s.func → bc % 2 = 0 → n = bc + 5 →
    ∃ t, exec .parseRead s = .next t
      ∧ (∀ i, i < bc / 2 → t.wbuf i = s.rxbuf (3 + 2 * i) ++ s.rxbuf (4 + 2 * i))
      ∧ t.bytecount = s.rxbuf 2 ∧ t.wcount.toNat = bc / 2
      ∧ (∀ a, ¬ (wbufOffset 0 ≤ a ∧ a < wbufOffset (bc / 2)) → t.byte a = s.byte a)
      ∧ t = { s with
          mem := t.mem, bytecount := t.bytecount, wcount := t.wcount, result := .success }

/-- Rules R182, R183 and R186: a read response with a bad CRC is INVALID_CRC whatever else is wrong with
it; one with a good CRC that is no exception response and mismatches the header, or whose byte count is
odd or differs from its length less 5, is MALFORMED_RESPONSE. Only STATUS changes. -/
def Obligations.ParseReadRejectsBadFrames : Prop :=
  ∀ s : State,
    let n := s.rxlen.toNat
    let bc := (s.rxbuf 2).toNat
    5 ≤ n → n ≤ 256 →
    (¬ validFrame s n → exec .parseRead s = .next { s with result := .invalidCrc })
    ∧ (validFrame s n → ¬ exceptionBit s →
      s.rxbuf 0 ≠ s.slave ∨ s.rxbuf 1 ≠ s.func ∨ bc % 2 = 1 ∨ n ≠ bc + 5 →
      exec .parseRead s = .next { s with result := .malformedResponse })

/-- Rule R184: a response with a good CRC and bit 7 of its second byte set is PROTOCOL_EXCEPTION in both
parsers, whatever its slave byte and function bits; EXC_CODE takes the third byte. -/
def Obligations.ExceptionResponsesAreClassified : Prop :=
  ∀ s : State,
    let n := s.rxlen.toNat
    n ≤ 256 → validFrame s n → exceptionBit s →
    (5 ≤ n → exec .parseRead s
        = .next { s with excCode := s.rxbuf 2, result := .protocolException })
    ∧ (8 ≤ n → exec .parseWrite s
        = .next { s with excCode := s.rxbuf 2, result := .protocolException })

/-- Rule R190: a write echo of exactly 8 bytes that matches the request completes in SUCCESS and changes
nothing but STATUS. -/
def Obligations.ParseWriteAcceptsTheEcho : Prop :=
  ∀ s : State,
    s.rxlen.toNat = 8 → validFrame s 8 → ¬ exceptionBit s →
    s.rxbuf 0 = s.slave → s.rxbuf 1 = s.func →
    s.rxbuf 2 ++ s.rxbuf 3 = s.addr → s.rxbuf 4 ++ s.rxbuf 5 = s.qty →
    exec .parseWrite s = .next { s with result := .success }

/-- Rules R180, R183, R184 and R190, for every write response of at least 8 bytes that is not the exact
echo: a length above 256 is INVALID_ARGUMENT; otherwise a bad CRC is INVALID_CRC; a good CRC with the
exception bit is PROTOCOL_EXCEPTION, and EXC_CODE takes the third byte; any other mismatch of the header, the
echo or the length 8 is MALFORMED_RESPONSE. Nothing else changes. -/
def Obligations.ParseWriteRejectsBadEchoes : Prop :=
  ∀ s : State,
    let n := s.rxlen.toNat
    8 ≤ n →
    (256 < n → exec .parseWrite s = .next { s with result := .invalidArgument })
    ∧ (n ≤ 256 → ¬ validFrame s n → exec .parseWrite s = .next { s with result := .invalidCrc })
    ∧ (n ≤ 256 → validFrame s n → exceptionBit s →
      exec .parseWrite s = .next { s with excCode := s.rxbuf 2, result := .protocolException })
    ∧ (n ≤ 256 → validFrame s n → ¬ exceptionBit s →
      s.rxbuf 0 ≠ s.slave ∨ s.rxbuf 1 ≠ s.func ∨ s.rxbuf 2 ++ s.rxbuf 3 ≠ s.addr
        ∨ s.rxbuf 4 ++ s.rxbuf 5 ≠ s.qty ∨ n ≠ 8 →
      exec .parseWrite s = .next { s with result := .malformedResponse })

/-- Rule R191: what P_WM_EXC_SHORT decides for a write response of 5 to 7 bytes, for both of its values. -/
def Obligations.ShortWriteExceptionsFollowTheParameter : Prop :=
  ∀ s : State,
    let n := s.rxlen.toNat
    5 ≤ n → n < 8 →
    (s.params.wmExcShort = false →
      exec .parseWrite s = .next { s with result := .malformedResponse })
    ∧ (s.params.wmExcShort = true → exceptionBit s →
      (validFrame s n → exec .parseWrite s
          = .next { s with excCode := s.rxbuf 2, result := .protocolException })
      ∧ (¬ validFrame s n → exec .parseWrite s = .next { s with result := .invalidCrc }))

/-- A write-single request built by BUILD_READ and echoed into RXBUF passes PARSE_WRITE under the same
operands, unless its function code has the exception bit (rules R173, R192). -/
def Obligations.WriteSingleEchoIsAccepted : Prop :=
  ∀ s t u : State,
    exec .buildRead s = .next t →
    u.rxlen.toNat = t.txlen.toNat → (∀ i, i < 8 → u.rxbuf i = t.txbuf i) →
    u.slave = s.slave → u.func = s.func → u.addr = s.addr → u.qty = s.qty →
    s.func.getLsbD 7 = false →
    exec .parseWrite u = .next { u with result := .success }

/-- Rule R193, for every command: one that does not end in SUCCESS writes only STATUS, and EXC_CODE on
PROTOCOL_EXCEPTION. -/
def Obligations.FailedCommandsWriteOnlyStatus : Prop :=
  ∀ (i : Instr) (s t : State), exec i s = .next t → t.result ≠ .success →
    t = { s with result := t.result, excCode := t.excCode }
    ∧ (t.result ≠ .protocolException → t.excCode = s.excCode)

/-! 10_state.md: what the commands may write and read -/

/-- No command writes SLAVE, FUNC, ADDR, QTY, RXLEN, SCALE, REF, SPAN or RXBUF (rules R36 to R39, R41, R44,
R47, R48, R50), and none touches LAST_OP after its start, the parameters or the host side. -/
def Obligations.OperandRegistersOtherThanWcountAreNeverWritten : Prop :=
  ∀ (i : Instr) (s t : State), exec i s = .next t →
    t.slave = s.slave ∧ t.func = s.func ∧ t.addr = s.addr ∧ t.qty = s.qty ∧ t.rxlen = s.rxlen
    ∧ t.scale = s.scale ∧ t.ref = s.ref ∧ t.span = s.span
    ∧ (∀ k, k < 256 → t.rxbuf k = s.rxbuf k)
    ∧ t.lastOp = s.lastOp ∧ t.epoch = s.epoch ∧ t.params = s.params ∧ t.pending = s.pending
    ∧ t.response = s.response

/-- Which commands may write each result register and buffer (rules R34, R35, R40, R42, R43, R45, R46, R49,
R51). -/
def Obligations.OnlyTheNamedCommandsWriteEachResult : Prop :=
  ∀ (i : Instr) (s t : State), exec i s = .next t →
    (t.excCode ≠ s.excCode → (i = .parseRead ∨ i = .parseWrite)
      ∧ t.result = .protocolException ∧ t.excCode = s.rxbuf 2)
    ∧ (t.crc ≠ s.crc →
      i = .crcInit ∨ (∃ b, i = .crcFeed b) ∨ ∃ buf len, i = .crcCompute buf len)
    ∧ (t.txlen ≠ s.txlen → i = .buildRead ∨ i = .buildWriteMultiple)
    ∧ (t.bytecount ≠ s.bytecount → i = .parseRead)
    ∧ (t.wcount ≠ s.wcount → i = .parseRead)
    ∧ (t.raw ≠ s.raw → (∃ ty o, i = .decode ty o) ∨ ∃ n io fo, i = .decodeIntfrac n io fo)
    ∧ (t.scaled ≠ s.scaled → (∃ ty o, i = .decode ty o) ∨ (∃ n io fo, i = .decodeIntfrac n io fo)
      ∨ ∃ v c, i = .levelPct v c)
    ∧ (∀ k, k < 256 → t.txbuf k ≠ s.txbuf k → i = .buildRead ∨ i = .buildWriteMultiple)
    ∧ (∀ k, k < 128 → t.wbuf k ≠ s.wbuf k → i = .parseRead)

/-- No command's behaviour depends on STATUS: neither on RESULT, which every command sets, nor on LAST_OP
(rules R33, R56). -/
def Obligations.StatusNeverSteersACommand : Prop :=
  ∀ (i : Instr) (s : State) (r : ResultCode) (o : BitVec 8),
    exec i { s with result := r, lastOp := o }
      = mapNext (fun t => { t with lastOp := o }) (exec i s)

/-- Where every buffer byte a command may read has been written since reset, no free value enters what it
does: it does the same whatever the unwritten bytes hold (rules R59, R312). The reset counter `epoch`,
which those bytes are a function of, stands for them (the model's form, log entry 1). -/
def Obligations.NoFreeValueEntersAnInitialisedCommand : Prop :=
  ∀ (i : Instr) (s : State) (e : Nat), Initialised i s →
    exec i { s with epoch := e } = mapNext (fun t => { t with epoch := e }) (exec i s)

/-! 43_decode.md -/

/-- Rule R211: a decode with too few words, or with an order the type does not support, ends in
INVALID_ARGUMENT and changes STATUS only; any other succeeds. -/
def Obligations.DecodeRejectsExactlyTheUnsupported : Prop :=
  ∀ (ty : PrimType) (o : ByteOrder) (s : State),
    (s.wcount.toNat < need ty ∨ unsupported ty o →
      exec (.decode ty o) s = .next { s with result := .invalidArgument })
    ∧ (¬ (s.wcount.toNat < need ty ∨ unsupported ty o) →
      ∃ t, exec (.decode ty o) s = .next t ∧ t.result = .success)

/-- Rules R212 to R214, R217 to R222: RAW is the composed pattern, never sign-extended; SCALED is its
interpretation times SCALE; nothing else changes. -/
def Obligations.DecodeWritesRawAndScaled : Prop :=
  ∀ (ty : PrimType) (o : ByteOrder) (s : State),
    need ty ≤ s.wcount.toNat → ¬ unsupported ty o →
    let v := rawNumber ty o (s.wbuf 0) (s.wbuf 1) (s.wbuf 2) (s.wbuf 3)
    v < 2 ^ (16 * need ty)
    ∧ exec (.decode ty o) s = .next { s with
        raw := BitVec.ofNat 64 v
        scaled := Float64.fmul (interpreted ty v) s.scale
        result := .success }

/-- For a fixed type and order, RAW is an injective function of the words the type needs (rule R223). -/
def Obligations.RawDeterminesTheWords : Prop :=
  ∀ (ty : PrimType) (o : ByteOrder) (s1 s2 t1 t2 : State),
    exec (.decode ty o) s1 = .next t1 → exec (.decode ty o) s2 = .next t2 →
    t1.result = .success → t2.result = .success → t1.raw = t2.raw →
    ∀ k, k < need ty → s1.wbuf k = s2.wbuf k

/-- Scaling by 1.0 is exact for every value that is not a NaN, and with a NaN operand the product is the
canonical NaN (rule R219). -/
def Obligations.ScaleOneIsExact : Prop :=
  (∀ x : Wide, ¬ nanPattern x → Float64.fmul x 0x3FF0000000000000 = x)
  ∧ (∀ x y : Wide, nanPattern x ∨ nanPattern y → Float64.fmul x y = 0x7FF8000000000000)

/-- Every arithmetic result that is a NaN is the canonical NaN (rule R215), and each operation gives it for a
NaN operand (rules R219, R252), for the invalid pairs of IEEE-754 (infinity * 0, infinity - infinity,
infinity / infinity, 0 / 0) and for no other operands. That these operands and no others make a NaN in all
four operations is taken from outside the spec (PRESUMED, log entry 13). -/
def Obligations.NaNResultsAreCanonical : Prop :=
  ∀ x y : Wide,
    let nanOperand := nanPattern x ∨ nanPattern y
    let infinite := fun z : Wide => z = 0x7FF0000000000000 ∨ z = 0xFFF0000000000000
    let zero := fun z : Wide => z = 0x0000000000000000 ∨ z = 0x8000000000000000
    (nanPattern (Float64.fmul x y) → Float64.fmul x y = 0x7FF8000000000000)
    ∧ (nanPattern (Float64.fadd x y) → Float64.fadd x y = 0x7FF8000000000000)
    ∧ (nanPattern (Float64.fsub x y) → Float64.fsub x y = 0x7FF8000000000000)
    ∧ (nanPattern (Float64.fdiv x y) → Float64.fdiv x y = 0x7FF8000000000000)
    ∧ (Float64.fmul x y = 0x7FF8000000000000 ↔
      nanOperand ∨ (infinite x ∧ zero y) ∨ (zero x ∧ infinite y))
    ∧ (Float64.fadd x y = 0x7FF8000000000000 ↔ nanOperand ∨ (infinite x ∧ infinite y ∧ x ≠ y))
    ∧ (Float64.fsub x y = 0x7FF8000000000000 ↔ nanOperand ∨ (infinite x ∧ x = y))
    ∧ (Float64.fdiv x y = 0x7FF8000000000000 ↔
      nanOperand ∨ (infinite x ∧ infinite y) ∨ (zero x ∧ zero y))

/-- Rounding is to nearest, ties to even: for every exact magnitude `n / d` in units of 2^-1074, no finite
binary64 value lies nearer than the result, one that lies as near leaves a result with an even last
bit, and the result is infinite exactly from half a last place above the largest finite value on
(rule R215). -/
def Obligations.RoundingIsToNearestTiesToEven : Prop :=
  ∀ (n d : Nat) (neg : Bool), 0 < d →
    let x := Float64.pack neg n d
    ((2 ^ 54 - 1) * 2 ^ 2044 * d ≤ n → Float64.unpack x = .inf neg)
    ∧ (n < (2 ^ 54 - 1) * 2 ^ 2044 * d →
      ∃ m, Float64.unpack x = .fin neg m
        ∧ ∀ (y : Wide) (k : Nat), Float64.unpack y = .fin neg k →
          ((m : Int) * d - n).natAbs ≤ ((k : Int) * d - n).natAbs
          ∧ (((m : Int) * d - n).natAbs = ((k : Int) * d - n).natAbs → k ≠ m → x.getLsbD 0 = false))

/-- What every pattern denotes, in units of 2^-1074, and what each operation gives for every class of
operands that makes no NaN. On finite operands it gives the exact result rounded once (rule R215); an exact
zero sum or difference is +0.0 unless it is -0.0 + -0.0 or -0.0 - +0.0; a finite value other than 0 divided by
0 is an infinity. With an infinite operand it gives an infinity, or a zero where a finite value is divided by
it. The layout, the signs and what infinities and zeros give are taken from outside the spec (PRESUMED, log
entry 13). -/
def Obligations.OperationsRoundTheExactResult : Prop :=
  let inf := fun a : Bool => (if a then 0xFFF0000000000000 else 0x7FF0000000000000 : Wide)
  let zero := fun a : Bool => (if a then 0x8000000000000000 else 0x0000000000000000 : Wide)
  (∀ x : Wide,
    let e := x.toNat / 2 ^ 52 % 2 ^ 11
    let f := x.toNat % 2 ^ 52
    (e = 2047 → f = 0 → Float64.unpack x = .inf (x.getLsbD 63))
    ∧ (e = 2047 → f ≠ 0 → Float64.unpack x = .nan)
    ∧ (e = 0 → Float64.unpack x = .fin (x.getLsbD 63) f)
    ∧ (0 < e → e < 2047 → Float64.unpack x = .fin (x.getLsbD 63) ((2 ^ 52 + f) * 2 ^ (e - 1))))
  ∧ (∀ (x y : Wide) (a b : Bool) (m k : Nat),
    Float64.unpack x = .fin a m → Float64.unpack y = .fin b k →
    let i : Int := if a then -(m : Int) else m
    let j : Int := if b then -(k : Int) else k
    Float64.fmul x y = Float64.pack (a != b) (m * k) (2 ^ 1074)
    ∧ (k ≠ 0 → Float64.fdiv x y = Float64.pack (a != b) (m * 2 ^ 1074) k)
    ∧ (k = 0 → m ≠ 0 → Float64.fdiv x y = inf (a != b))
    ∧ (i + j ≠ 0 → Float64.fadd x y = Float64.pack (decide (i + j < 0)) (i + j).natAbs 1)
    ∧ (i + j = 0 → Float64.fadd x y = zero (a && b))
    ∧ (i - j ≠ 0 → Float64.fsub x y = Float64.pack (decide (i - j < 0)) (i - j).natAbs 1)
    ∧ (i - j = 0 → Float64.fsub x y = zero (a && !b)))
  ∧ (∀ (x y : Wide) (a b : Bool) (k : Nat),
    Float64.unpack x = .inf a → Float64.unpack y = .fin b k →
    (k ≠ 0 → Float64.fmul x y = inf (a != b) ∧ Float64.fmul y x = inf (a != b))
    ∧ Float64.fdiv x y = inf (a != b) ∧ Float64.fdiv y x = zero (a != b)
    ∧ Float64.fadd x y = inf a ∧ Float64.fadd y x = inf a
    ∧ Float64.fsub x y = inf a ∧ Float64.fsub y x = inf (!a))
  ∧ (∀ (x y : Wide) (a b : Bool), Float64.unpack x = .inf a → Float64.unpack y = .inf b →
    Float64.fmul x y = inf (a != b)
    ∧ (a = b → Float64.fadd x y = inf a) ∧ (a ≠ b → Float64.fsub x y = inf a))

/-- The binary64 value of an integer below 2^53 in magnitude is exact (00_scope.md rule R10). That the zero
of the integer 0 is +0.0 is taken from outside the spec (PRESUMED, log entry 13). -/
def Obligations.IntegersConvertExactly : Prop :=
  ∀ n : Int, n.natAbs < 2 ^ 53 →
    Float64.unpack (Float64.ofInt n) = .fin (decide (n < 0)) (n.natAbs * 2 ^ 1074)

/-- Rule R216: widening binary32 to binary64 is exact, zeros, subnormals and infinities included; a NaN
gives the canonical NaN. -/
def Obligations.WideningIsExact : Prop :=
  ∀ x : BitVec 32,
    let e := x.toNat / 2 ^ 23 % 2 ^ 8
    let f := x.toNat % 2 ^ 23
    (e = 255 → f ≠ 0 → Float64.widen x = 0x7FF8000000000000)
    ∧ (e = 255 → f = 0 → Float64.unpack (Float64.widen x) = .inf (x.getLsbD 31))
    ∧ (e = 0 → Float64.unpack (Float64.widen x) = .fin (x.getLsbD 31) (f * 2 ^ 925))
    ∧ (0 < e → e < 255 → Float64.unpack (Float64.widen x)
        = .fin (x.getLsbD 31) ((2 ^ 23 + f) * 2 ^ (e - 1) * 2 ^ 925))

/-! 44_vendor.md -/

/-- Rule R252: DECODE_INTFRAC rejects too few words or a mixed fraction order, and otherwise writes the two
patterns to RAW and (integer + fraction) * SCALE to SCALED. -/
def Obligations.IntFracWritesRawAndScaled : Prop :=
  ∀ (n : IntWords) (io fo : ByteOrder) (s : State),
    let iw := match n with | .one => 1 | .two => 2
    let rejected := s.wcount.toNat < iw + 2 ∨ fo = .mixedBadc ∨ fo = .mixedDcba
    let ipat := match n with
      | .one => (s.wbuf 0).toNat
      | .two => composed32 io (s.wbuf 0) (s.wbuf 1)
    let fpat := composed32 fo (s.wbuf iw) (s.wbuf (iw + 1))
    (rejected → exec (.decodeIntfrac n io fo) s = .next { s with result := .invalidArgument })
    ∧ (¬ rejected → exec (.decodeIntfrac n io fo) s = .next { s with
        raw := BitVec.ofNat 64 (ipat * 2 ^ 32 + fpat)
        scaled := Float64.fmul
          (Float64.fadd (Float64.ofInt ipat) (Float64.widen (BitVec.ofNat 32 fpat))) s.scale
        result := .success })

/-- The wide double is DECODE with FLOAT64 and BIG_ENDIAN: all four words combine big-endian into the
pattern, which is scaled (rules R132, R250). -/
def Obligations.WideDoubleIsABigEndianDecode : Prop :=
  (∀ base : Nat, assembleLine base .wideDouble = [⟨base, .four, .write 0x00000530⟩])
  ∧ decodeWord 0x00000530 = .instr (.decode .float64 .bigEndian)
  ∧ ∀ s : State, 4 ≤ s.wcount.toNat →
    let v : Wide := s.wbuf 0 ++ s.wbuf 1 ++ s.wbuf 2 ++ s.wbuf 3
    exec (.decode .float64 .bigEndian) s = .next { s with
      raw := v, scaled := Float64.fmul v s.scale, result := .success }

/-- Rule R262: what LEVEL_PCT rejects, with SCALED and RAW unchanged, and what it computes otherwise: the
formula of rule R260, then the clamp of rule R261. Below 0 are negative infinity and the negative values
other than -0.0; above 100 are positive infinity and the values of more than 100 * 2^1074 units. -/
def Obligations.LevelPctComputesAndClamps : Prop :=
  ∀ (var : LevelVar) (clampHi : Bool) (s : State),
    let quotient := match var with
      | .direct => Float64.fdiv s.scaled s.span
      | .referenced => Float64.fdiv (Float64.fsub s.ref s.scaled) s.span
    let p := Float64.fmul quotient 0x4059000000000000
    let rejected := s.span = 0x0000000000000000 ∨ s.span = 0x8000000000000000
      ∨ nanPattern s.scaled ∨ nanPattern s.span ∨ (var = .referenced ∧ nanPattern s.ref)
      ∨ nanPattern p
    let below := Float64.unpack p = .inf true ∨ ∃ m, m ≠ 0 ∧ Float64.unpack p = .fin true m
    let above := Float64.unpack p = .inf false
      ∨ ∃ m, 100 * 2 ^ 1074 < m ∧ Float64.unpack p = .fin false m
    (rejected → exec (.levelPct var clampHi) s = .next { s with result := .invalidArgument })
    ∧ (¬ rejected → below → exec (.levelPct var clampHi) s
        = .next { s with scaled := 0x0000000000000000, result := .success })
    ∧ (¬ rejected → clampHi = true → above → exec (.levelPct var clampHi) s
        = .next { s with scaled := 0x4059000000000000, result := .success })
    ∧ (¬ rejected → ¬ below → ¬ (clampHi = true ∧ above) → exec (.levelPct var clampHi) s
        = .next { s with scaled := p, result := .success })

/-- After a successful LEVEL_PCT SCALED is no NaN, is not below 0 (it is -0.0 at the least), and is not above
100 where CLAMPHI is 1; a computed -0.0 is kept, and an infinite percentage saturates: negative infinity gives
+0.0, positive infinity gives 100.0 where CLAMPHI is 1 and is kept where it is 0 (rules R261, R262). -/
def Obligations.LevelPctResultIsClamped : Prop :=
  ∀ (var : LevelVar) (clampHi : Bool) (s t : State),
    exec (.levelPct var clampHi) s = .next t → t.result = .success →
    let quotient := match var with
      | .direct => Float64.fdiv s.scaled s.span
      | .referenced => Float64.fdiv (Float64.fsub s.ref s.scaled) s.span
    let p := Float64.fmul quotient 0x4059000000000000
    Float64.unpack t.scaled ≠ .nan
    ∧ Float64.unpack t.scaled ≠ .inf true
    ∧ (∀ m, m ≠ 0 → Float64.unpack t.scaled ≠ .fin true m)
    ∧ (clampHi = true → Float64.unpack t.scaled ≠ .inf false
      ∧ ∀ m, 100 * 2 ^ 1074 < m → Float64.unpack t.scaled ≠ .fin false m)
    ∧ (p = 0x8000000000000000 → t.scaled = 0x8000000000000000)
    ∧ (p = 0xFFF0000000000000 → t.scaled = 0x0000000000000000)
    ∧ (p = 0x7FF0000000000000 →
      t.scaled = if clampHi then 0x4059000000000000 else 0x7FF0000000000000)

/-- Rule R263: a computed percentage of -5 gives +0.0 in both modes, one of 150 gives 100.0 where CLAMPHI
is 1 and 150.0 where it is 0, for both formulas and whatever operands it comes from. -/
def Obligations.ClampExamples : Prop :=
  ∀ (var : LevelVar) (clampHi : Bool) (s : State),
    let quotient := match var with
      | .direct => Float64.fdiv s.scaled s.span
      | .referenced => Float64.fdiv (Float64.fsub s.ref s.scaled) s.span
    let p := Float64.fmul quotient 0x4059000000000000
    (p = 0xC014000000000000 →
      exec (.levelPct var clampHi) s
        = .next { s with scaled := 0x0000000000000000, result := .success })
    ∧ (p = 0x4062C00000000000 →
      exec (.levelPct var clampHi) s = .next { s with
        scaled := if clampHi then 0x4059000000000000 else 0x4062C00000000000
        result := .success })

/-! 43_decode.md section 5: tokens -/

/-- Rule R230: a token of the table resolves to its entry whatever the configured order, a type name
outside the table takes the configured order, anything else is INVALID_ARGUMENT (none). -/
def Obligations.TokensResolveByTableThenName : Prop :=
  ∀ (table : TokenTable) (tok : String) (ord : ByteOrder),
    (∀ d, table.lookup tok = some d → resolveToken table tok ord = some d)
    ∧ (table.lookup tok = none →
      (tok = "UINT16" → resolveToken table tok ord = some (.uint16, ord))
      ∧ (tok = "INT16" → resolveToken table tok ord = some (.int16, ord))
      ∧ (tok = "UINT32" → resolveToken table tok ord = some (.uint32, ord))
      ∧ (tok = "INT32" → resolveToken table tok ord = some (.int32, ord))
      ∧ (tok = "FLOAT32" → resolveToken table tok ord = some (.float32, ord))
      ∧ (tok = "FLOAT64" → resolveToken table tok ord = some (.float64, ord))
      ∧ (tok = "HEX" → resolveToken table tok ord = some (.hex, ord))
      ∧ (tok ∉ ["UINT16", "INT16", "UINT32", "INT32", "FLOAT32", "FLOAT64", "HEX"] →
        resolveToken table tok ord = none))

/-- In the default table the digits of every token whose pair decodes name value bytes: wire position `k`
carries the value byte that digit `k` names (rules R231, R232). -/
def Obligations.TokenDigitsNameValueBytes : Prop :=
  ∀ e ∈ Config.defaultTokenTable, orderSupported e.2.1 e.2.2 = true →
    ∀ (w0 w1 w2 w3 : Half) (k d : Nat), (suffixDigits e.1)[k]? = some d →
      (wireBytes w0 w1 w2 w3)[k]?
        = some (valueByte (2 * need e.2.1) (decodePattern e.2.1 e.2.2 w0 w1 w2 w3) d)

/-! The whole machine -/

/-- The invariant holds right after reset. -/
def Obligations.ResetMeetsTheInvariant : Prop := StateInv State.reset

/-- Every step keeps the invariant, from any state that has it: the buffer memory stays canonical and in
the buffers, the parameters legal, TXLEN and BYTECOUNT in their ranges, NONE means that no command has
run, and SCALED holds no NaN but the canonical one (rules R30, R33, R40, R42, R215). -/
def Obligations.StepKeepsTheInvariant : Prop :=
  ∀ s t : State, StateInv s → step s = .next t → StateInv t
end

