-- ==== Sys2Proof/Laws/State.lean ====
section
/-! SUPPORT. One lemma per field for each update of the state, so that no later proof unfolds a record
update. -/

namespace Sys2Proof.Machine

/-! `State.finish` -/

@[simp] theorem State.finish_result (s : State) (c : ResultCode) : (s.finish c).result = c := rfl
@[simp] theorem State.finish_lastOp (s : State) (c : ResultCode) :
    (s.finish c).lastOp = s.lastOp := rfl
@[simp] theorem State.finish_excCode (s : State) (c : ResultCode) :
    (s.finish c).excCode = s.excCode := rfl
@[simp] theorem State.finish_crc (s : State) (c : ResultCode) : (s.finish c).crc = s.crc := rfl
@[simp] theorem State.finish_slave (s : State) (c : ResultCode) :
    (s.finish c).slave = s.slave := rfl
@[simp] theorem State.finish_func (s : State) (c : ResultCode) : (s.finish c).func = s.func := rfl
@[simp] theorem State.finish_addr (s : State) (c : ResultCode) : (s.finish c).addr = s.addr := rfl
@[simp] theorem State.finish_qty (s : State) (c : ResultCode) : (s.finish c).qty = s.qty := rfl
@[simp] theorem State.finish_txlen (s : State) (c : ResultCode) :
    (s.finish c).txlen = s.txlen := rfl
@[simp] theorem State.finish_rxlen (s : State) (c : ResultCode) :
    (s.finish c).rxlen = s.rxlen := rfl
@[simp] theorem State.finish_bytecount (s : State) (c : ResultCode) :
    (s.finish c).bytecount = s.bytecount := rfl
@[simp] theorem State.finish_wcount (s : State) (c : ResultCode) :
    (s.finish c).wcount = s.wcount := rfl
@[simp] theorem State.finish_scale (s : State) (c : ResultCode) :
    (s.finish c).scale = s.scale := rfl
@[simp] theorem State.finish_raw (s : State) (c : ResultCode) : (s.finish c).raw = s.raw := rfl
@[simp] theorem State.finish_scaled (s : State) (c : ResultCode) :
    (s.finish c).scaled = s.scaled := rfl
@[simp] theorem State.finish_ref (s : State) (c : ResultCode) : (s.finish c).ref = s.ref := rfl
@[simp] theorem State.finish_span (s : State) (c : ResultCode) : (s.finish c).span = s.span := rfl
@[simp] theorem State.finish_mem (s : State) (c : ResultCode) : (s.finish c).mem = s.mem := rfl
@[simp] theorem State.finish_epoch (s : State) (c : ResultCode) :
    (s.finish c).epoch = s.epoch := rfl
@[simp] theorem State.finish_params (s : State) (c : ResultCode) :
    (s.finish c).params = s.params := rfl
@[simp] theorem State.finish_pending (s : State) (c : ResultCode) :
    (s.finish c).pending = s.pending := rfl
@[simp] theorem State.finish_response (s : State) (c : ResultCode) :
    (s.finish c).response = s.response := rfl

/-! `State.setBytes` -/

@[simp] theorem State.setBytes_result (s : State) (a : Nat) (bs : List Byte) :
    (s.setBytes a bs).result = s.result := rfl
@[simp] theorem State.setBytes_lastOp (s : State) (a : Nat) (bs : List Byte) :
    (s.setBytes a bs).lastOp = s.lastOp := rfl
@[simp] theorem State.setBytes_excCode (s : State) (a : Nat) (bs : List Byte) :
    (s.setBytes a bs).excCode = s.excCode := rfl
@[simp] theorem State.setBytes_crc (s : State) (a : Nat) (bs : List Byte) :
    (s.setBytes a bs).crc = s.crc := rfl
@[simp] theorem State.setBytes_slave (s : State) (a : Nat) (bs : List Byte) :
    (s.setBytes a bs).slave = s.slave := rfl
@[simp] theorem State.setBytes_func (s : State) (a : Nat) (bs : List Byte) :
    (s.setBytes a bs).func = s.func := rfl
@[simp] theorem State.setBytes_addr (s : State) (a : Nat) (bs : List Byte) :
    (s.setBytes a bs).addr = s.addr := rfl
@[simp] theorem State.setBytes_qty (s : State) (a : Nat) (bs : List Byte) :
    (s.setBytes a bs).qty = s.qty := rfl
@[simp] theorem State.setBytes_txlen (s : State) (a : Nat) (bs : List Byte) :
    (s.setBytes a bs).txlen = s.txlen := rfl
@[simp] theorem State.setBytes_rxlen (s : State) (a : Nat) (bs : List Byte) :
    (s.setBytes a bs).rxlen = s.rxlen := rfl
@[simp] theorem State.setBytes_bytecount (s : State) (a : Nat) (bs : List Byte) :
    (s.setBytes a bs).bytecount = s.bytecount := rfl
@[simp] theorem State.setBytes_wcount (s : State) (a : Nat) (bs : List Byte) :
    (s.setBytes a bs).wcount = s.wcount := rfl
@[simp] theorem State.setBytes_scale (s : State) (a : Nat) (bs : List Byte) :
    (s.setBytes a bs).scale = s.scale := rfl
@[simp] theorem State.setBytes_raw (s : State) (a : Nat) (bs : List Byte) :
    (s.setBytes a bs).raw = s.raw := rfl
@[simp] theorem State.setBytes_scaled (s : State) (a : Nat) (bs : List Byte) :
    (s.setBytes a bs).scaled = s.scaled := rfl
@[simp] theorem State.setBytes_ref (s : State) (a : Nat) (bs : List Byte) :
    (s.setBytes a bs).ref = s.ref := rfl
@[simp] theorem State.setBytes_span (s : State) (a : Nat) (bs : List Byte) :
    (s.setBytes a bs).span = s.span := rfl
@[simp] theorem State.setBytes_mem (s : State) (a : Nat) (bs : List Byte) :
    (s.setBytes a bs).mem = Memory.setBytes s.mem a bs := rfl
@[simp] theorem State.setBytes_epoch (s : State) (a : Nat) (bs : List Byte) :
    (s.setBytes a bs).epoch = s.epoch := rfl
@[simp] theorem State.setBytes_params (s : State) (a : Nat) (bs : List Byte) :
    (s.setBytes a bs).params = s.params := rfl
@[simp] theorem State.setBytes_pending (s : State) (a : Nat) (bs : List Byte) :
    (s.setBytes a bs).pending = s.pending := rfl
@[simp] theorem State.setBytes_response (s : State) (a : Nat) (bs : List Byte) :
    (s.setBytes a bs).response = s.response := rfl

/-! `State.protocolException` -/

@[simp] theorem State.protocolException_result (s : State) :
    (s.protocolException).result = .protocolException := rfl
@[simp] theorem State.protocolException_lastOp (s : State) :
    (s.protocolException).lastOp = s.lastOp := rfl
@[simp] theorem State.protocolException_excCode (s : State) :
    (s.protocolException).excCode = s.rxbuf 2 := rfl
@[simp] theorem State.protocolException_crc (s : State) : (s.protocolException).crc = s.crc := rfl
@[simp] theorem State.protocolException_slave (s : State) :
    (s.protocolException).slave = s.slave := rfl
@[simp] theorem State.protocolException_func (s : State) :
    (s.protocolException).func = s.func := rfl
@[simp] theorem State.protocolException_addr (s : State) :
    (s.protocolException).addr = s.addr := rfl
@[simp] theorem State.protocolException_qty (s : State) : (s.protocolException).qty = s.qty := rfl
@[simp] theorem State.protocolException_txlen (s : State) :
    (s.protocolException).txlen = s.txlen := rfl
@[simp] theorem State.protocolException_rxlen (s : State) :
    (s.protocolException).rxlen = s.rxlen := rfl
@[simp] theorem State.protocolException_bytecount (s : State) :
    (s.protocolException).bytecount = s.bytecount := rfl
@[simp] theorem State.protocolException_wcount (s : State) :
    (s.protocolException).wcount = s.wcount := rfl
@[simp] theorem State.protocolException_scale (s : State) :
    (s.protocolException).scale = s.scale := rfl
@[simp] theorem State.protocolException_raw (s : State) : (s.protocolException).raw = s.raw := rfl
@[simp] theorem State.protocolException_scaled (s : State) :
    (s.protocolException).scaled = s.scaled := rfl
@[simp] theorem State.protocolException_ref (s : State) : (s.protocolException).ref = s.ref := rfl
@[simp] theorem State.protocolException_span (s : State) :
    (s.protocolException).span = s.span := rfl
@[simp] theorem State.protocolException_mem (s : State) : (s.protocolException).mem = s.mem := rfl
@[simp] theorem State.protocolException_epoch (s : State) :
    (s.protocolException).epoch = s.epoch := rfl
@[simp] theorem State.protocolException_params (s : State) :
    (s.protocolException).params = s.params := rfl
@[simp] theorem State.protocolException_pending (s : State) :
    (s.protocolException).pending = s.pending := rfl
@[simp] theorem State.protocolException_response (s : State) :
    (s.protocolException).response = s.response := rfl

/-! `State.placeFrame` -/

@[simp] theorem State.placeFrame_result (s : State) (f : List Byte) :
    (s.placeFrame f).result = s.result := rfl
@[simp] theorem State.placeFrame_lastOp (s : State) (f : List Byte) :
    (s.placeFrame f).lastOp = s.lastOp := rfl
@[simp] theorem State.placeFrame_excCode (s : State) (f : List Byte) :
    (s.placeFrame f).excCode = s.excCode := rfl
@[simp] theorem State.placeFrame_crc (s : State) (f : List Byte) :
    (s.placeFrame f).crc = s.crc := rfl
@[simp] theorem State.placeFrame_slave (s : State) (f : List Byte) :
    (s.placeFrame f).slave = s.slave := rfl
@[simp] theorem State.placeFrame_func (s : State) (f : List Byte) :
    (s.placeFrame f).func = s.func := rfl
@[simp] theorem State.placeFrame_addr (s : State) (f : List Byte) :
    (s.placeFrame f).addr = s.addr := rfl
@[simp] theorem State.placeFrame_qty (s : State) (f : List Byte) :
    (s.placeFrame f).qty = s.qty := rfl
@[simp] theorem State.placeFrame_txlen (s : State) (f : List Byte) :
    (s.placeFrame f).txlen = BitVec.ofNat 9 f.length := rfl
@[simp] theorem State.placeFrame_rxlen (s : State) (f : List Byte) :
    (s.placeFrame f).rxlen = s.rxlen := rfl
@[simp] theorem State.placeFrame_bytecount (s : State) (f : List Byte) :
    (s.placeFrame f).bytecount = s.bytecount := rfl
@[simp] theorem State.placeFrame_wcount (s : State) (f : List Byte) :
    (s.placeFrame f).wcount = s.wcount := rfl
@[simp] theorem State.placeFrame_scale (s : State) (f : List Byte) :
    (s.placeFrame f).scale = s.scale := rfl
@[simp] theorem State.placeFrame_raw (s : State) (f : List Byte) :
    (s.placeFrame f).raw = s.raw := rfl
@[simp] theorem State.placeFrame_scaled (s : State) (f : List Byte) :
    (s.placeFrame f).scaled = s.scaled := rfl
@[simp] theorem State.placeFrame_ref (s : State) (f : List Byte) :
    (s.placeFrame f).ref = s.ref := rfl
@[simp] theorem State.placeFrame_span (s : State) (f : List Byte) :
    (s.placeFrame f).span = s.span := rfl
@[simp] theorem State.placeFrame_mem (s : State) (f : List Byte) :
    (s.placeFrame f).mem = Memory.setBytes s.mem (txOffset 0) f := rfl
@[simp] theorem State.placeFrame_epoch (s : State) (f : List Byte) :
    (s.placeFrame f).epoch = s.epoch := rfl
@[simp] theorem State.placeFrame_params (s : State) (f : List Byte) :
    (s.placeFrame f).params = s.params := rfl
@[simp] theorem State.placeFrame_pending (s : State) (f : List Byte) :
    (s.placeFrame f).pending = s.pending := rfl
@[simp] theorem State.placeFrame_response (s : State) (f : List Byte) :
    (s.placeFrame f).response = s.response := rfl

/-! `State.acceptPayload` -/

@[simp] theorem State.acceptPayload_result (s : State) : (s.acceptPayload).result = s.result := rfl
@[simp] theorem State.acceptPayload_lastOp (s : State) : (s.acceptPayload).lastOp = s.lastOp := rfl
@[simp] theorem State.acceptPayload_excCode (s : State) :
    (s.acceptPayload).excCode = s.excCode := rfl
@[simp] theorem State.acceptPayload_crc (s : State) : (s.acceptPayload).crc = s.crc := rfl
@[simp] theorem State.acceptPayload_slave (s : State) : (s.acceptPayload).slave = s.slave := rfl
@[simp] theorem State.acceptPayload_func (s : State) : (s.acceptPayload).func = s.func := rfl
@[simp] theorem State.acceptPayload_addr (s : State) : (s.acceptPayload).addr = s.addr := rfl
@[simp] theorem State.acceptPayload_qty (s : State) : (s.acceptPayload).qty = s.qty := rfl
@[simp] theorem State.acceptPayload_txlen (s : State) : (s.acceptPayload).txlen = s.txlen := rfl
@[simp] theorem State.acceptPayload_rxlen (s : State) : (s.acceptPayload).rxlen = s.rxlen := rfl
@[simp] theorem State.acceptPayload_bytecount (s : State) :
    (s.acceptPayload).bytecount = s.rxbuf 2 := rfl
@[simp] theorem State.acceptPayload_wcount (s : State) :
    (s.acceptPayload).wcount = BitVec.ofNat 8 ((s.rxbuf 2).toNat / 2) := rfl
@[simp] theorem State.acceptPayload_scale (s : State) : (s.acceptPayload).scale = s.scale := rfl
@[simp] theorem State.acceptPayload_raw (s : State) : (s.acceptPayload).raw = s.raw := rfl
@[simp] theorem State.acceptPayload_scaled (s : State) : (s.acceptPayload).scaled = s.scaled := rfl
@[simp] theorem State.acceptPayload_ref (s : State) : (s.acceptPayload).ref = s.ref := rfl
@[simp] theorem State.acceptPayload_span (s : State) : (s.acceptPayload).span = s.span := rfl
@[simp] theorem State.acceptPayload_mem (s : State) :
    (s.acceptPayload).mem = Memory.setBytes s.mem (wbufOffset 0) (payloadBytes s ((s.rxbuf 2).toNat / 2)) := rfl
@[simp] theorem State.acceptPayload_epoch (s : State) : (s.acceptPayload).epoch = s.epoch := rfl
@[simp] theorem State.acceptPayload_params (s : State) : (s.acceptPayload).params = s.params := rfl
@[simp] theorem State.acceptPayload_pending (s : State) :
    (s.acceptPayload).pending = s.pending := rfl
@[simp] theorem State.acceptPayload_response (s : State) :
    (s.acceptPayload).response = s.response := rfl

/-! `State.raiseBusError` -/

@[simp] theorem State.raiseBusError_result (s : State) (a : Nat) :
    (s.raiseBusError a).result = s.result := rfl
@[simp] theorem State.raiseBusError_lastOp (s : State) (a : Nat) :
    (s.raiseBusError a).lastOp = s.lastOp := rfl
@[simp] theorem State.raiseBusError_excCode (s : State) (a : Nat) :
    (s.raiseBusError a).excCode = s.excCode := rfl
@[simp] theorem State.raiseBusError_crc (s : State) (a : Nat) :
    (s.raiseBusError a).crc = s.crc := rfl
@[simp] theorem State.raiseBusError_slave (s : State) (a : Nat) :
    (s.raiseBusError a).slave = s.slave := rfl
@[simp] theorem State.raiseBusError_func (s : State) (a : Nat) :
    (s.raiseBusError a).func = s.func := rfl
@[simp] theorem State.raiseBusError_addr (s : State) (a : Nat) :
    (s.raiseBusError a).addr = s.addr := rfl
@[simp] theorem State.raiseBusError_qty (s : State) (a : Nat) :
    (s.raiseBusError a).qty = s.qty := rfl
@[simp] theorem State.raiseBusError_txlen (s : State) (a : Nat) :
    (s.raiseBusError a).txlen = s.txlen := rfl
@[simp] theorem State.raiseBusError_rxlen (s : State) (a : Nat) :
    (s.raiseBusError a).rxlen = s.rxlen := rfl
@[simp] theorem State.raiseBusError_bytecount (s : State) (a : Nat) :
    (s.raiseBusError a).bytecount = s.bytecount := rfl
@[simp] theorem State.raiseBusError_wcount (s : State) (a : Nat) :
    (s.raiseBusError a).wcount = s.wcount := rfl
@[simp] theorem State.raiseBusError_scale (s : State) (a : Nat) :
    (s.raiseBusError a).scale = s.scale := rfl
@[simp] theorem State.raiseBusError_raw (s : State) (a : Nat) :
    (s.raiseBusError a).raw = s.raw := rfl
@[simp] theorem State.raiseBusError_scaled (s : State) (a : Nat) :
    (s.raiseBusError a).scaled = s.scaled := rfl
@[simp] theorem State.raiseBusError_ref (s : State) (a : Nat) :
    (s.raiseBusError a).ref = s.ref := rfl
@[simp] theorem State.raiseBusError_span (s : State) (a : Nat) :
    (s.raiseBusError a).span = s.span := rfl
@[simp] theorem State.raiseBusError_mem (s : State) (a : Nat) :
    (s.raiseBusError a).mem = s.mem := rfl
@[simp] theorem State.raiseBusError_epoch (s : State) (a : Nat) :
    (s.raiseBusError a).epoch = s.epoch := rfl
@[simp] theorem State.raiseBusError_params (s : State) (a : Nat) :
    (s.raiseBusError a).params = s.params := rfl
@[simp] theorem State.raiseBusError_pending (s : State) (a : Nat) :
    (s.raiseBusError a).pending = s.pending := rfl
@[simp] theorem State.raiseBusError_response (s : State) (a : Nat) :
    (s.raiseBusError a).response = .busError a := rfl

/-! `State.respond` -/

@[simp] theorem State.respond_result (s : State) (r : BusResponse) :
    (s.respond r).result = s.result := rfl
@[simp] theorem State.respond_lastOp (s : State) (r : BusResponse) :
    (s.respond r).lastOp = s.lastOp := rfl
@[simp] theorem State.respond_excCode (s : State) (r : BusResponse) :
    (s.respond r).excCode = s.excCode := rfl
@[simp] theorem State.respond_crc (s : State) (r : BusResponse) : (s.respond r).crc = s.crc := rfl
@[simp] theorem State.respond_slave (s : State) (r : BusResponse) :
    (s.respond r).slave = s.slave := rfl
@[simp] theorem State.respond_func (s : State) (r : BusResponse) :
    (s.respond r).func = s.func := rfl
@[simp] theorem State.respond_addr (s : State) (r : BusResponse) :
    (s.respond r).addr = s.addr := rfl
@[simp] theorem State.respond_qty (s : State) (r : BusResponse) : (s.respond r).qty = s.qty := rfl
@[simp] theorem State.respond_txlen (s : State) (r : BusResponse) :
    (s.respond r).txlen = s.txlen := rfl
@[simp] theorem State.respond_rxlen (s : State) (r : BusResponse) :
    (s.respond r).rxlen = s.rxlen := rfl
@[simp] theorem State.respond_bytecount (s : State) (r : BusResponse) :
    (s.respond r).bytecount = s.bytecount := rfl
@[simp] theorem State.respond_wcount (s : State) (r : BusResponse) :
    (s.respond r).wcount = s.wcount := rfl
@[simp] theorem State.respond_scale (s : State) (r : BusResponse) :
    (s.respond r).scale = s.scale := rfl
@[simp] theorem State.respond_raw (s : State) (r : BusResponse) : (s.respond r).raw = s.raw := rfl
@[simp] theorem State.respond_scaled (s : State) (r : BusResponse) :
    (s.respond r).scaled = s.scaled := rfl
@[simp] theorem State.respond_ref (s : State) (r : BusResponse) : (s.respond r).ref = s.ref := rfl
@[simp] theorem State.respond_span (s : State) (r : BusResponse) :
    (s.respond r).span = s.span := rfl
@[simp] theorem State.respond_mem (s : State) (r : BusResponse) : (s.respond r).mem = s.mem := rfl
@[simp] theorem State.respond_epoch (s : State) (r : BusResponse) :
    (s.respond r).epoch = s.epoch := rfl
@[simp] theorem State.respond_params (s : State) (r : BusResponse) :
    (s.respond r).params = s.params := rfl
@[simp] theorem State.respond_pending (s : State) (r : BusResponse) :
    (s.respond r).pending = s.pending := rfl
@[simp] theorem State.respond_response (s : State) (r : BusResponse) :
    (s.respond r).response = r := rfl

/-! `State.startCommand` -/

@[simp] theorem State.startCommand_result (s : State) (w : Word) :
    (s.startCommand w).result = s.result := rfl
@[simp] theorem State.startCommand_lastOp (s : State) (w : Word) :
    (s.startCommand w).lastOp = opField w := rfl
@[simp] theorem State.startCommand_excCode (s : State) (w : Word) :
    (s.startCommand w).excCode = s.excCode := rfl
@[simp] theorem State.startCommand_crc (s : State) (w : Word) :
    (s.startCommand w).crc = s.crc := rfl
@[simp] theorem State.startCommand_slave (s : State) (w : Word) :
    (s.startCommand w).slave = s.slave := rfl
@[simp] theorem State.startCommand_func (s : State) (w : Word) :
    (s.startCommand w).func = s.func := rfl
@[simp] theorem State.startCommand_addr (s : State) (w : Word) :
    (s.startCommand w).addr = s.addr := rfl
@[simp] theorem State.startCommand_qty (s : State) (w : Word) :
    (s.startCommand w).qty = s.qty := rfl
@[simp] theorem State.startCommand_txlen (s : State) (w : Word) :
    (s.startCommand w).txlen = s.txlen := rfl
@[simp] theorem State.startCommand_rxlen (s : State) (w : Word) :
    (s.startCommand w).rxlen = s.rxlen := rfl
@[simp] theorem State.startCommand_bytecount (s : State) (w : Word) :
    (s.startCommand w).bytecount = s.bytecount := rfl
@[simp] theorem State.startCommand_wcount (s : State) (w : Word) :
    (s.startCommand w).wcount = s.wcount := rfl
@[simp] theorem State.startCommand_scale (s : State) (w : Word) :
    (s.startCommand w).scale = s.scale := rfl
@[simp] theorem State.startCommand_raw (s : State) (w : Word) :
    (s.startCommand w).raw = s.raw := rfl
@[simp] theorem State.startCommand_scaled (s : State) (w : Word) :
    (s.startCommand w).scaled = s.scaled := rfl
@[simp] theorem State.startCommand_ref (s : State) (w : Word) :
    (s.startCommand w).ref = s.ref := rfl
@[simp] theorem State.startCommand_span (s : State) (w : Word) :
    (s.startCommand w).span = s.span := rfl
@[simp] theorem State.startCommand_mem (s : State) (w : Word) :
    (s.startCommand w).mem = s.mem := rfl
@[simp] theorem State.startCommand_epoch (s : State) (w : Word) :
    (s.startCommand w).epoch = s.epoch := rfl
@[simp] theorem State.startCommand_params (s : State) (w : Word) :
    (s.startCommand w).params = s.params := rfl
@[simp] theorem State.startCommand_pending (s : State) (w : Word) :
    (s.startCommand w).pending = s.pending := rfl
@[simp] theorem State.startCommand_response (s : State) (w : Word) :
    (s.startCommand w).response = s.response := rfl

/-! `State.writeBuffer` -/

@[simp] theorem State.writeBuffer_result (s : State) (o : Nat) (z : AccessSize) (v : Word) :
    (s.writeBuffer o z v).result = s.result := rfl
@[simp] theorem State.writeBuffer_lastOp (s : State) (o : Nat) (z : AccessSize) (v : Word) :
    (s.writeBuffer o z v).lastOp = s.lastOp := rfl
@[simp] theorem State.writeBuffer_excCode (s : State) (o : Nat) (z : AccessSize) (v : Word) :
    (s.writeBuffer o z v).excCode = s.excCode := rfl
@[simp] theorem State.writeBuffer_crc (s : State) (o : Nat) (z : AccessSize) (v : Word) :
    (s.writeBuffer o z v).crc = s.crc := rfl
@[simp] theorem State.writeBuffer_slave (s : State) (o : Nat) (z : AccessSize) (v : Word) :
    (s.writeBuffer o z v).slave = s.slave := rfl
@[simp] theorem State.writeBuffer_func (s : State) (o : Nat) (z : AccessSize) (v : Word) :
    (s.writeBuffer o z v).func = s.func := rfl
@[simp] theorem State.writeBuffer_addr (s : State) (o : Nat) (z : AccessSize) (v : Word) :
    (s.writeBuffer o z v).addr = s.addr := rfl
@[simp] theorem State.writeBuffer_qty (s : State) (o : Nat) (z : AccessSize) (v : Word) :
    (s.writeBuffer o z v).qty = s.qty := rfl
@[simp] theorem State.writeBuffer_txlen (s : State) (o : Nat) (z : AccessSize) (v : Word) :
    (s.writeBuffer o z v).txlen = s.txlen := rfl
@[simp] theorem State.writeBuffer_rxlen (s : State) (o : Nat) (z : AccessSize) (v : Word) :
    (s.writeBuffer o z v).rxlen = s.rxlen := rfl
@[simp] theorem State.writeBuffer_bytecount (s : State) (o : Nat) (z : AccessSize) (v : Word) :
    (s.writeBuffer o z v).bytecount = s.bytecount := rfl
@[simp] theorem State.writeBuffer_wcount (s : State) (o : Nat) (z : AccessSize) (v : Word) :
    (s.writeBuffer o z v).wcount = s.wcount := rfl
@[simp] theorem State.writeBuffer_scale (s : State) (o : Nat) (z : AccessSize) (v : Word) :
    (s.writeBuffer o z v).scale = s.scale := rfl
@[simp] theorem State.writeBuffer_raw (s : State) (o : Nat) (z : AccessSize) (v : Word) :
    (s.writeBuffer o z v).raw = s.raw := rfl
@[simp] theorem State.writeBuffer_scaled (s : State) (o : Nat) (z : AccessSize) (v : Word) :
    (s.writeBuffer o z v).scaled = s.scaled := rfl
@[simp] theorem State.writeBuffer_ref (s : State) (o : Nat) (z : AccessSize) (v : Word) :
    (s.writeBuffer o z v).ref = s.ref := rfl
@[simp] theorem State.writeBuffer_span (s : State) (o : Nat) (z : AccessSize) (v : Word) :
    (s.writeBuffer o z v).span = s.span := rfl
@[simp] theorem State.writeBuffer_mem (s : State) (o : Nat) (z : AccessSize) (v : Word) :
    (s.writeBuffer o z v).mem = Memory.setBytes s.mem o (leBytes (sizeBytes z) v.toNat) := rfl
@[simp] theorem State.writeBuffer_epoch (s : State) (o : Nat) (z : AccessSize) (v : Word) :
    (s.writeBuffer o z v).epoch = s.epoch := rfl
@[simp] theorem State.writeBuffer_params (s : State) (o : Nat) (z : AccessSize) (v : Word) :
    (s.writeBuffer o z v).params = s.params := rfl
@[simp] theorem State.writeBuffer_pending (s : State) (o : Nat) (z : AccessSize) (v : Word) :
    (s.writeBuffer o z v).pending = s.pending := rfl
@[simp] theorem State.writeBuffer_response (s : State) (o : Nat) (z : AccessSize) (v : Word) :
    (s.writeBuffer o z v).response = s.response := rfl

/-! `State.resetNow` -/

@[simp] theorem State.resetNow_result (s : State) : (s.resetNow).result = State.reset.result := rfl
@[simp] theorem State.resetNow_lastOp (s : State) : (s.resetNow).lastOp = State.reset.lastOp := rfl
@[simp] theorem State.resetNow_excCode (s : State) :
    (s.resetNow).excCode = State.reset.excCode := rfl
@[simp] theorem State.resetNow_crc (s : State) : (s.resetNow).crc = State.reset.crc := rfl
@[simp] theorem State.resetNow_slave (s : State) : (s.resetNow).slave = State.reset.slave := rfl
@[simp] theorem State.resetNow_func (s : State) : (s.resetNow).func = State.reset.func := rfl
@[simp] theorem State.resetNow_addr (s : State) : (s.resetNow).addr = State.reset.addr := rfl
@[simp] theorem State.resetNow_qty (s : State) : (s.resetNow).qty = State.reset.qty := rfl
@[simp] theorem State.resetNow_txlen (s : State) : (s.resetNow).txlen = State.reset.txlen := rfl
@[simp] theorem State.resetNow_rxlen (s : State) : (s.resetNow).rxlen = State.reset.rxlen := rfl
@[simp] theorem State.resetNow_bytecount (s : State) :
    (s.resetNow).bytecount = State.reset.bytecount := rfl
@[simp] theorem State.resetNow_wcount (s : State) : (s.resetNow).wcount = State.reset.wcount := rfl
@[simp] theorem State.resetNow_scale (s : State) : (s.resetNow).scale = State.reset.scale := rfl
@[simp] theorem State.resetNow_raw (s : State) : (s.resetNow).raw = State.reset.raw := rfl
@[simp] theorem State.resetNow_scaled (s : State) : (s.resetNow).scaled = State.reset.scaled := rfl
@[simp] theorem State.resetNow_ref (s : State) : (s.resetNow).ref = State.reset.ref := rfl
@[simp] theorem State.resetNow_span (s : State) : (s.resetNow).span = State.reset.span := rfl
@[simp] theorem State.resetNow_mem (s : State) : (s.resetNow).mem = State.reset.mem := rfl
@[simp] theorem State.resetNow_epoch (s : State) : (s.resetNow).epoch = s.epoch + 1 := rfl
@[simp] theorem State.resetNow_params (s : State) : (s.resetNow).params = s.params := rfl
@[simp] theorem State.resetNow_pending (s : State) : (s.resetNow).pending = s.pending := rfl
@[simp] theorem State.resetNow_response (s : State) :
    (s.resetNow).response = State.reset.response := rfl

/-! Reads see through an update that leaves what they read. -/

@[simp] theorem State.finish_byte (s : State) (c : ResultCode) (i : Nat) :
    (s.finish c).byte i = s.byte i := rfl
@[simp] theorem State.finish_txbuf (s : State) (c : ResultCode) (i : Nat) :
    (s.finish c).txbuf i = s.txbuf i := rfl
@[simp] theorem State.finish_rxbuf (s : State) (c : ResultCode) (i : Nat) :
    (s.finish c).rxbuf i = s.rxbuf i := rfl
@[simp] theorem State.finish_wbuf (s : State) (c : ResultCode) (i : Nat) :
    (s.finish c).wbuf i = s.wbuf i := rfl
@[simp] theorem State.finish_rxField (s : State) (c : ResultCode) (i : Nat) :
    (s.finish c).rxField i = s.rxField i := rfl
@[simp] theorem State.respond_byte (s : State) (r : BusResponse) (i : Nat) :
    (s.respond r).byte i = s.byte i := rfl
@[simp] theorem State.respond_txbuf (s : State) (r : BusResponse) (i : Nat) :
    (s.respond r).txbuf i = s.txbuf i := rfl
@[simp] theorem State.respond_rxbuf (s : State) (r : BusResponse) (i : Nat) :
    (s.respond r).rxbuf i = s.rxbuf i := rfl
@[simp] theorem State.respond_wbuf (s : State) (r : BusResponse) (i : Nat) :
    (s.respond r).wbuf i = s.wbuf i := rfl
@[simp] theorem State.respond_rxField (s : State) (r : BusResponse) (i : Nat) :
    (s.respond r).rxField i = s.rxField i := rfl
@[simp] theorem State.startCommand_byte (s : State) (w : Word) (i : Nat) :
    (s.startCommand w).byte i = s.byte i := rfl
@[simp] theorem State.startCommand_txbuf (s : State) (w : Word) (i : Nat) :
    (s.startCommand w).txbuf i = s.txbuf i := rfl
@[simp] theorem State.startCommand_rxbuf (s : State) (w : Word) (i : Nat) :
    (s.startCommand w).rxbuf i = s.rxbuf i := rfl
@[simp] theorem State.startCommand_wbuf (s : State) (w : Word) (i : Nat) :
    (s.startCommand w).wbuf i = s.wbuf i := rfl
@[simp] theorem State.startCommand_rxField (s : State) (w : Word) (i : Nat) :
    (s.startCommand w).rxField i = s.rxField i := rfl
@[simp] theorem State.raiseBusError_byte (s : State) (a : Nat) (i : Nat) :
    (s.raiseBusError a).byte i = s.byte i := rfl
@[simp] theorem State.raiseBusError_txbuf (s : State) (a : Nat) (i : Nat) :
    (s.raiseBusError a).txbuf i = s.txbuf i := rfl
@[simp] theorem State.raiseBusError_rxbuf (s : State) (a : Nat) (i : Nat) :
    (s.raiseBusError a).rxbuf i = s.rxbuf i := rfl
@[simp] theorem State.raiseBusError_wbuf (s : State) (a : Nat) (i : Nat) :
    (s.raiseBusError a).wbuf i = s.wbuf i := rfl
@[simp] theorem State.raiseBusError_rxField (s : State) (a : Nat) (i : Nat) :
    (s.raiseBusError a).rxField i = s.rxField i := rfl
@[simp] theorem State.protocolException_byte (s : State) (i : Nat) :
    (s.protocolException).byte i = s.byte i := rfl
@[simp] theorem State.protocolException_txbuf (s : State) (i : Nat) :
    (s.protocolException).txbuf i = s.txbuf i := rfl
@[simp] theorem State.protocolException_rxbuf (s : State) (i : Nat) :
    (s.protocolException).rxbuf i = s.rxbuf i := rfl
@[simp] theorem State.protocolException_wbuf (s : State) (i : Nat) :
    (s.protocolException).wbuf i = s.wbuf i := rfl
@[simp] theorem State.protocolException_rxField (s : State) (i : Nat) :
    (s.protocolException).rxField i = s.rxField i := rfl

end Sys2Proof.Machine
end

