-- ==== Sys2Proof/Laws/Memory.lean ====
section
/-! SUPPORT. The laws of the buffer memory: read after write, the canonical form, and the bytes and
words read through it. -/

namespace Sys2Proof.Machine

open Sys2Proof.Safety

@[simp] theorem Memory.get?_nil (a : Nat) : Memory.get? [] a = none := rfl

theorem Memory.get?_set (m : Memory) (a c : Nat) (b : Byte) :
    Memory.get? (Memory.set m a b) c = if a = c then some b else Memory.get? m c := by
  induction m with
  | nil => rfl
  | cons p m ih =>
    obtain ⟨k, x⟩ := p
    by_cases hlt : a < k
    · simp [Memory.set, hlt, Memory.get?]
    · by_cases heq : a = k
      · subst heq
        by_cases hc : a = c <;> simp [Memory.set, Memory.get?, hc]
      · by_cases hk : k = c
        · subst hk
          simp [Memory.set, hlt, heq, Memory.get?]
        · simp [Memory.set, hlt, heq, Memory.get?, hk, ih]

@[simp] theorem Memory.get?_set_self (m : Memory) (a : Nat) (b : Byte) :
    Memory.get? (Memory.set m a b) a = some b := by simp [Memory.get?_set]

theorem Memory.get?_set_other (m : Memory) {a c : Nat} (b : Byte) (h : a ≠ c) :
    Memory.get? (Memory.set m a b) c = Memory.get? m c := by simp [Memory.get?_set, h]

@[simp] theorem Memory.setBytes_nil (m : Memory) (a : Nat) : Memory.setBytes m a [] = m := rfl

@[simp] theorem Memory.setBytes_cons (m : Memory) (a : Nat) (b : Byte) (bs : List Byte) :
    Memory.setBytes m a (b :: bs) = Memory.setBytes (Memory.set m a b) (a + 1) bs := rfl

/-- Everything a write of several bytes does to a read of one. -/
theorem Memory.get?_setBytes (bs : List Byte) (m : Memory) (a c : Nat) :
    Memory.get? (Memory.setBytes m a bs) c =
      if a ≤ c ∧ c < a + bs.length then bs[c - a]? else Memory.get? m c := by
  induction bs generalizing m a with
  | nil => simp
  | cons b bs ih =>
    rw [Memory.setBytes_cons, ih, Memory.get?_set]
    rcases Nat.lt_trichotomy c a with h | h | h
    · have h1 : ¬ (a + 1 ≤ c ∧ c < a + 1 + bs.length) := by omega
      have h2 : ¬ (a ≤ c ∧ c < a + (b :: bs).length) := by omega
      have h3 : a ≠ c := by omega
      simp only [h1, h2, h3, if_false]
    · subst h
      simp
    · obtain ⟨d, rfl⟩ : ∃ d, c = a + 1 + d := ⟨c - (a + 1), by omega⟩
      have h3 : a ≠ a + 1 + d := by omega
      have h4 : a + 1 + d - a = d + 1 := by omega
      have h5 : a + 1 + d - (a + 1) = d := by omega
      simp only [h4, h5, h3, if_false, List.length_cons, List.getElem?_cons_succ]
      by_cases hd : d < bs.length
      · rw [if_pos (by omega), if_pos (by omega)]
      · rw [if_neg (by omega), if_neg (by omega)]

/-! The canonical form. -/

theorem Memory.wf_cons {p : Host.Cell} {m : Memory} :
    Memory.wf (p :: m) = true ↔ (∀ q ∈ m.head?, p.1 < q.1) ∧ Memory.wf m = true := by
  obtain ⟨a, x⟩ := p
  cases m with
  | nil => simp [Memory.wf]
  | cons q m => obtain ⟨c, y⟩ := q; simp [Memory.wf]

theorem Memory.head?_set (m : Memory) (a : Nat) (b : Byte) :
    ∀ q ∈ (Memory.set m a b).head?, q.1 = a ∨ ∃ r ∈ m.head?, q.1 = r.1 := by
  cases m with
  | nil => simp [Memory.set]
  | cons p m =>
    obtain ⟨c, x⟩ := p
    by_cases hlt : a < c
    · simp [Memory.set, hlt]
    · by_cases heq : a = c <;> simp [Memory.set, hlt, heq]

/-- A write of one byte keeps the canonical form. -/
theorem Memory.wf_set {m : Memory} (h : Memory.wf m = true) (a : Nat) (b : Byte) :
    Memory.wf (Memory.set m a b) = true := by
  induction m with
  | nil => rfl
  | cons p m ih =>
    obtain ⟨c, x⟩ := p
    obtain ⟨hd, hm⟩ := Memory.wf_cons.mp h
    by_cases hlt : a < c
    · simp only [Memory.set, hlt, if_true]
      exact Memory.wf_cons.mpr ⟨by simpa using hlt, h⟩
    · by_cases heq : a = c
      · subst heq
        simp only [Memory.set, hlt, if_false, if_true]
        exact Memory.wf_cons.mpr ⟨hd, hm⟩
      · simp only [Memory.set, hlt, heq, if_false]
        refine Memory.wf_cons.mpr ⟨fun q hq => ?_, ih hm⟩
        rcases Memory.head?_set m a b q hq with h1 | ⟨r, hr, h1⟩
        · show c < q.1
          omega
        · rw [h1]
          exact hd r hr

/-- A write of several bytes keeps the canonical form. -/
theorem Memory.wf_setBytes (bs : List Byte) {m : Memory} (h : Memory.wf m = true) (a : Nat) :
    Memory.wf (Memory.setBytes m a bs) = true := by
  induction bs generalizing m a with
  | nil => exact h
  | cons b bs ih => exact ih (Memory.wf_set h a b) (a + 1)

theorem Memory.mem_set {m : Memory} {a : Nat} {b : Byte} {p : Host.Cell}
    (h : p ∈ Memory.set m a b) : p = (a, b) ∨ p ∈ m := by
  induction m with
  | nil => simpa [Memory.set] using h
  | cons q m ih =>
    obtain ⟨c, x⟩ := q
    by_cases hlt : a < c
    · simpa [Memory.set, hlt] using h
    · by_cases heq : a = c
      · rw [Memory.set, if_neg hlt, if_pos heq, List.mem_cons] at h
        rcases h with h | h
        · exact .inl h
        · exact .inr (List.mem_cons_of_mem _ h)
      · rw [Memory.set, if_neg hlt, if_neg heq, List.mem_cons] at h
        rcases h with h | h
        · exact .inr (by simp [h])
        · exact (ih h).imp_right (List.mem_cons_of_mem _)

/-- A write of several bytes inside the buffers lists buffer bytes only. -/
theorem Memory.inBuffers_setBytes (bs : List Byte) {m : Memory} (h : inBuffers m) (a : Nat)
    (lo : 0x100 ≤ a) (hi : a + bs.length ≤ 0x400) : inBuffers (Memory.setBytes m a bs) := by
  induction bs generalizing m a with
  | nil => exact h
  | cons b bs ih =>
    rw [List.length_cons] at hi
    refine ih (fun c hc => ?_) (a + 1) (by omega) (by omega)
    rcases Memory.mem_set hc with rfl | hm
    · exact ⟨lo, by show a < 0x400; omega⟩
    · exact h c hm

/-! Bytes and words of the buffers. -/

/-- Everything a write of several bytes does to a read of one. -/
theorem State.byte_setBytes (s : State) (a c : Nat) (bs : List Byte) :
    (s.setBytes a bs).byte c =
      if a ≤ c ∧ c < a + bs.length then bs.getD (c - a) 0 else s.byte c := by
  simp only [State.byte, State.setBytes_mem, State.setBytes_epoch, Memory.get?_setBytes]
  split
  · have h : c - a < bs.length := by omega
    simp [List.getElem?_eq_getElem h, List.getD_eq_getElem?_getD]
  · rfl

theorem State.byte_setBytes_out (s : State) {a c : Nat} {bs : List Byte}
    (h : ¬ (a ≤ c ∧ c < a + bs.length)) : (s.setBytes a bs).byte c = s.byte c := by
  rw [State.byte_setBytes, if_neg h]

theorem State.byte_setBytes_in (s : State) {a k : Nat} {bs : List Byte} (h : k < bs.length) :
    (s.setBytes a bs).byte (a + k) = bs[k] := by
  rw [State.byte_setBytes, if_pos (by omega)]
  simp [List.getD_eq_getElem?_getD, h]

/-- A byte depends on the memory and the epoch only. -/
theorem State.byte_congr {s t : State} (hm : t.mem = s.mem) (he : t.epoch = s.epoch) (a : Nat) :
    t.byte a = s.byte a := by simp [State.byte, hm, he]

/-- A byte written since reset does not depend on the epoch. -/
theorem State.byte_of_written (s : State) (e : Nat) {a : Nat} (h : Memory.get? s.mem a ≠ none) :
    ({ s with epoch := e } : State).byte a = s.byte a := by
  obtain ⟨b, hb⟩ := Option.ne_none_iff_exists'.mp h
  simp [State.byte, hb]

theorem State.bytes_eq_map (s : State) (n a : Nat) :
    s.bytes a n = (List.range n).map (fun k => s.byte (a + k)) := rfl

@[simp] theorem State.length_bytes (s : State) (n a : Nat) : (s.bytes a n).length = n := by
  simp [State.bytes_eq_map]

theorem State.getElem?_bytes (s : State) (n a : Nat) {k : Nat} (h : k < n) :
    (s.bytes a n)[k]? = some (s.byte (a + k)) := by
  simp [State.bytes_eq_map, h]

/-- Two states with the same bytes in a range read the same byte sequence. -/
theorem State.bytes_congr {s t : State} (n a : Nat) (h : ∀ k, k < n → t.byte (a + k) = s.byte (a + k)) :
    t.bytes a n = s.bytes a n := by
  rw [State.bytes_eq_map, State.bytes_eq_map]
  exact List.map_congr_left fun k hk => h k (List.mem_range.mp hk)

/-- The bytes just written are the bytes read back. -/
theorem State.bytes_setBytes (s : State) (a : Nat) (bs : List Byte) :
    (s.setBytes a bs).bytes a bs.length = bs := by
  refine List.ext_getElem (by simp) fun k hk hk' => ?_
  have h := State.getElem?_bytes (s.setBytes a bs) bs.length a hk'
  rw [State.byte_setBytes_in s hk', List.getElem?_eq_getElem hk] at h
  exact Option.some.inj h

@[simp] theorem length_leBytes (n v : Nat) : (leBytes n v).length = n := by
  induction n generalizing v with
  | zero => rfl
  | succ n ih => simp [leBytes, ih]

@[simp] theorem length_littleEndian16 (w : Half) : (littleEndian16 w).length = 2 := rfl

@[simp] theorem length_bigEndian16 (w : Half) : (bigEndian16 w).length = 2 := rfl

@[simp] theorem length_appendCrc (b : List Byte) : (appendCrc b).length = b.length + 2 := by
  simp [appendCrc]

/-- A list made of byte pairs has twice as many bytes as pairs. -/
theorem length_flatMap_pairs {f : Nat → List Byte} (hf : ∀ i, (f i).length = 2) (n : Nat) :
    ((List.range n).flatMap f).length = 2 * n := by
  induction n with
  | zero => rfl
  | succ n ih => rw [List.range_succ, List.flatMap_append, List.length_append, ih]; simp [hf]; omega

/-- Byte `k` of pair `i` in a list made of byte pairs. -/
theorem getElem?_flatMap_pairs {f : Nat → List Byte} (hf : ∀ i, (f i).length = 2) {n i k : Nat}
    (hi : i < n) (hk : k < 2) : ((List.range n).flatMap f)[2 * i + k]? = (f i)[k]? := by
  induction n with
  | zero => omega
  | succ n ih =>
    rw [List.range_succ, List.flatMap_append]
    have hl := length_flatMap_pairs hf n
    by_cases h : i < n
    · rw [List.getElem?_append_left (by omega), ih h]
    · obtain rfl : i = n := by omega
      rw [List.getElem?_append_right (by omega), hl]
      simp

@[simp] theorem length_wbufValues (s : State) (n : Nat) : (wbufValues s n).length = 2 * n :=
  length_flatMap_pairs (fun _ => rfl) n

@[simp] theorem length_payloadBytes (s : State) (n : Nat) : (payloadBytes s n).length = 2 * n :=
  length_flatMap_pairs (fun _ => rfl) n

@[simp] theorem length_readRequestBody (s : State) : (readRequestBody s).length = 6 := rfl

@[simp] theorem length_writeRequestBody (s : State) (n : Nat) :
    (writeRequestBody s n).length = 7 + 2 * n := by
  simp [writeRequestBody]; omega

end Sys2Proof.Machine
end

