-- ==== Sys2Proof/Laws/Crc.lean ====
section
/-! SUPPORT. The CRC: what one shift and one step do, that they lose nothing, and the bytes of a 16-bit
value. -/

namespace Sys2Proof.Machine

/-- One shift, on numbers. -/
theorem toNat_crcShift (c : Half) : (crcShift c).toNat =
    if c.toNat % 2 = 1 then (c.toNat / 2) ^^^ 0xA001 else c.toNat / 2 := by
  have h0 : c.getLsbD 0 = decide (c.toNat % 2 = 1) := by simp [BitVec.getLsbD, Nat.testBit_zero]
  unfold crcShift
  rw [h0]
  by_cases h : c.toNat % 2 = 1 <;> simp [h, BitVec.toNat_xor, Nat.shiftRight_eq_div_pow]

/-- A shift loses nothing: bit 15 of the result tells whether the polynomial was added. -/
theorem crcShift_injective {c d : Half} (h : crcShift c = crcShift d) : c = d := by
  have hb : ∀ x : Half, (crcShift x).getLsbD 15 = x.getLsbD 0 := by
    intro x
    unfold crcShift
    split <;> simp_all
  have h0 : c.getLsbD 0 = d.getLsbD 0 := by rw [← hb c, ← hb d, h]
  have h1 : c >>> 1 = d >>> 1 := by
    unfold crcShift at h
    rw [h0] at h
    split at h
    · simpa [BitVec.xor_assoc] using congrArg (· ^^^ 0xA001#16) h
    · exact h
  apply BitVec.eq_of_getLsbD_eq
  intro i _
  cases i with
  | zero => exact h0
  | succ i => simpa [Nat.add_comm] using congrArg (·.getLsbD i) h1

theorem crcShifts_injective (n : Nat) {c d : Half} (h : crcShifts n c = crcShifts n d) : c = d := by
  induction n generalizing c d with
  | zero => exact h
  | succ n ih => exact crcShift_injective (ih h)

/-- For one byte, the old CRC can be told from the new one. -/
theorem crcStep_injective_crc {c d : Half} {b : Byte} (h : crcStep c b = crcStep d b) : c = d := by
  have := congrArg (· ^^^ b.setWidth 16) (crcShifts_injective 8 h)
  simpa [BitVec.xor_assoc] using this

/-- For one CRC, the byte can be told from the new one. -/
theorem crcStep_injective_byte {c : Half} {a b : Byte} (h : crcStep c a = crcStep c b) : a = b := by
  have := congrArg (c ^^^ ·) (crcShifts_injective 8 h)
  simp only [← BitVec.xor_assoc, BitVec.xor_self, BitVec.zero_xor] at this
  simpa using congrArg (·.setWidth 8) this

theorem crcFold_injective (bs : List Byte) {c d : Half}
    (h : bs.foldl crcStep c = bs.foldl crcStep d) : c = d := by
  induction bs generalizing c d with
  | nil => exact h
  | cons b bs ih => exact crcStep_injective_crc (ih h)

/-- The number of two bytes side by side. -/
theorem toNat_byte_append (a b : Byte) : (a ++ b : Half).toNat = a.toNat * 256 + b.toNat := by
  have h := b.isLt
  rw [BitVec.toNat_append, Nat.shiftLeft_eq, Nat.mul_comm, ← Nat.two_pow_add_eq_or_of_lt h]

theorem byte_append_injective {a b c d : Byte} (h : (a ++ b : Half) = c ++ d) : a = c ∧ b = d := by
  have h1 := congrArg BitVec.toNat h
  rw [toNat_byte_append, toNat_byte_append] at h1
  have := b.isLt
  have := d.isLt
  exact ⟨BitVec.eq_of_toNat_eq (by omega), BitVec.eq_of_toNat_eq (by omega)⟩

@[simp] theorem hi8_append_lo8 (w : Half) : hi8 w ++ lo8 w = w := by
  apply BitVec.eq_of_toNat_eq
  rw [toNat_byte_append]
  simp only [hi8, lo8, BitVec.extractLsb'_toNat, Nat.shiftRight_eq_div_pow]
  have := w.isLt
  omega

@[simp] theorem hi8_byte_append (a b : Byte) : hi8 (a ++ b) = a :=
  (byte_append_injective (hi8_append_lo8 (a ++ b))).1

@[simp] theorem lo8_byte_append (a b : Byte) : lo8 (a ++ b) = b :=
  (byte_append_injective (hi8_append_lo8 (a ++ b))).2

/-- The stored CRC of a frame whose CRC has been appended. -/
@[simp] theorem storedCrc_appendCrc (body : List Byte) :
    storedCrc (appendCrc body) = crc16 body := by
  simp [storedCrc, appendCrc, littleEndian16, List.getD_eq_getElem?_getD]

end Sys2Proof.Machine
end

