-- ==== Sys2Proof/Laws/Float.lean ====
section
/-! SUPPORT. Binary64: how a pattern is made of its sign and its fields, what rounding gives, and which
results are NaNs. Later proofs cite these and do not unfold `unpack` or `pack`. -/

namespace Sys2Proof.Machine.Float64

open Sys2Proof.Safety

/-- The pattern with a sign, and `f` as its exponent and fraction fields. -/
def ofFields (neg : Bool) (f : Nat) : Wide := BitVec.ofNat 64 ((if neg then 2 ^ 63 else 0) + f)

/-- The magnitude of a finite pattern's exponent and fraction fields. -/
def magOfFields (f : Nat) : Nat :=
  if f < 2 ^ 52 then f else (2 ^ 52 + f % 2 ^ 52) * 2 ^ (f / 2 ^ 52 - 1)

theorem pack_eq_ofFields (neg : Bool) (n d : Nat) :
    pack neg n d = ofFields neg (min (roundedFields n d) infFields) := rfl

theorem packInf_eq_ofFields (neg : Bool) : packInf neg = ofFields neg infFields := rfl

theorem one_pos : 0 < one := by
  unfold one
  positivity

theorem infFields_eq : infFields = 2047 * 2 ^ 52 := rfl

theorem toNat_ofFields (neg : Bool) {f : Nat} (h : f < 2 ^ 63) :
    (ofFields neg f).toNat = (if neg then 2 ^ 63 else 0) + f := by
  rw [ofFields, BitVec.toNat_ofNat, Nat.mod_eq_of_lt]
  split <;> omega

/-- What a pattern that is no NaN denotes. -/
theorem unpack_ofFields (neg : Bool) {f : Nat} (hf : f ≤ infFields) :
    unpack (ofFields neg f) = if f = infFields then .inf neg else .fin neg (magOfFields f) := by
  rw [infFields_eq] at *
  have hx := toNat_ofFields neg (f := f) (by omega)
  generalize ofFields neg f = x at hx
  have hn : x.getLsbD 63 = neg := by
    rw [BitVec.getLsbD, hx, Nat.testBit_eq_decide_div_mod_eq]
    cases neg <;> simp <;> omega
  have he : (x.extractLsb' 52 11).toNat = f / 2 ^ 52 := by
    rw [BitVec.extractLsb'_toNat, hx, Nat.shiftRight_eq_div_pow]
    cases neg <;> (simp; omega)
  have hr : (x.extractLsb' 0 52).toNat = f % 2 ^ 52 := by
    rw [BitVec.extractLsb'_toNat, hx]
    cases neg <;> (simp; try omega)
  simp only [unpack, magOfFields, hn, he, hr]
  by_cases h1 : f = 2047 * 2 ^ 52
  · subst h1
    simp
  · rw [if_neg h1, if_neg (show ¬ f / 2 ^ 52 = 2047 by omega)]
    by_cases h3 : f < 2 ^ 52
    · rw [if_pos (show f / 2 ^ 52 = 0 by omega), if_pos h3, Nat.mod_eq_of_lt h3]
    · rw [if_neg (show ¬ f / 2 ^ 52 = 0 by omega), if_neg h3]

theorem unpack_ofFields_fin (neg : Bool) {f : Nat} (hf : f < infFields) :
    unpack (ofFields neg f) = .fin neg (magOfFields f) := by
  rw [unpack_ofFields neg (by omega), if_neg (by omega)]

/-- The fields `e * 2^52 + r` denote `r * 2^e`. -/
theorem magOfFields_place {e r : Nat} (h : (e = 0 ∧ r ≤ 2 ^ 53) ∨ (2 ^ 52 ≤ r ∧ r ≤ 2 ^ 53)) :
    magOfFields (e * 2 ^ 52 + r) = r * 2 ^ e := by
  unfold magOfFields
  by_cases h0 : e * 2 ^ 52 + r < 2 ^ 52
  · obtain rfl : e = 0 := by omega
    simp only [h0, if_true]
    omega
  · rw [if_neg h0]
    by_cases hr : r = 2 ^ 53
    · subst hr
      rw [show (e * 2 ^ 52 + 2 ^ 53) % 2 ^ 52 = 0 by omega,
        show (e * 2 ^ 52 + 2 ^ 53) / 2 ^ 52 - 1 = e + 1 by omega, pow_succ]
      omega
    · rw [show (e * 2 ^ 52 + r) % 2 ^ 52 = r - 2 ^ 52 by omega,
        show (e * 2 ^ 52 + r) / 2 ^ 52 - 1 = e by omega, show 2 ^ 52 + (r - 2 ^ 52) = r by omega]

/-- Every finite pattern's fields have the form `e * 2^52 + r`. -/
theorem fields_place {f : Nat} (hf : f < infFields) :
    ∃ e r, f = e * 2 ^ 52 + r ∧ ((e = 0 ∧ r < 2 ^ 53) ∨ (2 ^ 52 ≤ r ∧ r < 2 ^ 53)) ∧ e ≤ 2045 := by
  rw [infFields_eq] at hf
  by_cases h : f < 2 ^ 53
  · exact ⟨0, f, by omega, .inl ⟨rfl, h⟩, by omega⟩
  · exact ⟨f / 2 ^ 52 - 1, 2 ^ 52 + f % 2 ^ 52, by omega, .inr ⟨by omega, by omega⟩, by omega⟩

/-- A pattern is the sign and the fields below it. -/
theorem eq_ofFields (x : Wide) : x = ofFields (x.getLsbD 63) (x.toNat % 2 ^ 63) := by
  have hx := x.isLt
  apply BitVec.eq_of_toNat_eq
  rw [toNat_ofFields _ (by omega), BitVec.getLsbD, Nat.testBit_eq_decide_div_mod_eq]
  by_cases h : 2 ^ 63 ≤ x.toNat
  · rw [if_pos (by simp; omega)]
    omega
  · rw [if_neg (by simp; omega)]
    omega

theorem nanPattern_iff (x : Wide) : nanPattern x ↔ unpack x = .nan := by
  unfold nanPattern unpack
  simp only
  split
  · rename_i h
    rw [and_iff_right h]
    split
    · rename_i h0
      exact iff_of_false (fun hc => hc h0) (by simp)
    · rename_i h0
      exact iff_of_true h0 rfl
  · rename_i h
    simp only [h, false_and, false_iff]
    split <;> simp

theorem isNaN_iff (x : Wide) : isNaN x = true ↔ nanPattern x := by
  rw [nanPattern_iff]
  simp [isNaN]

/-- The fields of a pattern that is no NaN are at most those of infinity. -/
theorem fields_le_of_not_nan {x : Wide} (h : unpack x ≠ .nan) : x.toNat % 2 ^ 63 ≤ infFields := by
  by_contra hc
  refine h ((nanPattern_iff x).mp ?_)
  rw [infFields_eq] at hc
  unfold nanPattern
  rw [BitVec.extractLsb'_toNat, BitVec.extractLsb'_toNat, Nat.shiftRight_eq_div_pow]
  simp
  omega

/-- A finite pattern is made of its sign and the fields of its magnitude. -/
theorem fin_form {x : Wide} {a : Bool} {m : Nat} (h : unpack x = .fin a m) :
    ∃ f, f < infFields ∧ x = ofFields a f ∧ m = magOfFields f := by
  have hx := eq_ofFields x
  have hf := fields_le_of_not_nan (x := x) (by simp [h])
  have hu := unpack_ofFields (x.getLsbD 63) hf
  rw [← hx, h] at hu
  split at hu
  · cases hu
  · obtain ⟨rfl, rfl⟩ := Datum.fin.inj hu
    exact ⟨_, by omega, hx, rfl⟩

/-- An infinite pattern is the infinity of its sign. -/
theorem inf_form {x : Wide} {a : Bool} (h : unpack x = .inf a) : x = packInf a := by
  have hx := eq_ofFields x
  have hf := fields_le_of_not_nan (x := x) (by simp [h])
  have hu := unpack_ofFields (x.getLsbD 63) hf
  rw [← hx, h] at hu
  split at hu
  · rename_i hi
    obtain rfl := Datum.inf.inj hu
    rw [packInf_eq_ofFields, ← hi]
    exact hx
  · cases hu

/-! Rounding. -/

theorem roundTiesEven_bounds (n d : Nat) : n / d ≤ roundTiesEven n d ∧ roundTiesEven n d ≤ n / d + 1 := by
  unfold roundTiesEven
  simp only
  split
  · omega
  · split <;> omega

/-- A whole number is not rounded. -/
theorem roundTiesEven_exact (k : Nat) {d : Nat} (hd : 0 < d) : roundTiesEven (k * d) d = k := by
  unfold roundTiesEven
  simp [Nat.mul_div_cancel _ hd, hd]

/-- No whole number lies nearer to `n / d` than the one `roundTiesEven` gives, and one that lies as near
leaves an even result. -/
theorem roundTiesEven_nearest (n k : Nat) {d : Nat} (hd : 0 < d) :
    (((roundTiesEven n d : Nat) : Int) * d - n).natAbs ≤ ((k : Int) * d - n).natAbs ∧
    ((((roundTiesEven n d : Nat) : Int) * d - n).natAbs = ((k : Int) * d - n).natAbs →
      k ≠ roundTiesEven n d → roundTiesEven n d % 2 = 0) := by
  have hdm := Nat.div_add_mod n d
  have hr := Nat.mod_lt n hd
  unfold roundTiesEven
  simp only
  generalize n / d = q at *
  generalize n % d = r at *
  subst hdm
  have ek : ((k : Int) * d - ((d * q + r : Nat) : Int)) = ((k : Int) - q) * d - r := by push_cast; ring
  have e0 : ((q : Int) * d - ((d * q + r : Nat) : Int)) = -r := by push_cast; ring
  have e1 : (((q + 1 : Nat) : Int) * d - ((d * q + r : Nat) : Int)) = d - r := by push_cast; ring
  rw [ek]
  have far : ((k : Int) - q = 0) ∨ ((k : Int) - q = 1) ∨ 2 * (d : Int) ≤ ((k : Int) - q) * d ∨
      ((k : Int) - q) * (d : Int) ≤ -d := by
    rcases (by omega : (k : Int) - q = 0 ∨ (k : Int) - q = 1 ∨ 2 ≤ (k : Int) - q ∨
      (k : Int) - q ≤ -1) with h | h | h | h
    · exact .inl h
    · exact .inr (.inl h)
    · exact .inr (.inr (.inl (by nlinarith)))
    · exact .inr (.inr (.inr (by nlinarith)))
  split
  · rw [e0]
    rcases far with h | h | h | h
    · rw [h]
      omega
    · rw [h]
      omega
    · generalize ((k : Int) - q) * d = y at *
      omega
    · generalize ((k : Int) - q) * d = y at *
      omega
  · split
    · rw [e1]
      rcases far with h | h | h | h
      · rw [h]
        omega
      · rw [h]
        omega
      · generalize ((k : Int) - q) * d = y at *
        omega
      · generalize ((k : Int) - q) * d = y at *
        omega
    · have h2 : 2 * r = d := by omega
      rcases Nat.mod_two_eq_zero_or_one q with hq | hq
      · rw [hq, Nat.add_zero, e0]
        refine ⟨?_, fun _ _ => hq⟩
        rcases far with h | h | h | h
        · rw [h]
          omega
        · rw [h]
          omega
        · generalize ((k : Int) - q) * d = y at *
          omega
        · generalize ((k : Int) - q) * d = y at *
          omega
      · rw [hq, e1]
        refine ⟨?_, fun _ _ => by omega⟩
        rcases far with h | h | h | h
        · rw [h]
          omega
        · rw [h]
          omega
        · generalize ((k : Int) - q) * d = y at *
          omega
        · generalize ((k : Int) - q) * d = y at *
          omega

/-- The whole part lies below 2^53 units, or the last place holds 53 bits of it. -/
theorem lastPlace_cases (q : Nat) :
    (lastPlace q = 0 ∧ q < 2 ^ 53) ∨
    (0 < lastPlace q ∧ 2 ^ (52 + lastPlace q) ≤ q ∧ q < 2 ^ (53 + lastPlace q)) := by
  unfold lastPlace
  by_cases h : q < 2 ^ 53
  · refine .inl ⟨?_, h⟩
    rcases Nat.eq_zero_or_pos q with rfl | hq
    · simp
    · have := (Nat.log2_lt (by omega)).mpr h
      omega
  · have h1 : 53 ≤ Nat.log2 q := (Nat.le_log2 (by omega)).mpr (by omega)
    have h2 := Nat.log2_self_le (n := q) (by omega)
    have h3 := Nat.lt_log2_self (n := q)
    refine .inr ⟨by omega, ?_, ?_⟩
    · rwa [show 52 + (Nat.log2 q - 52) = Nat.log2 q by omega]
    · rwa [show 53 + (Nat.log2 q - 52) = Nat.log2 q + 1 by omega]

/-- The rounded significand keeps its place, up to a carry into the next one. -/
theorem rounded_place (n d : Nat) :
    let e := lastPlace (n / d)
    let r := roundTiesEven n (d * 2 ^ e)
    (e = 0 ∧ r ≤ 2 ^ 53) ∨ (2 ^ 52 ≤ r ∧ r ≤ 2 ^ 53) := by
  intro e r
  have hb : n / d / 2 ^ e ≤ r ∧ r ≤ n / d / 2 ^ e + 1 := by
    rw [Nat.div_div_eq_div_mul]
    exact roundTiesEven_bounds n (d * 2 ^ e)
  rcases lastPlace_cases (n / d) with ⟨h, hq⟩ | ⟨h0, h1, h2⟩
  · refine .inl ⟨h, ?_⟩
    rw [show e = 0 from h] at hb
    omega
  · have h3 : 2 ^ 52 ≤ n / d / 2 ^ e := by
      rw [Nat.le_div_iff_mul_le (by positivity), ← pow_add]
      exact h1
    have h4 : n / d / 2 ^ e < 2 ^ 53 := by
      rw [Nat.div_lt_iff_lt_mul (by positivity), ← pow_add]
      exact h2
    omega

/-- A magnitude that does not round beyond the largest finite one: the value packed. -/
theorem unpack_pack_fin (neg : Bool) {n d : Nat} (h : roundedFields n d < infFields) :
    unpack (pack neg n d) =
      .fin neg (roundTiesEven n (d * 2 ^ lastPlace (n / d)) * 2 ^ lastPlace (n / d)) := by
  rw [pack_eq_ofFields, Nat.min_eq_left (by omega), unpack_ofFields_fin neg h]
  exact congrArg _ (magOfFields_place (rounded_place n d))

theorem unpack_pack_inf (neg : Bool) {n d : Nat} (h : infFields ≤ roundedFields n d) :
    unpack (pack neg n d) = .inf neg := by
  rw [pack_eq_ofFields, Nat.min_eq_right h, unpack_ofFields neg (Nat.le_refl _), if_pos rfl]

/-- A representable magnitude is packed into its own fields. -/
theorem roundedFields_exact {e r d : Nat} (hd : 0 < d)
    (h : (e = 0 ∧ r < 2 ^ 53) ∨ (2 ^ 52 ≤ r ∧ r < 2 ^ 53)) :
    roundedFields (r * 2 ^ e * d) d = e * 2 ^ 52 + r := by
  have hl : lastPlace (r * 2 ^ e) = e := by
    rcases lastPlace_cases (r * 2 ^ e) with ⟨h0, h1⟩ | ⟨h0, h1, h2⟩
    · rcases h with ⟨rfl, _⟩ | ⟨ha, hb⟩
      · exact h0
      · by_contra hne
        have : 2 ^ 1 ≤ 2 ^ e := Nat.pow_le_pow_right (by omega) (by omega)
        nlinarith
    · rcases h with ⟨rfl, hr⟩ | ⟨ha, hb⟩
      · have : 2 ^ 53 ≤ 2 ^ (52 + lastPlace (r * 2 ^ 0)) := Nat.pow_le_pow_right (by omega) (by omega)
        omega
      · have h3 : 2 ^ (52 + e) ≤ r * 2 ^ e := by
          rw [pow_add]
          exact Nat.mul_le_mul_right _ ha
        have h4 : r * 2 ^ e < 2 ^ (53 + e) := by
          rw [pow_add]
          exact Nat.mul_lt_mul_of_pos_right hb (by positivity)
        have h5 := (Nat.pow_lt_pow_iff_right (a := 2) (by omega)).mp (lt_of_le_of_lt h1 h4)
        have h6 := (Nat.pow_lt_pow_iff_right (a := 2) (by omega)).mp (lt_of_le_of_lt h3 h2)
        omega
  unfold roundedFields
  rw [Nat.mul_div_cancel _ hd, hl]
  show e * 2 ^ 52 + roundTiesEven (r * 2 ^ e * d) (d * 2 ^ e) = _
  rw [show r * 2 ^ e * d = r * (d * 2 ^ e) by ring, roundTiesEven_exact _ (by positivity)]

/-- Packing a finite pattern's magnitude gives the pattern back. -/
theorem pack_magOfFields (neg : Bool) {f d : Nat} (hd : 0 < d) (hf : f < infFields) :
    pack neg (magOfFields f * d) d = ofFields neg f := by
  obtain ⟨e, r, rfl, h, _⟩ := fields_place hf
  rw [magOfFields_place (by omega), pack_eq_ofFields, roundedFields_exact hd h,
    Nat.min_eq_left (by omega)]

/-- A representable magnitude is packed exactly. -/
theorem unpack_pack_exact (neg : Bool) {e r d : Nat} (hd : 0 < d) (he : e ≤ 2045)
    (h : (e = 0 ∧ r < 2 ^ 53) ∨ (2 ^ 52 ≤ r ∧ r < 2 ^ 53)) :
    unpack (pack neg (r * 2 ^ e * d) d) = .fin neg (r * 2 ^ e) := by
  have hf : e * 2 ^ 52 + r < infFields := by
    rw [infFields_eq]
    omega
  rw [pack_eq_ofFields, roundedFields_exact hd h, Nat.min_eq_left (by omega),
    unpack_ofFields_fin neg hf, magOfFields_place (by omega)]

/-- A magnitude of at most 53 significant bits is packed exactly, wherever they stand. -/
theorem unpack_pack_scaled (neg : Bool) {n j d : Nat} (hd : 0 < d) (hn : n < 2 ^ 53) (hj : j ≤ 1980) :
    unpack (pack neg (n * 2 ^ j * d) d) = .fin neg (n * 2 ^ j) := by
  by_cases h0 : n = 0
  · subst h0
    simpa using unpack_pack_exact neg (e := 0) (r := 0) hd (by omega) (.inl ⟨rfl, by norm_num⟩)
  have key : ∀ t n j, n < 2 ^ 53 → 2 ^ 53 ≤ n * 2 ^ t → j ≤ 1980 →
      ∃ e r, n * 2 ^ j = r * 2 ^ e ∧ e ≤ 2045 ∧
        ((e = 0 ∧ r < 2 ^ 53) ∨ (2 ^ 52 ≤ r ∧ r < 2 ^ 53)) := by
    intro t
    induction t with
    | zero =>
      intro n j h1 h2
      omega
    | succ t ih =>
      intro n j h1 h2 hj
      by_cases hb : 2 ^ 52 ≤ n
      · exact ⟨j, n, rfl, by omega, .inr ⟨hb, h1⟩⟩
      · cases j with
        | zero => exact ⟨0, n, rfl, by omega, .inl ⟨rfl, h1⟩⟩
        | succ j =>
          obtain ⟨e, r, h3, h4⟩ := ih (2 * n) j (by omega)
            (by rw [Nat.mul_comm 2 n, Nat.mul_assoc, ← pow_succ']; exact h2) (by omega)
          exact ⟨e, r, by rw [← h3, pow_succ]; ring, h4⟩
  obtain ⟨e, r, h1, h2, h3⟩ := key 53 n j hn (by nlinarith [Nat.pos_of_ne_zero h0]) hj
  rw [h1]
  exact unpack_pack_exact neg hd h2 h3

/-! Which results are NaNs. -/

theorem unpack_pack_ne_nan (neg : Bool) (n d : Nat) : unpack (pack neg n d) ≠ .nan := by
  rw [pack_eq_ofFields, unpack_ofFields neg (Nat.min_le_right _ _)]
  split <;> simp

theorem unpack_packInf (neg : Bool) : unpack (packInf neg) = .inf neg := by
  rw [packInf_eq_ofFields, unpack_ofFields neg (Nat.le_refl _), if_pos rfl]

theorem unpack_canonicalNaN : unpack canonicalNaN = .nan := by decide

/-- A multiplication gives a packed value, an infinity or the canonical NaN. -/
theorem fmul_cases (x y : Wide) :
    fmul x y = canonicalNaN ∨ (∃ a, fmul x y = packInf a) ∨ ∃ a n d, fmul x y = pack a n d := by
  unfold fmul
  cases unpack x <;> cases unpack y <;> simp only <;> (try split) <;>
    first
    | exact .inl trivial
    | exact .inl (by with_reducible rfl)
    | exact .inr (.inl ⟨_, by with_reducible rfl⟩)
    | exact .inr (.inr ⟨_, _, _, by with_reducible rfl⟩)

/-- An addition gives a packed value, an infinity or the canonical NaN. -/
theorem fadd_cases (x y : Wide) :
    fadd x y = canonicalNaN ∨ (∃ a, fadd x y = packInf a) ∨ ∃ a n d, fadd x y = pack a n d := by
  unfold fadd
  cases unpack x <;> cases unpack y <;> simp only <;> (try split) <;>
    first
    | exact .inl trivial
    | exact .inl (by with_reducible rfl)
    | exact .inr (.inl ⟨_, by with_reducible rfl⟩)
    | exact .inr (.inr ⟨_, _, _, by with_reducible rfl⟩)

/-- A division gives a packed value, an infinity or the canonical NaN. -/
theorem fdiv_cases (x y : Wide) :
    fdiv x y = canonicalNaN ∨ (∃ a, fdiv x y = packInf a) ∨ ∃ a n d, fdiv x y = pack a n d := by
  unfold fdiv
  cases unpack x <;> cases unpack y <;> simp only <;> (try split) <;> (try split) <;>
    first
    | exact .inl trivial
    | exact .inl (by with_reducible rfl)
    | exact .inr (.inl ⟨_, by with_reducible rfl⟩)
    | exact .inr (.inr ⟨_, _, _, by with_reducible rfl⟩)

/-! Signs, zeros and comparisons. -/

/-- Exchanging the sign of a pattern made of a sign and fields. -/
theorem negate_ofFields (neg : Bool) {f : Nat} (hf : f < 2 ^ 63) :
    negate (ofFields neg f) = ofFields (!neg) f := by
  have key : (ofFields false f) ^^^ (0x8000000000000000 : Wide) = ofFields true f := by
    apply BitVec.eq_of_toNat_eq
    rw [BitVec.toNat_xor, toNat_ofFields _ hf, toNat_ofFields _ hf]
    show (0 + f) ^^^ 2 ^ 63 = 2 ^ 63 + f
    have h := Nat.two_pow_add_eq_or_of_lt hf 1
    rw [mul_one] at h
    rw [h, Nat.zero_add]
    apply Nat.eq_of_testBit_eq
    intro i
    by_cases hi : i = 63
    · subst hi
      simp [Nat.testBit_lt_two_pow hf]
    · rw [Nat.testBit_xor, Nat.testBit_or, Nat.testBit_two_pow]
      simp [Ne.symm hi]
  cases neg
  · exact key
  · show negate (ofFields true f) = ofFields false f
    rw [negate, ← key, BitVec.xor_assoc, BitVec.xor_self, BitVec.xor_zero]

theorem unpack_negate_fin {x : Wide} {a : Bool} {m : Nat} (h : unpack x = .fin a m) :
    unpack (negate x) = .fin (!a) m := by
  obtain ⟨f, hf, rfl, rfl⟩ := fin_form h
  rw [negate_ofFields _ (by rw [infFields_eq] at hf; omega), unpack_ofFields_fin _ hf]

theorem unpack_negate_inf {x : Wide} {a : Bool} (h : unpack x = .inf a) :
    unpack (negate x) = .inf (!a) := by
  rw [inf_form h, packInf_eq_ofFields, negate_ofFields _ (by rw [infFields_eq]; omega),
    ← packInf_eq_ofFields, unpack_packInf]

theorem negate_negate (x : Wide) : negate (negate x) = x := by
  rw [negate, negate, BitVec.xor_assoc, BitVec.xor_self, BitVec.xor_zero]

theorem unpack_negate_nan {x : Wide} (h : unpack x = .nan) : unpack (negate x) = .nan := by
  cases hx : unpack (negate x) with
  | nan => rfl
  | inf a =>
    have := unpack_negate_inf hx
    rw [negate_negate, h] at this
    cases this
  | fin a m =>
    have := unpack_negate_fin hx
    rw [negate_negate, h] at this
    cases this

/-- The infinite patterns. -/
theorem unpack_inf_iff (x : Wide) (a : Bool) :
    unpack x = .inf a ↔ x = if a then 0xFFF0000000000000 else 0x7FF0000000000000 := by
  have hp : packInf a = if a then 0xFFF0000000000000 else 0x7FF0000000000000 := by cases a <;> rfl
  rw [← hp]
  exact ⟨inf_form, fun h => h ▸ unpack_packInf a⟩

/-- The zero patterns. -/
theorem unpack_zero_iff (x : Wide) (a : Bool) :
    unpack x = .fin a 0 ↔ x = if a then 0x8000000000000000 else 0x0000000000000000 := by
  constructor
  · intro h
    obtain ⟨f, hf, rfl, hm⟩ := fin_form h
    obtain rfl : f = 0 := by
      unfold magOfFields at hm
      split at hm
      · exact hm.symm
      · exact absurd hm.symm (by positivity)
    cases a <;> rfl
  · rintro rfl
    cases a <;> decide

theorem pack_zero (a : Bool) :
    pack a 0 1 = if a then 0x8000000000000000 else 0x0000000000000000 := by cases a <;> decide

/-- Where the infinities stand: beyond 100.0 on either side. -/
theorem position_inf : ∃ p : Nat, 100 * 2 ^ 1074 < p ∧
    ∀ a, position (.inf a) = some (if a then -(p : Int) else p) := by
  refine ⟨2 ^ 2200, ?_, fun _ => rfl⟩
  rw [show (2200 : Nat) = 1126 + 1074 from rfl, pow_add]
  refine Nat.mul_lt_mul_of_pos_right ?_ (by positivity)
  exact lt_of_lt_of_le (by norm_num : 100 < 2 ^ 7) (Nat.pow_le_pow_right (by omega) (by omega))

theorem position_fin (a : Bool) (m : Nat) : position (.fin a m) = some (if a then -(m : Int) else m) :=
  rfl

/-- `x < 0.0`: below zero lie negative infinity and the negative finite values, and -0.0 does not. -/
theorem flt_zero_iff (x : Wide) :
    flt x 0x0000000000000000 = true ↔ unpack x = .inf true ∨ ∃ m, m ≠ 0 ∧ unpack x = .fin true m := by
  have hz : unpack 0x0000000000000000 = .fin false 0 := by decide
  obtain ⟨p, hp, hi⟩ := position_inf
  have hp : 0 < p := by omega
  unfold flt
  rw [hz, position_fin]
  cases unpack x with
  | nan => simp [position]
  | inf a =>
    rw [hi]
    cases a <;> simp <;> omega
  | fin a m =>
    rw [position_fin]
    cases a <;> simp <;> omega

theorem unpack_hundred : unpack 0x4059000000000000 = .fin false (100 * 2 ^ 1074) := by decide +kernel

/-- `x > 100.0`: positive infinity and the finite values above 100. -/
theorem flt_hundred_iff (x : Wide) :
    flt 0x4059000000000000 x = true ↔
      unpack x = .inf false ∨ ∃ m, 100 * 2 ^ 1074 < m ∧ unpack x = .fin false m := by
  obtain ⟨p, hp, hi⟩ := position_inf
  unfold flt
  rw [unpack_hundred, position_fin]
  generalize (100 * 2 ^ 1074 : Nat) = u at *
  cases unpack x with
  | nan => simp [position]
  | inf a =>
    rw [hi]
    cases a <;> simp <;> omega
  | fin a m =>
    rw [position_fin]
    cases a <;> simp
end Sys2Proof.Machine.Float64
end

