-- ==== Sys2Proof/Laws/Exec.lean ====
section
/-! SUPPORT. What each meaning can do, said once: for every command, the shapes its next state can have
and the guards they come with. Later proofs cite these and do not unfold a meaning. -/

namespace Sys2Proof.Machine

open Sys2Proof.Safety

@[simp] theorem mapNext_next (f : State → State) (s : State) : mapNext f (.next s) = .next (f s) := rfl

@[simp] theorem mapNext_fault (f : State → State) (r : Fault) : mapNext f (.fault r) = .fault r := rfl

@[simp] theorem mapNext_refused (f : State → State) (r : Refusal) :
    mapNext f (.refused r) = .refused r := rfl

/-- If a mapped outcome is a next state, so is the outcome. -/
theorem mapNext_cases {f : State → State} {o : Out} {t : State} (h : mapNext f o = .next t) :
    ∃ u, o = .next u ∧ t = f u := by
  cases o with
  | next u => exact ⟨u, rfl, (Host.Outcome.next.inj h).symm⟩
  | fault r => cases h
  | refused r => cases h

theorem execCrcCompute_cases {buf : BufSel} {len : Nat} {s t : State}
    (h : execCrcCompute buf len s = .next t) :
    (256 < len ∧ t = s.finish .invalidArgument) ∨
    (len ≤ 256 ∧ t = { s with crc := crc16 (s.bytes (bufOffset buf 0) len) }.finish .success) := by
  have h := Host.Outcome.next.inj h
  split at h
  · exact .inl ⟨‹_›, h.symm⟩
  · exact .inr ⟨by omega, h.symm⟩

theorem execCrcVerify_cases {buf : BufSel} {len : Nat} {s t : State}
    (h : execCrcVerify buf len s = .next t) :
    (256 < len ∧ t = s.finish .invalidArgument) ∨
    (len ≤ 256 ∧ verify (s.bytes (bufOffset buf 0) len) = true ∧ t = s.finish .success) ∨
    (len ≤ 256 ∧ verify (s.bytes (bufOffset buf 0) len) = false ∧ t = s.finish .invalidCrc) := by
  have h := Host.Outcome.next.inj h
  split at h
  · exact .inl ⟨‹_›, h.symm⟩
  · split at h
    · exact .inr (.inl ⟨by omega, ‹_›, h.symm⟩)
    · rename_i hv
      exact .inr (.inr ⟨by omega, by simpa using hv, h.symm⟩)

theorem writeCountRejected_iff (s : State) (n : Nat) :
    writeCountRejected s n = true ↔ n = 0 ∨ n > s.params.maxWriteRegs ∨ 9 + 2 * n > 256 := by
  simp [writeCountRejected, Config.maxFrame, or_assoc]

theorem execBuildWriteMultiple_cases {s t : State} (h : execBuildWriteMultiple s = .next t) :
    (writeCountRejected s s.qty.toNat = true ∧ t = s.finish .invalidArgument) ∨
    (writeCountRejected s s.qty.toNat = false ∧
      t = (s.placeFrame (appendCrc (writeRequestBody s s.qty.toNat))).finish .success) := by
  have h := Host.Outcome.next.inj h
  split at h
  · exact .inl ⟨‹_›, h.symm⟩
  · rename_i hr
    exact .inr ⟨by simpa using hr, h.symm⟩

/-- The guards of a successful PARSE_READ. -/
def ReadAccepted (s : State) : Prop :=
  5 ≤ s.rxlen.toNat ∧ s.rxlen.toNat ≤ 256 ∧ verify (s.received s.rxlen.toNat) = true ∧
  s.isExceptionResponse = false ∧ s.headerMatches = true ∧ (s.rxbuf 2).getLsbD 0 = false ∧
  s.rxlen.toNat = (s.rxbuf 2).toNat + 5

theorem execParseRead_cases {s t : State} (h : execParseRead s = .next t) :
    (∃ c, c ∈ [ResultCode.timeout, .invalidCrc, .malformedResponse, .invalidArgument] ∧
      t = s.finish c) ∨
    (5 ≤ s.rxlen.toNat ∧ s.rxlen.toNat ≤ 256 ∧ t = s.protocolException) ∨
    (ReadAccepted s ∧ t = s.acceptPayload.finish .success) := by
  have h := Host.Outcome.next.inj h
  split at h
  · exact .inl ⟨_, by simp, h.symm⟩
  split at h
  · refine .inl ⟨shortResponse s.rxlen.toNat, ?_, h.symm⟩
    unfold shortResponse
    split <;> simp
  split at h
  · exact .inl ⟨_, by simp, h.symm⟩
  split at h
  · exact .inr (.inl ⟨by omega, by omega, h.symm⟩)
  split at h
  · exact .inl ⟨_, by simp, h.symm⟩
  split at h
  · exact .inl ⟨_, by simp, h.symm⟩
  · rename_i h1 h2 h3 h4 h5 h6
    simp only [Bool.or_eq_true, not_or, bne_iff_ne, ne_eq, not_not, Bool.not_eq_true,
      Bool.not_eq_eq_eq_not, Bool.not_true, Bool.not_eq_false] at h3 h4 h5 h6
    exact .inr (.inr ⟨⟨by omega, by omega, h3, h4, h5, h6.1, h6.2⟩, h.symm⟩)

theorem execParseWrite_cases {s t : State} (h : execParseWrite s = .next t) :
    (∃ c, c ∈ [ResultCode.success, .timeout, .invalidCrc, .malformedResponse, .invalidArgument] ∧
      t = s.finish c) ∨
    (5 ≤ s.rxlen.toNat ∧ s.rxlen.toNat ≤ 256 ∧ t = s.protocolException) := by
  have h := Host.Outcome.next.inj h
  split at h
  · exact .inl ⟨_, by simp, h.symm⟩
  split at h
  · rename_i h1 h2
    simp only [Bool.and_eq_true, decide_eq_true_eq] at h2
    split at h
    · exact .inl ⟨_, by simp, h.symm⟩
    · exact .inr ⟨h2.1.1.2, by omega, h.symm⟩
  split at h
  · refine .inl ⟨shortResponse s.rxlen.toNat, ?_, h.symm⟩
    unfold shortResponse
    split <;> simp
  split at h
  · exact .inl ⟨_, by simp, h.symm⟩
  split at h
  · exact .inr ⟨by omega, by omega, h.symm⟩
  split at h
  · exact .inl ⟨_, by simp, h.symm⟩
  split at h
  · exact .inl ⟨_, by simp, h.symm⟩
  split at h <;> exact .inl ⟨_, by simp, h.symm⟩

theorem execDecode_cases {ty : PrimType} {o : ByteOrder} {s t : State}
    (h : execDecode ty o s = .next t) :
    ((s.wcount.toNat < wordsNeeded ty ∨ orderSupported ty o = false) ∧
      t = s.finish .invalidArgument) ∨
    (wordsNeeded ty ≤ s.wcount.toNat ∧ orderSupported ty o = true ∧
      t = { s with
        raw := s.pattern ty o
        scaled := Float64.fmul (interpret ty (s.pattern ty o)) s.scale }.finish .success) := by
  have h := Host.Outcome.next.inj h
  split at h
  · exact .inl ⟨.inl ‹_›, h.symm⟩
  split at h
  · rename_i ho
    exact .inl ⟨.inr (by simpa using ho), h.symm⟩
  · rename_i ho
    exact .inr ⟨by omega, by simpa using ho, h.symm⟩

theorem execDecodeIntfrac_cases {n : IntWords} {io fo : ByteOrder} {s t : State}
    (h : execDecodeIntfrac n io fo s = .next t) :
    ((s.wcount.toNat < intWordCount n + 2 ∨ orderSupported .float32 fo = false) ∧
      t = s.finish .invalidArgument) ∨
    (intWordCount n + 2 ≤ s.wcount.toNat ∧ orderSupported .float32 fo = true ∧
      t = { s with
        raw := s.intPattern n io ++ s.fracPattern n fo
        scaled := intFracValue (s.intPattern n io) (s.fracPattern n fo) s.scale
        }.finish .success) := by
  have h := Host.Outcome.next.inj h
  split at h
  · exact .inl ⟨.inl ‹_›, h.symm⟩
  split at h
  · rename_i ho
    exact .inl ⟨.inr (by simpa using ho), h.symm⟩
  · rename_i ho
    exact .inr ⟨by omega, by simpa using ho, h.symm⟩

/-- The clamp (44_vendor.md rule R261), by what the percentage denotes. -/
theorem clampPercent_cases (c : Bool) (p : Wide) :
    let below := Float64.unpack p = .inf true ∨ ∃ m, m ≠ 0 ∧ Float64.unpack p = .fin true m
    let above := Float64.unpack p = .inf false
      ∨ ∃ m, 100 * 2 ^ 1074 < m ∧ Float64.unpack p = .fin false m
    (below ∧ clampPercent c p = Float64.plusZero) ∨
    (¬ below ∧ c = true ∧ above ∧ clampPercent c p = Float64.hundred) ∨
    (¬ below ∧ ¬ (c = true ∧ above) ∧ clampPercent c p = p) := by
  intro below above
  have hb : Float64.flt p Float64.plusZero = true ↔ below := Float64.flt_zero_iff p
  have ha : Float64.flt Float64.hundred p = true ↔ above := Float64.flt_hundred_iff p
  by_cases h : below
  · exact .inl ⟨h, if_pos (hb.mpr h)⟩
  have hn := fun hc => h (hb.mp hc)
  by_cases h2 : c = true ∧ above
  · refine .inr (.inl ⟨h, h2.1, h2.2, (if_neg hn).trans (if_pos ?_)⟩)
    rw [Bool.and_eq_true, ha]
    exact h2
  · refine .inr (.inr ⟨h, h2, (if_neg hn).trans (if_neg ?_)⟩)
    rw [Bool.and_eq_true, ha]
    exact h2

theorem execLevelPct_cases {v : LevelVar} {c : Bool} {s t : State}
    (h : execLevelPct v c s = .next t) :
    ((levelOperandsRejected v s.scaled s.ref s.span = true ∨
        Float64.isNaN (levelPercent v s.scaled s.ref s.span) = true) ∧
      t = s.finish .invalidArgument) ∨
    (levelOperandsRejected v s.scaled s.ref s.span = false ∧
      Float64.isNaN (levelPercent v s.scaled s.ref s.span) = false ∧
      t = { s with scaled := clampPercent c (levelPercent v s.scaled s.ref s.span) }.finish
        .success) := by
  have h := Host.Outcome.next.inj h
  split at h
  · exact .inl ⟨.inl ‹_›, h.symm⟩
  split at h
  · exact .inl ⟨.inr ‹_›, h.symm⟩
  · rename_i h1 h2
    exact .inr ⟨by simpa using h1, by simpa using h2, h.symm⟩

/-- Every command ends in a next state. -/
theorem exec_completes (i : Instr) (s : State) : ∃ t, exec i s = .next t := by
  cases i <;> exact ⟨_, rfl⟩

/-- Everything a command can do to the state, for claims about every command at once. -/
theorem exec_cases {i : Instr} {s t : State} (h : exec i s = .next t) :
    (∃ c, c ∈ listedResults i ∧ c ≠ .none ∧ c ≠ .protocolException ∧ t = s.finish c) ∨
    ((i = .parseRead ∨ i = .parseWrite) ∧ t = s.protocolException) ∨
    ((i = .crcInit ∨ (∃ b, i = .crcFeed b) ∨ ∃ buf len, i = .crcCompute buf len) ∧
      ∃ c, t = { s with crc := c }.finish .success) ∨
    ((i = .buildRead ∨ i = .buildWriteMultiple) ∧
      ∃ f, f.length ≤ 256 ∧ t = (s.placeFrame f).finish .success) ∨
    (i = .parseRead ∧ ReadAccepted s ∧ t = s.acceptPayload.finish .success) ∨
    (((∃ ty o, i = .decode ty o) ∨ ∃ n io fo, i = .decodeIntfrac n io fo) ∧
      ∃ r x y, t = { s with raw := r, scaled := Float64.fmul x y }.finish .success) ∨
    ((∃ v c, i = .levelPct v c) ∧ ∃ c p, Float64.isNaN p = false ∧
      t = { s with scaled := clampPercent c p }.finish .success) := by
  cases i with
  | nop =>
    exact .inl ⟨.success, by simp [listedResults], by simp, by simp, (Host.Outcome.next.inj h).symm⟩
  | crcInit =>
    exact .inr (.inr (.inl ⟨.inl rfl, _, (Host.Outcome.next.inj h).symm⟩))
  | crcFeed b =>
    exact .inr (.inr (.inl ⟨.inr (.inl ⟨b, rfl⟩), _, (Host.Outcome.next.inj h).symm⟩))
  | crcCompute buf len =>
    rcases execCrcCompute_cases h with ⟨_, rfl⟩ | ⟨_, rfl⟩
    · exact .inl ⟨_, by simp [listedResults], by simp, by simp, rfl⟩
    · exact .inr (.inr (.inl ⟨.inr (.inr ⟨buf, len, rfl⟩), _, rfl⟩))
  | crcVerify buf len =>
    rcases execCrcVerify_cases h with ⟨_, rfl⟩ | ⟨_, _, rfl⟩ | ⟨_, _, rfl⟩ <;>
      exact .inl ⟨_, by simp [listedResults], by simp, by simp, rfl⟩
  | buildRead =>
    exact .inr (.inr (.inr (.inl ⟨.inl rfl, appendCrc (readRequestBody s), by simp,
      (Host.Outcome.next.inj h).symm⟩)))
  | buildWriteMultiple =>
    rcases execBuildWriteMultiple_cases h with ⟨_, rfl⟩ | ⟨hr, rfl⟩
    · exact .inl ⟨_, by simp [listedResults], by simp, by simp, rfl⟩
    · have hn := mt (writeCountRejected_iff s s.qty.toNat).mpr (by simp [hr])
      exact .inr (.inr (.inr (.inl ⟨.inr rfl, _, by simp; omega, rfl⟩)))
  | parseRead =>
    rcases execParseRead_cases h with ⟨c, hc, rfl⟩ | ⟨_, _, rfl⟩ | ⟨ha, rfl⟩
    · refine .inl ⟨c, ?_, ?_, ?_, rfl⟩ <;> revert hc <;> cases c <;> simp [listedResults]
    · exact .inr (.inl ⟨.inl rfl, rfl⟩)
    · exact .inr (.inr (.inr (.inr (.inl ⟨rfl, ha, rfl⟩))))
  | parseWrite =>
    rcases execParseWrite_cases h with ⟨c, hc, rfl⟩ | ⟨_, _, rfl⟩
    · refine .inl ⟨c, ?_, ?_, ?_, rfl⟩ <;> revert hc <;> cases c <;> simp [listedResults]
    · exact .inr (.inl ⟨.inr rfl, rfl⟩)
  | decode ty o =>
    rcases execDecode_cases h with ⟨_, rfl⟩ | ⟨_, _, rfl⟩
    · exact .inl ⟨_, by simp [listedResults], by simp, by simp, rfl⟩
    · exact .inr (.inr (.inr (.inr (.inr (.inl ⟨.inl ⟨ty, o, rfl⟩, _, _, _, rfl⟩)))))
  | decodeIntfrac n io fo =>
    rcases execDecodeIntfrac_cases h with ⟨_, rfl⟩ | ⟨_, _, rfl⟩
    · exact .inl ⟨_, by simp [listedResults], by simp, by simp, rfl⟩
    · exact .inr (.inr (.inr (.inr (.inr (.inl ⟨.inr ⟨n, io, fo, rfl⟩, _, _, _, rfl⟩)))))
  | levelPct v c =>
    rcases execLevelPct_cases h with ⟨_, rfl⟩ | ⟨_, hn, rfl⟩
    · exact .inl ⟨_, by simp [listedResults], by simp, by simp, rfl⟩
    · exact .inr (.inr (.inr (.inr (.inr (.inr ⟨⟨v, c, rfl⟩, _, _, hn, rfl⟩)))))

/-- A command neither reads nor writes the host side: what is pending, and the last response. -/
theorem exec_hostSide (i : Instr) (s : State) (p : List HostEvent) (r : BusResponse) :
    exec i { s with pending := p, response := r } =
      mapNext (fun t => { t with pending := p, response := r }) (exec i s) := by
  cases i <;>
    simp only [exec, execNop, execCrcInit, execCrcFeed, execCrcCompute, execCrcVerify, execBuildRead,
      execBuildWriteMultiple, execParseRead, execParseWrite, execDecode, execDecodeIntfrac,
      execLevelPct, mapNext_next, apply_ite (fun t : State => { t with pending := p, response := r })]
      <;> rfl

end Sys2Proof.Machine
end

