-- ==== Sys2Proof/Laws/Frame.lean ====
section
/-! SUPPORT. Frames: when a byte range carries a valid CRC, what placing a frame does, and the words of a
payload. -/

namespace Sys2Proof.Machine

open Sys2Proof.Safety

theorem take_map_range {n m : Nat} (h : m ≤ n) (f : Nat → Byte) :
    ((List.range n).map f).take m = (List.range m).map f := by
  apply List.ext_getElem
  · simp only [List.length_take, List.length_map, List.length_range]
    omega
  · intro i _ _
    simp

/-- When a range of buffer bytes carries a valid CRC. -/
theorem verify_bytes_iff (s : State) (a n : Nat) : verify (s.bytes a n) = true ↔
    3 ≤ n ∧ crc16 ((List.range (n - 2)).map (fun k => s.byte (a + k)))
      = s.byte (a + (n - 1)) ++ s.byte (a + (n - 2)) := by
  unfold verify
  rw [State.length_bytes]
  by_cases h : n < 3
  · rw [if_pos h]
    exact iff_of_false (by simp) (fun hc => by omega)
  · rw [if_neg h]
    simp only [beq_iff_eq, storedCrc, State.length_bytes, List.getD_eq_getElem?_getD]
    rw [State.getElem?_bytes _ _ _ (by omega), State.getElem?_bytes _ _ _ (by omega),
      State.bytes_eq_map, take_map_range (by omega)]
    simp only [Option.getD_some]
    exact ⟨fun hc => ⟨by omega, hc⟩, fun hc => hc.2⟩

/-- When the received frame carries a valid CRC. -/
theorem verify_received_iff (s : State) (n : Nat) :
    verify (s.received n) = true ↔ validFrame s n := by
  have h := verify_bytes_iff s (rxOffset 0) n
  have hb : ∀ k, s.byte (rxOffset 0 + k) = s.rxbuf k := by
    intro k
    simp [State.rxbuf, rxOffset]
  simp only [hb] at h
  exact h

theorem isExceptionResponse_iff (s : State) : s.isExceptionResponse = true ↔ exceptionBit s := Iff.rfl

theorem headerMatches_iff (s : State) :
    s.headerMatches = true ↔ s.rxbuf 0 = s.slave ∧ s.rxbuf 1 = s.func := by
  simp [State.headerMatches]

theorem echoMatches_iff (s : State) : s.echoMatches = true ↔
    s.rxbuf 2 ++ s.rxbuf 3 = s.addr ∧ s.rxbuf 4 ++ s.rxbuf 5 = s.qty := by
  simp [State.echoMatches, State.rxField]

/-- Bit 0 of a byte tells whether its number is odd. -/
theorem getLsbD_zero_eq (b : Byte) : b.getLsbD 0 = decide (b.toNat % 2 = 1) := by
  rw [BitVec.getLsbD, Nat.testBit_zero]

/-- Byte `k` of a frame just placed. -/
theorem txbuf_placeFrame (s : State) (f : List Byte) {k : Nat} (h : k < f.length) :
    (s.placeFrame f).txbuf k = f[k] := by
  have := State.byte_setBytes_in s (a := txOffset 0) h
  rw [← this]
  show State.byte _ (txOffset k) = State.byte _ (txOffset 0 + k)
  rw [show txOffset 0 + k = txOffset k by unfold txOffset; omega]
  rfl

/-- A byte outside the frame just placed. -/
theorem byte_placeFrame_out (s : State) (f : List Byte) {a : Nat}
    (h : ¬ (txOffset 0 ≤ a ∧ a < txOffset f.length)) : (s.placeFrame f).byte a = s.byte a :=
  State.byte_setBytes_out s (by unfold txOffset at *; omega)

/-- The header and value bytes of a frame whose CRC has been appended and that has been placed. -/
theorem txbuf_place_body (s : State) (body : List Byte) {k : Nat} (h : k < body.length) :
    (s.placeFrame (appendCrc body)).txbuf k = body[k] := by
  rw [txbuf_placeFrame s _ (by rw [length_appendCrc]; omega)]
  simp [appendCrc, h]

/-- The two CRC bytes of a frame that has been placed. -/
theorem txbuf_place_crc (s : State) (body : List Byte) :
    (s.placeFrame (appendCrc body)).txbuf body.length = lo8 (crc16 body)
    ∧ (s.placeFrame (appendCrc body)).txbuf (body.length + 1) = hi8 (crc16 body) := by
  constructor <;>
    (rw [txbuf_placeFrame s _ (by rw [length_appendCrc]; omega)]
     simp [appendCrc, littleEndian16])

/-- The bytes of value `i` in a write-multiple request. -/
theorem writeRequestBody_value (s : State) {n i : Nat} (hi : i < n) :
    (writeRequestBody s n)[7 + 2 * i]? = some (hi8 (s.wbuf i)) ∧
    (writeRequestBody s n)[8 + 2 * i]? = some (lo8 (s.wbuf i)) := by
  have hd : writeRequestBody s n = ([s.slave, 0x10] ++ bigEndian16 s.addr ++ bigEndian16 s.qty
      ++ [BitVec.ofNat 8 (2 * n)]) ++ wbufValues s n := rfl
  have hl : ([s.slave, 0x10] ++ bigEndian16 s.addr ++ bigEndian16 s.qty
      ++ [BitVec.ofNat 8 (2 * n)]).length = 7 := rfl
  have g := fun k (hk : k < 2) =>
    getElem?_flatMap_pairs (f := fun j => bigEndian16 (s.wbuf j)) (fun _ => rfl) hi hk
  rw [hd, List.getElem?_append_right (by omega), List.getElem?_append_right (by omega), hl,
    show 7 + 2 * i - 7 = 2 * i + 0 by omega, show 8 + 2 * i - 7 = 2 * i + 1 by omega]
  exact ⟨g 0 (by omega), g 1 (by omega)⟩

/-- Word `i` of a payload just accepted. -/
theorem wbuf_acceptPayload (s : State) {i : Nat} (hi : i < (s.rxbuf 2).toNat / 2) :
    s.acceptPayload.wbuf i = s.rxbuf (3 + 2 * i) ++ s.rxbuf (4 + 2 * i) := by
  have g := fun k (hk : k < 2) =>
    getElem?_flatMap_pairs (f := fun j => littleEndian16 (s.rxField (3 + 2 * j))) (fun _ => rfl) hi hk
  have hl := length_payloadBytes s ((s.rxbuf 2).toNat / 2)
  have b : ∀ k (hk : k < (payloadBytes s ((s.rxbuf 2).toNat / 2)).length),
      s.acceptPayload.byte (wbufOffset 0 + k) = (payloadBytes s ((s.rxbuf 2).toNat / 2))[k] :=
    fun k hk => State.byte_setBytes_in s (a := wbufOffset 0) hk
  obtain ⟨_, g0⟩ := List.getElem?_eq_some_iff.mp
    ((g 0 (by omega)).trans (show _ = some (lo8 (s.rxField (3 + 2 * i))) from rfl))
  obtain ⟨_, g1⟩ := List.getElem?_eq_some_iff.mp
    ((g 1 (by omega)).trans (show _ = some (hi8 (s.rxField (3 + 2 * i))) from rfl))
  unfold State.wbuf
  rw [show wbufOffset i + 1 = wbufOffset 0 + (2 * i + 1) by unfold wbufOffset; omega,
    show wbufOffset i = wbufOffset 0 + (2 * i + 0) by unfold wbufOffset; omega,
    b (2 * i + 1) (by omega), b (2 * i + 0) (by omega)]
  unfold payloadBytes
  rw [g0, g1, hi8_append_lo8]
  unfold State.rxField
  rw [show 3 + 2 * i + 1 = 4 + 2 * i by omega]

/-- A byte outside the payload just accepted. -/
theorem byte_acceptPayload_out (s : State) {a : Nat}
    (h : ¬ (wbufOffset 0 ≤ a ∧ a < wbufOffset ((s.rxbuf 2).toNat / 2))) :
    s.acceptPayload.byte a = s.byte a :=
  State.byte_setBytes_out s (by
    rw [length_payloadBytes]
    unfold wbufOffset at *
    omega)

end Sys2Proof.Machine
end

