-- ==== Sys2Proof/Laws/PerInstr.lean ====
section
/-! SUPPORT. Statements for every instruction as syntax, made per instruction. -/

namespace Sys2Proof.Laws

/-- The opcode number of a command (30_encoding.md rule R114). -/
def opcodeNumber : Instr → Byte
  | .nop => 0x00
  | .crcInit => 0x01
  | .crcFeed _ => 0x02
  | .crcCompute _ _ => 0x03
  | .crcVerify _ _ => 0x04
  | .buildRead => 0x10
  | .buildWriteMultiple => 0x11
  | .parseRead => 0x20
  | .parseWrite => 0x21
  | .decode _ _ => 0x30
  | .decodeIntfrac _ _ _ => 0x31
  | .levelPct _ _ => 0x32

/-- The OP field of a command's word is its opcode number (rules R111, R131). -/
def EncodesOp.Statement (i : Instr) : Prop := opField (encode i) = opcodeNumber i

/-- A field placed at bit 8 or above leaves the OP field alone. -/
theorem opField_or_fieldAt {n : Nat} (w : Word) (p : Nat) (v : BitVec n) (h : 8 ≤ p) :
    opField (w ||| fieldAt p v) = opField w := by
  apply BitVec.eq_of_getLsbD_eq
  intro k hk
  simp only [opField, fieldAt, BitVec.getLsbD_extractLsb', BitVec.getLsbD_or,
    BitVec.getLsbD_shiftLeft]
  have : k < p := by omega
  simp [this]

theorem EncodesOp.nop : EncodesOp.Statement .nop := rfl
theorem EncodesOp.crcInit : EncodesOp.Statement .crcInit := rfl
theorem EncodesOp.crcFeed (b : Byte) : EncodesOp.Statement (.crcFeed b) :=
  opField_or_fieldAt _ _ _ (by decide)
theorem EncodesOp.crcCompute (buf : BufSel) (len : Nat) : EncodesOp.Statement (.crcCompute buf len) := by
  unfold EncodesOp.Statement encode
  rw [opField_or_fieldAt _ _ _ (by decide), opField_or_fieldAt _ _ _ (by decide)]
  rfl
theorem EncodesOp.crcVerify (buf : BufSel) (len : Nat) : EncodesOp.Statement (.crcVerify buf len) := by
  unfold EncodesOp.Statement encode
  rw [opField_or_fieldAt _ _ _ (by decide), opField_or_fieldAt _ _ _ (by decide)]
  rfl
theorem EncodesOp.buildRead : EncodesOp.Statement .buildRead := rfl
theorem EncodesOp.buildWriteMultiple : EncodesOp.Statement .buildWriteMultiple := rfl
theorem EncodesOp.parseRead : EncodesOp.Statement .parseRead := rfl
theorem EncodesOp.parseWrite : EncodesOp.Statement .parseWrite := rfl
theorem EncodesOp.decode (t : PrimType) (o : ByteOrder) : EncodesOp.Statement (.decode t o) := by
  unfold EncodesOp.Statement encode
  rw [opField_or_fieldAt _ _ _ (by decide), opField_or_fieldAt _ _ _ (by decide)]
  rfl
theorem EncodesOp.decodeIntfrac (n : IntWords) (io fo : ByteOrder) :
    EncodesOp.Statement (.decodeIntfrac n io fo) := by
  unfold EncodesOp.Statement encode
  rw [opField_or_fieldAt _ _ _ (by decide), opField_or_fieldAt _ _ _ (by decide),
    opField_or_fieldAt _ _ _ (by decide)]
  rfl
theorem EncodesOp.levelPct (v : LevelVar) (c : Bool) : EncodesOp.Statement (.levelPct v c) := by
  unfold EncodesOp.Statement encode
  rw [opField_or_fieldAt _ _ _ (by decide), opField_or_fieldAt _ _ _ (by decide)]
  rfl

end Sys2Proof.Laws
end

