-- ==== Sys2Proof/Laws/Step.lean ====
section
/-! SUPPORT. What the bus and a step can do, said once. -/

namespace Sys2Proof.Machine

open Sys2Proof.Safety

/-- The bus's register map has the offsets of rule R31. -/
theorem specOffset_eq_regOffset (r : Reg) : specOffset r = regOffset r := by cases r <;> rfl

@[simp] theorem regAt_regOffset (r : Reg) : regAt (regOffset r) = some r := by cases r <;> rfl

theorem regOffset_of_regAt {off : Nat} {r : Reg} (h : regAt off = some r) : regOffset r = off := by
  have := List.find?_some h
  simpa using this

theorem regOffset_lt (r : Reg) : regOffset r < 0x058 := by cases r <;> decide

theorem sizeBytes_pos (z : AccessSize) : 0 < sizeBytes z := by cases z <;> decide

/-- The target of a 4-byte access at a register's offset is that register. -/
@[simp] theorem targetOf_register (r : Reg) : targetOf (regOffset r) .four = .register r := by
  simp [targetOf, regOffset_lt r]

/-- The accesses that reach a buffer, and where. -/
theorem targetOf_buffer_iff {off o : Nat} {z : AccessSize} :
    targetOf off z = .buffer o ↔
      o = off ∧ 0x100 ≤ off ∧ off < 0x400 ∧ off % sizeBytes z = 0 := by
  unfold targetOf
  split
  · rename_i h
    constructor
    · intro h'
      split at h' <;> cases h'
    · rintro ⟨_, h1, _⟩
      omega
  · split
    · rename_i h
      constructor
      · intro h'
        cases h'
        exact ⟨rfl, h.1, h.2.1, h.2.2⟩
      · rintro ⟨rfl, _⟩
        rfl
    · rename_i h
      constructor
      · intro h'
        cases h'
      · rintro ⟨_, h1⟩
        exact absurd h1 h

/-- An aligned buffer access stays within the buffers. -/
theorem buffer_access_fits {off : Nat} {z : AccessSize} (h1 : off < 0x400)
    (h2 : off % sizeBytes z = 0) : off + sizeBytes z ≤ 0x400 := by
  cases z <;> simp only [sizeBytes] at * <;> omega

theorem targetOf_register_iff {off : Nat} {z : AccessSize} {r : Reg} :
    targetOf off z = .register r ↔ z = .four ∧ off = regOffset r := by
  constructor
  · intro h
    unfold targetOf at h
    split at h
    · split at h
      · cases h
        exact ⟨rfl, (regOffset_of_regAt ‹_›).symm⟩
      · cases h
    · split at h <;> cases h
  · rintro ⟨rfl, rfl⟩
    simp

/-- What running a command word can do. -/
theorem runCommand_cases {w : Word} {s t : State} (h : runCommand w s = .next t) :
    (∃ i, decodeWord w = .instr i ∧ exec i (s.startCommand w) = .next t) ∨
    (∃ r, decodeWord w = .illegal r ∧ t = (s.startCommand w).finish .illegalCommand) := by
  unfold runCommand at h
  split at h
  · exact .inl ⟨_, ‹_›, h⟩
  · exact .inr ⟨_, ‹_›, (Host.Outcome.next.inj h).symm⟩

/-- Every command word runs to a next state. -/
theorem runCommand_completes (w : Word) (s : State) : ∃ t, runCommand w s = .next t := by
  unfold runCommand
  split
  · exact exec_completes _ _
  · exact ⟨_, rfl⟩

/-- What one access can do. -/
theorem serveAccess_cases {a : BusAccess} {s t : State} (h : serveAccess a s = .next t) :
    (t = s.raiseBusError a.addr) ∨
    (∃ v, a.op = .read ∧ t = s.respond (.data v)) ∨
    (∃ r v, a.op = .write v ∧ t = (s.writeReg r v).respond .done) ∨
    (∃ o v, a.op = .write v ∧ 0x100 ≤ o ∧ o + sizeBytes a.size ≤ 0x400 ∧
      t = (s.writeBuffer o a.size v).respond .done) ∨
    (∃ w u, a.op = .write w ∧ runCommand w s = .next u ∧ t = u.respond .done) := by
  unfold serveAccess at h
  split at h
  · unfold accessOffset at h
    split at h
    · exact .inl (Host.Outcome.next.inj h).symm
    · split at h
      · exact .inr (.inl ⟨_, ‹_›, (Host.Outcome.next.inj h).symm⟩)
      · unfold writeRegister at h
        split at h
        · obtain ⟨u, hu, rfl⟩ := mapNext_cases h
          exact .inr (.inr (.inr (.inr ⟨_, u, ‹_›, hu, rfl⟩)))
        · exact .inr (.inr (.inl ⟨_, _, ‹_›, (Host.Outcome.next.inj h).symm⟩))
    · rename_i o ho
      obtain ⟨rfl, h1, h2, h3⟩ := targetOf_buffer_iff.mp ho
      split at h
      · exact .inr (.inl ⟨_, ‹_›, (Host.Outcome.next.inj h).symm⟩)
      · exact .inr (.inr (.inr (.inl ⟨_, _, ‹_›, h1, buffer_access_fits h2 h3,
          (Host.Outcome.next.inj h).symm⟩)))
  · cases h

@[simp] theorem step_idle {s : State} (h : s.pending = []) : step s = .next s := by
  unfold step
  rw [h]

theorem step_event {s : State} {e : HostEvent} {rest : List HostEvent} (h : s.pending = e :: rest) :
    step s = serveEvent e { s with pending := rest } := by
  unfold step
  rw [h]

/-- Everything a step can do. -/
theorem step_cases {s t : State} (h : step s = .next t) :
    (s.pending = [] ∧ t = s) ∨
    (∃ cut rest, s.pending = .reset cut :: rest ∧ t = { s with pending := rest }.resetNow) ∨
    (∃ a rest, s.pending = .access a :: rest ∧
      serveAccess a { s with pending := rest } = .next t) := by
  cases hp : s.pending with
  | nil =>
    rw [step_idle hp] at h
    exact .inl ⟨rfl, (Host.Outcome.next.inj h).symm⟩
  | cons e rest =>
    rw [step_event hp] at h
    cases e with
    | access a => exact .inr (.inr ⟨a, rest, rfl, h⟩)
    | reset cut => exact .inr (.inl ⟨cut, rest, rfl, (Host.Outcome.next.inj h).symm⟩)

theorem inWindow_add {s : State} {off : Nat} (h : off < 0x1000) :
    s.inWindow (s.params.pBase + off) = true := by
  simp [State.inWindow, windowBytes, h]

/-- An access in the window, at its offset. -/
theorem step_access {s : State} {a : BusAccess} {off : Nat} {rest : List HostEvent}
    (hp : s.pending = .access a :: rest) (ha : a.addr = s.params.pBase + off) (ho : off < 0x1000) :
    step s = accessOffset a off { s with pending := rest } := by
  rw [step_event hp]
  have hw : State.inWindow { s with pending := rest } a.addr = true := by
    rw [ha]
    exact inWindow_add (s := { s with pending := rest }) ho
  have hs : a.addr - s.params.pBase = off := by omega
  simp only [serveEvent, serveAccess, hw, if_true, hs]

/-- A write of a command word to CMD. -/
theorem step_cmdWrite {s : State} {w : Word} {rest : List HostEvent}
    (hp : s.pending = .access (cmdWrite s.params.pBase w) :: rest) :
    step s = mapNext (fun t => t.respond .done) (runCommand w { s with pending := rest }) := by
  rw [step_access (off := regOffset .cmd) hp rfl (by decide)]
  simp [accessOffset, cmdWrite, writeRegister]

/-- A 4-byte read of a register. -/
theorem step_regRead {s : State} {r : Reg} {rest : List HostEvent}
    (hp : s.pending = .access (regRead s.params.pBase r) :: rest) :
    step s = .next ({ s with pending := rest }.respond (.data (s.readReg r))) := by
  rw [step_access (off := regOffset r) hp rfl (by have := regOffset_lt r; omega)]
  simp only [accessOffset, regRead, targetOf_register]
  cases r <;> rfl

/-- A 4-byte write to a register other than CMD. -/
theorem step_regWrite {s : State} {r : Reg} {v : Word} {rest : List HostEvent} (hr : r ≠ .cmd)
    (hp : s.pending = .access (regWrite s.params.pBase r v) :: rest) :
    step s = .next (({ s with pending := rest }.writeReg r v).respond .done) := by
  rw [step_access (off := regOffset r) hp rfl (by have := regOffset_lt r; omega)]
  simp only [accessOffset, regWrite, targetOf_register]
  cases r <;> first | exact absurd rfl hr | rfl

/-- A register write leaves every field of the state that is no read-write register. -/
theorem State.writeReg_frame (s : State) (r : Reg) (v : Word) :
    s.writeReg r v = { s with
      crc := (s.writeReg r v).crc, slave := (s.writeReg r v).slave, func := (s.writeReg r v).func
      addr := (s.writeReg r v).addr, qty := (s.writeReg r v).qty, rxlen := (s.writeReg r v).rxlen
      wcount := (s.writeReg r v).wcount, scale := (s.writeReg r v).scale
      ref := (s.writeReg r v).ref, span := (s.writeReg r v).span } := by
  cases r <;> rfl

/-! A register read after a register write. -/

@[simp] theorem loHalf_withLoHalf (a : Wide) (w : Word) : loHalf (withLoHalf a w) = w := by
  unfold loHalf withLoHalf
  exact BitVec.extractLsb'_append_eq_right

@[simp] theorem hiHalf_withLoHalf (a : Wide) (w : Word) : hiHalf (withLoHalf a w) = hiHalf a :=
  BitVec.extractLsb'_append_eq_left

@[simp] theorem loHalf_withHiHalf (a : Wide) (w : Word) : loHalf (withHiHalf a w) = loHalf a :=
  BitVec.extractLsb'_append_eq_right

@[simp] theorem hiHalf_withHiHalf (a : Wide) (w : Word) : hiHalf (withHiHalf a w) = w :=
  BitVec.extractLsb'_append_eq_left

/-- A register write changes no other register (rule R85). -/
theorem State.readReg_writeReg_other (s : State) (v : Word) {r q : Reg} (h : q ≠ r) :
    (s.writeReg r v).readReg q = s.readReg q := by
  cases r <;> first
    | rfl
    | (cases q <;> first
        | exact absurd rfl h
        | simp only [State.readReg, State.writeReg, statusWord, loHalf_withHiHalf, hiHalf_withLoHalf])

/-- Cutting a word to its low `n` bits and widening it again is masking it. -/
theorem setWidth_eq_mask {n : Nat} (v : Word) (h : n ≤ 32) :
    (v.setWidth n).setWidth 32 = v &&& BitVec.ofNat 32 (2 ^ n - 1) := by
  have h1 : 2 ^ n ≤ 2 ^ 32 := Nat.pow_le_pow_right (by omega) h
  have h2 : 0 < 2 ^ n := Nat.two_pow_pos n
  have h3 : v.toNat % 2 ^ n < 2 ^ n := Nat.mod_lt _ h2
  apply BitVec.eq_of_toNat_eq
  rw [BitVec.toNat_setWidth, BitVec.toNat_setWidth, BitVec.toNat_and, BitVec.toNat_ofNat,
    Nat.mod_eq_of_lt (a := 2 ^ n - 1) (by omega), Nat.and_two_pow_sub_one_eq_mod,
    Nat.mod_eq_of_lt (by omega)]

/-- What a register reads as after a write to it (rule R85). -/
theorem State.readReg_writeReg_self (s : State) (v : Word) {r : Reg} (h : r ≠ .cmd) :
    (s.writeReg r v).readReg r = if r ∈ readOnlyRegs then s.readReg r else v &&& fieldMask r := by
  cases r
  case cmd => exact absurd rfl h
  case crc => exact setWidth_eq_mask v (n := 16) (by decide)
  case slave => exact setWidth_eq_mask v (n := 8) (by decide)
  case func => exact setWidth_eq_mask v (n := 8) (by decide)
  case addr => exact setWidth_eq_mask v (n := 16) (by decide)
  case qty => exact setWidth_eq_mask v (n := 16) (by decide)
  case rxlen => exact setWidth_eq_mask v (n := 9) (by decide)
  case wcount => exact setWidth_eq_mask v (n := 8) (by decide)
  case status | excCode | txlen | bytecount | rawLo | rawHi | scaledLo | scaledHi => rfl
  all_goals
    simp only [readOnlyRegs, State.readReg, State.writeReg, fieldMask, loHalf_withLoHalf,
      hiHalf_withHiHalf]
    exact (BitVec.and_allOnes (x := v)).symm
/-- Running a command word neither reads nor writes the host side. -/
theorem runCommand_hostSide (w : Word) (s : State) (p : List HostEvent) (r : BusResponse) :
    runCommand w { s with pending := p, response := r } =
      mapNext (fun t => { t with pending := p, response := r }) (runCommand w s) := by
  unfold runCommand
  split
  · exact exec_hostSide _ (s.startCommand w) p r
  · rfl

/-- Serving an event neither reads nor writes what is pending after it. -/
theorem serveEvent_pending (e : HostEvent) (s : State) (p : List HostEvent) :
    serveEvent e { s with pending := p } =
      mapNext (fun t => { t with pending := p }) (serveEvent e { s with pending := [] }) := by
  have hrun : ∀ w : Word, runCommand w { s with pending := p } =
      mapNext (fun t => { t with pending := p }) (runCommand w { s with pending := [] }) := by
    intro w
    have h1 : runCommand w { s with pending := p } = _ := runCommand_hostSide w s p s.response
    have h2 : runCommand w { s with pending := [] } = _ := runCommand_hostSide w s [] s.response
    rw [h1, h2]
    cases runCommand w s <;> rfl
  cases e with
  | reset cut => rfl
  | access a =>
    have hw : State.inWindow { s with pending := p } a.addr =
        State.inWindow { s with pending := [] } a.addr := rfl
    simp only [serveEvent, serveAccess, hw]
    split
    · simp only [accessOffset]
      split
      · rfl
      · rename_i r _
        split
        · cases r <;> rfl
        · rename_i v _
          cases r with
          | cmd =>
            simp only [writeRegister, hrun]
            cases runCommand v { s with pending := [] } <;> rfl
          | _ => rfl
      · split <;> rfl
    · rfl

/-! Runs of several steps. -/

@[simp] theorem run_zero (s : State) : Host.Core.run core 0 s = .next s := rfl

theorem run_succ_of_next {s t : State} (n : Nat) (h : step s = .next t) :
    Host.Core.run core (n + 1) s = Host.Core.run core n t := by
  have h' : core.step s = .next t := h
  simp only [Host.Core.run, h']

/-- A longer run that answers a next state starts with a step that does. -/
theorem run_succ_cases {s t : State} {n : Nat} (h : Host.Core.run core (n + 1) s = .next t) :
    ∃ u, step s = .next u ∧ Host.Core.run core n u = .next t := by
  cases hs : step s with
  | next u => exact ⟨u, rfl, by rwa [run_succ_of_next n hs] at h⟩
  | fault r =>
    have h' : core.step s = .fault r := hs
    simp only [Host.Core.run, h'] at h
    cases h
  | refused r =>
    have h' : core.step s = .refused r := hs
    simp only [Host.Core.run, h'] at h
    cases h

end Sys2Proof.Machine
end

