-- ==== Sys2Proof/Tests/Slice0.lean ====
section
/-! SUPPORT. The author's own tests: the well-formedness smoke tests, decoding of words written out from
the spec, at most two single steps of each command (expected values from spec/95_test_vectors.md, the
vector named at each test), the bus, and for every obligation with hypotheses a state that meets them. -/

namespace Sys2Proof.Tests

set_option Elab.async false

open Sys2Proof.Machine Sys2Proof.Safety

/-! Small states. -/

/-- The next state of an outcome, if it is one. -/
def nextOf (o : Out) : Option State :=
  match o with
  | .next t => some t
  | .fault _ => none
  | .refused _ => none

/-- STATUS after a command word is written to CMD. -/
def statusAfter (s : State) (w : Word) : Option Word :=
  (nextOf (runCommand w s)).map (fun t => statusWord t)

/-- The reset state with the request registers set. -/
def request (slave func : Byte) (addr qty : Half) : State :=
  { State.reset with slave := slave, func := func, addr := addr, qty := qty }

/-- A state with a received frame in RXBUF and its length in RXLEN. -/
def received (s : State) (frame : List Byte) : State :=
  { s.setBytes (rxOffset 0) frame with rxlen := BitVec.ofNat 9 frame.length }

/-- A state with words in WBUF and their number in WCOUNT. -/
def words (s : State) (ws : List Half) : State :=
  { s.setBytes (wbufOffset 0) (ws.flatMap littleEndian16) with wcount := BitVec.ofNat 8 ws.length }

/-- A state about to serve some events. -/
def pendingEvents (es : List HostEvent) : State := { State.reset with pending := es }

/-- A state about to serve one access at a window offset, with P_BASE = 0x2000. -/
def accessAt (off : Nat) (size : AccessSize) (op : BusOp) : State :=
  { State.reset with
    params := { Config.defaultParams with pBase := 0x2000 }
    pending := [.access ⟨0x2000 + off, size, op⟩] }

/-- A state for LEVEL_PCT. -/
def level (m ref span : Wide) : State :=
  { State.reset with raw := 0x1234, scaled := m, ref := ref, span := span }

/-- The response of the next step. -/
def responseOf (s : State) : Option BusResponse := (nextOf (step s)).map (fun t => t.response)

/-! Well-formedness: LEN must fit nine bits (rule R131). -/

theorem test_wf_crcCompute_511 : (Instr.crcCompute .rx 511).wf = true := by decide
theorem test_wf_refuses_crcCompute_512 : (Instr.crcCompute .tx 512).wf = false := by decide
theorem test_wf_refuses_crcVerify_512 : (Instr.crcVerify .rx 512).wf = false := by decide

/-! Decoding: words from rules R114 and R131, one or more for each row. -/

theorem test_decode_nop : decodeWord 0x00000000 = .instr .nop := by decide
theorem test_decode_crcInit : decodeWord 0x00000001 = .instr .crcInit := by decide
theorem test_decode_crcFeed : decodeWord 0x0000A502 = .instr (.crcFeed 0xA5) := by decide
theorem test_decode_crcCompute : decodeWord 0x00060103 = .instr (.crcCompute .rx 6) := by decide
theorem test_decode_crcCompute_tx : decodeWord 0x01FF0003 = .instr (.crcCompute .tx 511) := by decide
theorem test_decode_crcVerify : decodeWord 0x00080004 = .instr (.crcVerify .tx 8) := by decide
theorem test_decode_buildRead : decodeWord 0x00000010 = .instr .buildRead := by decide
theorem test_decode_buildWriteMultiple :
    decodeWord 0x00000011 = .instr .buildWriteMultiple := by decide
theorem test_decode_parseRead : decodeWord 0x00000020 = .instr .parseRead := by decide
theorem test_decode_parseWrite : decodeWord 0x00000021 = .instr .parseWrite := by decide
theorem test_decode_decode : decodeWord 0x00000430 = .instr (.decode .float32 .bigEndian) := by decide
theorem test_decode_decode_le :
    decodeWord 0x00001230 = .instr (.decode .uint32 .littleEndian) := by decide
theorem test_decode_decode_dcba :
    decodeWord 0x00003630 = .instr (.decode .hex .mixedDcba) := by decide
theorem test_decode_decodeIntfrac :
    decodeWord 0x00004131 = .instr (.decodeIntfrac .two .bigEndian .littleEndian) := by decide
theorem test_decode_decodeIntfrac_one :
    decodeWord 0x0000E031 = .instr (.decodeIntfrac .one .mixedBadc .mixedDcba) := by decide
theorem test_decode_levelPct : decodeWord 0x00000332 = .instr (.levelPct .referenced true) := by decide
theorem test_decode_levelPct_direct :
    decodeWord 0x00000232 = .instr (.levelPct .direct true) := by decide

/-- Section 2.2: the illegal words, each by its reason (rule R121). -/
theorem test_decode_illegal :
    decodeWord 0x00000005 = .illegal .unassignedOpcode
    ∧ decodeWord 0x000000FF = .illegal .unassignedOpcode
    ∧ decodeWord 0x00000110 = .illegal .reservedBitSet
    ∧ decodeWord 0x80000011 = .illegal .reservedBitSet
    ∧ decodeWord 0x01000002 = .illegal .reservedBitSet
    ∧ decodeWord 0x00000203 = .illegal .reservedBitSet
    ∧ decodeWord 0x00000730 = .illegal .reservedType
    ∧ decodeWord 0x00000F30 = .illegal .reservedBitSet
    ∧ decodeWord 0x00000830 = .illegal .reservedBitSet
    ∧ decodeWord 0x00000231 = .illegal .reservedBitSet
    ∧ decodeWord 0x00000432 = .illegal .reservedBitSet := by decide

/-- The words of rule R131, from the encoder. -/
theorem test_encode :
    encode (.crcCompute .rx 6) = 0x00060103
    ∧ encode (.decode .float32 .bigEndian) = 0x00000430
    ∧ encode (.decode .uint32 .littleEndian) = 0x00001230
    ∧ encode (.decodeIntfrac .two .bigEndian .littleEndian) = 0x00004131
    ∧ encode (.levelPct .referenced true) = 0x00000332
    ∧ encode (.crcFeed 0xFF) = 0x0000FF02
    ∧ encode (.crcVerify .rx 511) = 0x01FF0104 := by decide

/-- The host's numbering: bit 0 is the least significant bit of the word. -/
theorem test_decodeTableWord :
    decodeTableWord 32 0x00060103 = some (.crcCompute .rx 6)
    ∧ decodeTableWord 16 0x0102 = some (.crcFeed 0x01)
    ∧ decodeTableWord 32 0x00000730 = none := by decide

/-- STATUS after a word of section 2.2, from reset. -/
theorem test_illegal_status :
    statusAfter State.reset 0x00000730 = some 0x00003007
    ∧ statusAfter State.reset 0x000000FF = some 0x0000FF07
    ∧ statusAfter State.reset 0x80000011 = some 0x00001107
    ∧ statusAfter State.reset 0x01FF0103 = some 0x00000306
    ∧ statusAfter State.reset 0x01010004 = some 0x00000406
    ∧ statusAfter State.reset 0x00000004 = some 0x00000403 := by decide

/-- The first step after `withFetchWord` runs the command (vector Z6). -/
theorem test_withFetchWord :
    (nextOf (step (State.reset.withFetchWord 32 0x00000102))).map (fun t => (t.crc, t.response))
      = some (0x807E, .done) := by decide +kernel

/-! The commands, one step each. -/

/-- Section 2.2. -/
theorem test_nop : statusAfter State.reset 0x00000000 = some 0x00000001 := by decide

/-- K15. -/
theorem test_crcInit :
    (nextOf (runCommand 0x00000001 { State.reset with crc := 0x1234 })).map
      (fun t => (t.crc, statusWord t)) = some (0xFFFF, 0x00000101) := by decide

/-- K17. -/
theorem test_crcFeed :
    (nextOf (exec (.crcFeed 0x01) { State.reset with crc := 0x0000 })).map (fun t => t.crc)
      = some 0xC0C1 := by decide +kernel

/-- K9, read from RXBUF (rule R144's example). -/
theorem test_crcCompute :
    (nextOf (runCommand 0x00060103
      (received State.reset [0x01, 0x03, 0x00, 0x00, 0x00, 0x02]))).map
      (fun t => (t.crc, statusWord t)) = some (0x0BC4, 0x00000301) := by decide +kernel

/-- K18: an empty range of TXBUF. -/
theorem test_crcCompute_empty :
    (nextOf (runCommand 0x00000003 { State.reset with crc := 0x1234 })).map
      (fun t => (t.crc, statusWord t)) = some (0xFFFF, 0x00000301) := by decide

/-- K19. -/
theorem test_crcVerify :
    (nextOf (runCommand 0x00080104 { received State.reset
      [0x01, 0x03, 0x00, 0x00, 0x00, 0x02, 0xC4, 0x0B] with crc := 0x1234 })).map
      (fun t => (t.crc, statusWord t)) = some (0x1234, 0x00000401) := by decide +kernel

/-- K21: two bytes `FF FF` would match the CRC of nothing, but are too short. -/
theorem test_crcVerify_short :
    statusAfter (received State.reset [0xFF, 0xFF]) 0x00020104 = some 0x00000403 := by decide +kernel

/-- B2. -/
theorem test_buildRead :
    (nextOf (exec .buildRead (request 0x11 0x03 0x006B 0x0003))).map
      (fun t => (t.bytes (txOffset 0) 8, t.txlen))
      = some ([0x11, 0x03, 0x00, 0x6B, 0x00, 0x03, 0x76, 0x87], 8) := by decide +kernel

/-- B6. -/
theorem test_buildWriteMultiple :
    (nextOf (exec .buildWriteMultiple (words (request 0x01 0x03 0x0001 2) [0x000A, 0x0102]))).map
      (fun t => (t.bytes (txOffset 0) 13, t.txlen))
      = some ([0x01, 0x10, 0x00, 0x01, 0x00, 0x02, 0x04, 0x00, 0x0A, 0x01, 0x02, 0x92, 0x30], 13) := by
  decide +kernel

/-- B11: the frame-size limit. -/
theorem test_buildWriteMultiple_limit :
    statusAfter { request 0x01 0x03 0x0001 124 with
      params := { Config.defaultParams with maxWriteRegs := 127 } } 0x00000011
      = some 0x00001106 := by decide

/-- P3. -/
theorem test_parseRead :
    (nextOf (exec .parseRead (received (request 0x01 0x03 0 0)
      [0x01, 0x03, 0x04, 0x3F, 0xC0, 0x00, 0x00, 0xF6, 0x1B]))).map
      (fun t => (t.result, t.bytecount, t.wcount, t.wbuf 0, t.wbuf 1))
      = some (.success, 4, 2, 0x3FC0, 0x0000) := by decide +kernel

/-- P6: the slave address of an exception response is not checked. -/
theorem test_parseRead_exception :
    (nextOf (exec .parseRead (received (request 0x01 0x03 0 0) [0x02, 0x83, 0x02, 0x30, 0xF1]))).map
      (fun t => (t.result, t.excCode)) = some (.protocolException, 0x02) := by decide +kernel

/-- Q1. -/
theorem test_parseWrite :
    (nextOf (exec .parseWrite (received (request 0x01 0x10 0x0001 2)
      [0x01, 0x10, 0x00, 0x01, 0x00, 0x02, 0x10, 0x08]))).map (fun t => t.result)
      = some .success := by decide +kernel

/-- Q4 and Q5: a short exception response, for both values of P_WM_EXC_SHORT. -/
theorem test_parseWrite_short :
    (nextOf (exec .parseWrite (received (request 0x01 0x10 0x0001 2)
      [0x01, 0x90, 0x02, 0xCD, 0xC1]))).map (fun t => (t.result, t.excCode))
      = some (.malformedResponse, 0x00)
    ∧ (nextOf (exec .parseWrite { received (request 0x01 0x10 0x0001 2)
      [0x01, 0x90, 0x02, 0xCD, 0xC1] with
        params := { Config.defaultParams with wmExcShort := true } })).map
      (fun t => (t.result, t.excCode)) = some (.protocolException, 0x02) := by decide +kernel

/-- W3, little-endian: the scaled value is 4660.0. -/
theorem test_decode_exec :
    (nextOf (runCommand 0x00001230 (words State.reset [0x1234, 0x0000]))).map
      (fun t => (t.raw, t.scaled)) = some (0x0000000000001234, 0x40B2340000000000) := by
  decide +kernel

/-- Rule R221: INT16 of 0x8000 is -32768, and RAW is not sign-extended. -/
theorem test_decode_int16 :
    (nextOf (exec (.decode .int16 .mixedDcba) (words State.reset [0x8000]))).map
      (fun t => (t.raw, t.scaled)) = some (0x0000000000008000, 0xC0E0000000000000) := by
  decide +kernel

/-- W12: 100.5. -/
theorem test_decodeIntfrac :
    (nextOf (runCommand 0x00000131 (words State.reset [0x0000, 0x0064, 0x3F00, 0x0000]))).map
      (fun t => (t.raw, t.scaled)) = some (0x000000643F000000, 0x4059200000000000) := by
  decide +kernel

/-- L5: -5 clamps to +0.0, and RAW is kept. -/
theorem test_levelPct :
    (nextOf (runCommand 0x00000332
      (level 0x405A400000000000 0x4059000000000000 0x4059000000000000))).map
      (fun t => (statusWord t, t.raw, t.scaled)) = some (0x00003201, 0x1234, 0x0000000000000000) := by
  decide +kernel

/-- L9: 1 / 3 * 100, with its two roundings. -/
theorem test_levelPct_rounding :
    (nextOf (exec (.levelPct .direct true)
      (level 0x3FF0000000000000 0x0000000000000000 0x4008000000000000))).map
      (fun t => t.scaled) = some 0x4040AAAAAAAAAAAA := by decide +kernel

/-! The bus and reset (sections 2.1 and 2.9). -/

/-- M3, M4, M5 and M6: bus errors, with nothing changed. -/
theorem test_bus_errors :
    responseOf (accessAt 0x004 .two (.write 0x1234)) = some (.busError 0x2004)
    ∧ responseOf (accessAt 0x000 .one (.write 0x10)) = some (.busError 0x2000)
    ∧ responseOf (accessAt 0x058 .four .read) = some (.busError 0x2058)
    ∧ responseOf (accessAt 0xFFC .four .read) = some (.busError 0x2FFC)
    ∧ responseOf (accessAt 0x101 .two (.write 0xBEEF)) = some (.busError 0x2101) := by decide +kernel

/-- M8: RXLEN keeps its nine bits. -/
theorem test_bus_rxlen :
    (nextOf (step (accessAt 0x024 .four (.write 0xFFFFFFFF)))).map (fun t => t.readReg .rxlen)
      = some 0x000001FF := by decide +kernel

/-- M10: a one-byte write into a word. -/
theorem test_bus_wbuf_byte :
    (nextOf (step { accessAt 0x301 .one (.write 0xAB) with mem := [(0x300, 0xC0), (0x301, 0x3F)] })).map
      (fun t => t.wbuf 0) = some 0xABC0 := by decide +kernel

/-- M12: the byte at the lowest offset is in the lowest data bits. -/
theorem test_bus_rxbuf_word :
    (nextOf (step (accessAt 0x200 .four (.write 0x0B0C0D0E)))).map (fun t => t.bytes (rxOffset 0) 4)
      = some [0x0E, 0x0D, 0x0C, 0x0B] := by decide +kernel

/-- Z1 to Z3, and the reset memory is canonical. -/
theorem test_reset :
    State.reset.readReg .status = 0x00000000 ∧ State.reset.readReg .crc = 0x0000FFFF
    ∧ State.reset.readReg .scaleHi = 0x3FF00000 ∧ State.reset.readReg .scaleLo = 0x00000000
    ∧ Memory.wf State.reset.mem = true := by decide

/-- Rule R232: the warning case of rule R233. -/
theorem test_token :
    State.reset.resolve "FLOAT32_4321" .bigEndian = some (.float32, .mixedDcba)
    ∧ State.reset.resolve "INT16" .mixedBadc = some (.int16, .mixedBadc)
    ∧ State.reset.resolve "int16" .bigEndian = none := by decide +kernel

/-! Witnesses: for each obligation with hypotheses, a state and operands that meet them all, for each
clause at a boundary of its range. -/

theorem witness_DecodeOfEncodeIsTheCommand :
    (Instr.crcCompute .rx 511).wf = true ∧ (Instr.crcCompute .tx 0).wf = true := by decide

theorem witness_EncodeOfDecodeIsTheWord :
    decodeWord 0x01FF0103 = .instr (.crcCompute .rx 511)
    ∧ decodeWord 0x00000632 = .illegal .reservedBitSet := by decide

/-- The same word with TYPE 7 is illegal and with TYPE 6 legal. -/
theorem witness_IllegalWordsChangeStatusOnly :
    (pendingEvents [.access (cmdWrite 0 0x00000730)]).pending
      = .access (cmdWrite (pendingEvents []).params.pBase 0x00000730) :: []
    ∧ (0x00000730 : Word).extractLsb' 0 8 = 0x30 ∧ (0x00000730 : Word).extractLsb' 8 3 = 7
    ∧ specRows.all (fun row => (0x00000005 : Word) &&& row.2 != row.1) = true
    ∧ specRows.all (fun row => (0x00000630 : Word) &&& row.2 != row.1) = false
    ∧ (0x00000630 : Word).extractLsb' 8 3 ≠ 7 := by decide

theorem witness_AtMostOneRowMatches :
    (⟨.decode, 0x00000030, 0xFFFFC8FF⟩ : OpcodeRow) ∈ opcodeTable
    ∧ (0x00000730 : Word) &&& 0xFFFFC8FF = 0x00000030
    ∧ (∀ r ∈ opcodeTable, (0x00000101 : Word) &&& r.mask ≠ r.matchBits) := by decide

theorem witness_StepRunsTheDecodedCommand :
    (pendingEvents [.access (cmdWrite 0 0x00000001)]).pending
      = .access (cmdWrite (pendingEvents []).params.pBase 0x00000001) :: []
    ∧ decodeWord 0x00000001 = .instr .crcInit
    ∧ exec .crcInit { pendingEvents [] with lastOp := 0x01 }
      = .next { pendingEvents [] with lastOp := 0x01, crc := 0xFFFF, result := .success }
    ∧ 0x00000001 < 2 ^ 32 ∧ decodeTableWord 32 0x00000001 = some .crcInit :=
  ⟨by decide, by decide, rfl, by decide, by decide⟩

/-- An access at each boundary of the window's parts, accepted or not. -/
theorem witness_UnacceptedAccessIsABusError :
    (accessAt 0x057 .one .read).pending = .access ⟨0x2000 + 0x057, .one, .read⟩ :: []
    ∧ (accessAt 0x057 .one .read).params.pBase = 0x2000
    ∧ targetOf 0x054 .four = .register .spanHi ∧ targetOf 0x054 .two = .rejected
    ∧ targetOf 0x057 .one = .rejected ∧ targetOf 0x058 .four = .rejected
    ∧ targetOf 0x0FF .one = .rejected ∧ targetOf 0x100 .four = .buffer 0x100
    ∧ targetOf 0x3FE .four = .rejected ∧ targetOf 0x3FE .two = .buffer 0x3FE
    ∧ targetOf 0x3FF .one = .buffer 0x3FF ∧ targetOf 0x400 .one = .rejected
    ∧ targetOf 0xFFF .one = .rejected := by decide

theorem witness_ReadsNeverChangeState :
    (accessAt 0x00C .four .read).pending = .access ⟨0x200C, .four, .read⟩ :: []
    ∧ step (accessAt 0x00C .four .read)
      = .next { accessAt 0x00C .four .read with pending := [], response := .data 0xFFFF } :=
  ⟨rfl, rfl⟩

theorem witness_RegisterReadsReturnTheFields :
    (accessAt 0x054 .four .read).pending
      = .access ⟨(accessAt 0 .one .read).params.pBase + specOffset .spanHi, .four, .read⟩ :: [] := by
  decide

/-- A read-only register and a read-write one. -/
theorem witness_RegisterWritesStoreTheFieldBits :
    (pendingEvents [.access ⟨0x004, .four, .write 0x12345678⟩, .access ⟨0x004, .four, .read⟩]).pending
      = .access ⟨(pendingEvents []).params.pBase + specOffset .status, .four, .write 0x12345678⟩
        :: .access ⟨(pendingEvents []).params.pBase + specOffset .status, .four, .read⟩ :: []
    ∧ Reg.status ≠ .cmd ∧ Reg.status ∈ readOnlyRegs ∧ Reg.rxlen ∉ readOnlyRegs
    ∧ (pendingEvents [.access ⟨0x000, .four, .read⟩]).pending
      = .access ⟨(pendingEvents []).params.pBase + 0x000, .four, .read⟩ :: [] := by decide

/-- The first and the last aligned word of the buffers. -/
theorem witness_BufferWriteReachesExactlyItsBytes :
    (accessAt 0x100 .four (.write 0x0B0C0D0E)).pending
      = .access ⟨(accessAt 0 .one .read).params.pBase + 0x100, .four, .write 0x0B0C0D0E⟩ :: []
    ∧ 0x100 % sizeBytes .four = 0 ∧ 0x3FC < 0x400 ∧ 0x3FC % sizeBytes .four = 0
    ∧ 0x3FF % sizeBytes .one = 0 := by decide

/-- The last byte of TXBUF, the first of RXBUF, and the last word and word pair of WBUF. -/
theorem witness_BufferReadCarriesItsBytes :
    (accessAt 0x300 .four .read).pending
      = .access ⟨(accessAt 0 .one .read).params.pBase + 0x300, .four, .read⟩ :: []
    ∧ 0x1FF = 0x100 + 255 ∧ 0x200 = 0x200 + 0 ∧ 0x3FE = 0x300 + 2 * 127 ∧ 0x3FE % 2 = 0
    ∧ 0x300 = 0x300 + 4 * 0 ∧ 0x3FC = 0x300 + 4 * 63 ∧ 0x3FC % 4 = 0 := by
  decide

/-- One address below the window and one above it. -/
theorem witness_AccessOutsideTheWindowFaults :
    { accessAt 0x000 .one .read with pending := [.access ⟨0x1FFF, .one, .read⟩] }.pending
      = .access ⟨0x1FFF, .one, .read⟩ :: []
    ∧ 0x1FFF < (accessAt 0x000 .one .read).params.pBase
    ∧ (accessAt 0x1000 .one .read).pending = .access ⟨0x3000, .one, .read⟩ :: []
    ∧ (accessAt 0x1000 .one .read).params.pBase + 0x1000 ≤ 0x3000 := by decide

theorem witness_EventsAreServedInArrivalOrder :
    Host.Core.run core 2
        (pendingEvents [.access (cmdWrite 0 0x00000001), .access (regRead 0 .crc)])
      = .next { State.reset with
          lastOp := 0x01, result := .success, pending := [], response := .data 0xFFFF } := rfl

theorem witness_ResetGivesTheListedState :
    (pendingEvents [.reset (some ⟨0, .four, .write 1⟩)]).pending
      = .reset (some ⟨0, .four, .write 1⟩) :: [] := rfl

/-- A length beyond the buffer, a frame with a good trailer, one with a bad one, and one too short. -/
theorem witness_CrcVerifyComparesTheTrailer :
    256 < 257 ∧ 3 ≤ 3
    ∧ crc16 ((List.range (3 - 2)).map
        (fun i => (received State.reset [0x00, 0xBF, 0x40]).byte (bufOffset .rx i)))
      = (received State.reset [0x00, 0xBF, 0x40]).byte (bufOffset .rx 2)
        ++ (received State.reset [0x00, 0xBF, 0x40]).byte (bufOffset .rx 1)
    ∧ crc16 ((List.range (3 - 2)).map
        (fun i => (received State.reset [0x00, 0xFF, 0xFF]).byte (bufOffset .rx i)))
      ≠ (received State.reset [0x00, 0xFF, 0xFF]).byte (bufOffset .rx 2)
        ++ (received State.reset [0x00, 0xFF, 0xFF]).byte (bufOffset .rx 1)
    ∧ ¬ 3 ≤ 2 := by decide +kernel

theorem witness_AnyOneByteChangeIsDetected :
    verify [0x01, 0x03, 0x00, 0x00, 0x00, 0x02, 0xC4, 0x0B] = true
    ∧ 7 < ([0x01, 0x03, 0x00, 0x00, 0x00, 0x02, 0xC4, 0x0B] : List Byte).length
    ∧ ([0x01, 0x03, 0x00, 0x00, 0x00, 0x02, 0xC4, 0x0B] : List Byte)[7]? ≠ some 0x0A := by
  decide +kernel

theorem witness_ReferenceVector :
    0 < 8 ∧ ([0x01, 0x03, 0x00, 0x00, 0x00, 0x02, 0xC4, 0x0B] : List Byte)[0]? ≠ some 0x00 := by
  decide

/-- Counts at the limits: 0 and 124 are rejected, 1 and 123 are not. -/
theorem witness_BuildWriteMultipleWritesTheRequest :
    (request 0x01 0 0 0).qty.toNat = 0
    ∧ (request 0x01 0 0 124).qty.toNat > (request 0x01 0 0 124).params.maxWriteRegs
    ∧ 9 + 2 * 124 > 256
    ∧ ¬ ((request 0x01 0 0 1).qty.toNat = 0
      ∨ (request 0x01 0 0 1).qty.toNat > (request 0x01 0 0 1).params.maxWriteRegs
      ∨ 9 + 2 * (request 0x01 0 0 1).qty.toNat > 256)
    ∧ ¬ ((request 0x01 0 0 123).qty.toNat = 0
      ∨ (request 0x01 0 0 123).qty.toNat > (request 0x01 0 0 123).params.maxWriteRegs
      ∨ 9 + 2 * (request 0x01 0 0 123).qty.toNat > 256) := by decide

theorem witness_BuiltFramesVerify :
    (nextOf (exec .buildRead (request 0x01 0x03 0 2))).map (fun t => t.result) = some .success
    ∧ (nextOf (exec .buildWriteMultiple (words (request 0x01 0x03 0x0001 2) [0x000A, 0x0102]))).map
      (fun t => t.result) = some .success := by decide +kernel

/-- Lengths 257, 0, 1, 4, 5 and 7, and a 5-byte response with the parameter true and no exception bit. -/
theorem witness_ParsersClassifyTheLength :
    256 < ({ State.reset with rxlen := 257 } : State).rxlen.toNat
    ∧ ({ State.reset with rxlen := 0 } : State).rxlen.toNat = 0
    ∧ ({ State.reset with rxlen := 1 } : State).rxlen.toNat = 1
    ∧ ({ State.reset with rxlen := 4 } : State).rxlen.toNat = 4
    ∧ (received State.reset [0x01, 0x03, 0x00, 0x20, 0xF0]).rxlen.toNat = 5
    ∧ State.reset.params.wmExcShort = false
    ∧ ((received State.reset [0x01, 0x03, 0x00, 0x20, 0xF0]).rxbuf 1).getLsbD 7 = false
    ∧ ({ State.reset with rxlen := 7 } : State).rxlen.toNat = 7 := by decide

/-- P11 (no payload) and P3. -/
theorem witness_ParseReadDeliversThePayload :
    let s := received (request 0x01 0x03 0 0) [0x01, 0x03, 0x00, 0x20, 0xF0]
    let u := received (request 0x01 0x03 0 0) [0x01, 0x03, 0x04, 0x3F, 0xC0, 0x00, 0x00, 0xF6, 0x1B]
    (s.rxlen.toNat = 5 ∧ validFrame s 5 ∧ ¬ exceptionBit s ∧ s.rxbuf 0 = s.slave ∧ s.rxbuf 1 = s.func
      ∧ (s.rxbuf 2).toNat % 2 = 0 ∧ 5 = (s.rxbuf 2).toNat + 5)
    ∧ (u.rxlen.toNat = 9 ∧ validFrame u 9 ∧ ¬ exceptionBit u ∧ u.rxbuf 0 = u.slave
      ∧ u.rxbuf 1 = u.func ∧ (u.rxbuf 2).toNat % 2 = 0 ∧ 9 = (u.rxbuf 2).toNat + 5) := by
  unfold validFrame exceptionBit
  decide +kernel

/-- P4 (bad CRC), and P7, P8, P9 and P10 (good CRC, each with one mismatch). -/
theorem witness_ParseReadRejectsBadFrames :
    let s := fun f => received (request 0x01 0x03 0 0) f
    let p4 := s [0x01, 0x03, 0x04, 0x3F, 0xC0, 0x00, 0x00, 0xF6, 0x1C]
    let p7 := s [0x02, 0x03, 0x04, 0x12, 0x34, 0x00, 0x00, 0x8D, 0x85]
    let p8 := s [0x01, 0x04, 0x02, 0x80, 0x00, 0xD8, 0xF0]
    let p9 := s [0x01, 0x03, 0x03, 0x12, 0x34, 0x00, 0xF3, 0x4B]
    let p10 := s [0x01, 0x03, 0x06, 0x12, 0x34, 0x00, 0x00, 0xC7, 0x45]
    (p4.rxlen.toNat = 9 ∧ ¬ validFrame p4 9)
    ∧ (validFrame p7 9 ∧ ¬ exceptionBit p7 ∧ p7.rxbuf 0 ≠ p7.slave)
    ∧ (validFrame p8 7 ∧ ¬ exceptionBit p8 ∧ p8.rxbuf 1 ≠ p8.func)
    ∧ (validFrame p9 8 ∧ ¬ exceptionBit p9 ∧ (p9.rxbuf 2).toNat % 2 = 1)
    ∧ (validFrame p10 9 ∧ ¬ exceptionBit p10 ∧ 9 ≠ (p10.rxbuf 2).toNat + 5) := by
  unfold validFrame exceptionBit
  decide +kernel

/-- P5, and an 8-byte frame `01 90 02 00 00 00` with its CRC. -/
theorem witness_ExceptionResponsesAreClassified :
    let s := received (request 0x01 0x03 0 0) [0x01, 0x83, 0x02, 0xC0, 0xF1]
    let u := received (request 0x01 0x10 0 0)
      (appendCrc [0x01, 0x90, 0x02, 0x00, 0x00, 0x00])
    (s.rxlen.toNat = 5 ∧ validFrame s 5 ∧ exceptionBit s)
    ∧ (u.rxlen.toNat = 8 ∧ validFrame u 8 ∧ exceptionBit u) := by
  unfold validFrame exceptionBit
  decide +kernel

/-- Q1. -/
theorem witness_ParseWriteAcceptsTheEcho :
    let s := received (request 0x01 0x10 0x0001 2) [0x01, 0x10, 0x00, 0x01, 0x00, 0x02, 0x10, 0x08]
    s.rxlen.toNat = 8 ∧ validFrame s 8 ∧ ¬ exceptionBit s ∧ s.rxbuf 0 = s.slave ∧ s.rxbuf 1 = s.func
    ∧ s.rxbuf 2 ++ s.rxbuf 3 = s.addr ∧ s.rxbuf 4 ++ s.rxbuf 5 = s.qty := by
  unfold validFrame exceptionBit
  decide +kernel

/-- Q1 with its last byte changed, and Q2, Q3, Q6 and Q9; an 8-byte exception response and a length of
257. -/
theorem witness_ParseWriteRejectsBadEchoes :
    let s := fun f => received (request 0x01 0x10 0x0001 2) f
    let q0 := s [0x01, 0x10, 0x00, 0x01, 0x00, 0x02, 0x10, 0x09]
    let q2 := s [0x01, 0x10, 0x00, 0x01, 0x00, 0x03, 0xD1, 0xC8]
    let q3 := s [0x01, 0x10, 0x00, 0x02, 0x00, 0x02, 0xE0, 0x08]
    let q6 := s [0x01, 0x10, 0x00, 0x01, 0x00, 0x02, 0x00, 0x09, 0xCC]
    let e := s (appendCrc [0x01, 0x90, 0x02, 0x00, 0x00, 0x00])
    (({ q0 with rxlen := 257 } : State).rxlen.toNat = 257)
    ∧ (e.rxlen.toNat = 8 ∧ validFrame e 8 ∧ exceptionBit e)
    ∧ (q0.rxlen.toNat = 8 ∧ ¬ validFrame q0 8)
    ∧ (validFrame q2 8 ∧ ¬ exceptionBit q2 ∧ q2.rxbuf 4 ++ q2.rxbuf 5 ≠ q2.qty)
    ∧ (validFrame q3 8 ∧ ¬ exceptionBit q3 ∧ q3.rxbuf 2 ++ q3.rxbuf 3 ≠ q3.addr)
    ∧ (q6.rxlen.toNat = 9 ∧ validFrame q6 9 ∧ ¬ exceptionBit q6)
    ∧ (validFrame q2 8 ∧ q2.rxbuf 1 ≠ ({ q2 with func := 0x03 } : State).func
      ∧ q2.rxbuf 0 ≠ ({ q2 with slave := 0x02 } : State).slave) := by
  unfold validFrame exceptionBit
  decide +kernel

/-- Q4 and Q5, a 5-byte response with a bad CRC, and lengths 5 and 7. -/
theorem witness_ShortWriteExceptionsFollowTheParameter :
    let s := received (request 0x01 0x10 0x0001 2) [0x01, 0x90, 0x02, 0xCD, 0xC1]
    let u := received (request 0x01 0x10 0x0001 2) [0x01, 0x90, 0x02, 0xCD, 0xC0]
    let v := received (request 0x01 0x10 0x0001 2) (appendCrc [0x01, 0x90, 0x02, 0x00, 0x00])
    (s.rxlen.toNat = 5 ∧ s.params.wmExcShort = false ∧ exceptionBit s ∧ validFrame s 5)
    ∧ ({ s with params := { s.params with wmExcShort := true } } : State).params.wmExcShort = true
    ∧ (exceptionBit u ∧ ¬ validFrame u 5) ∧ (v.rxlen.toNat = 7 ∧ exceptionBit v ∧ validFrame v 7) := by
  unfold validFrame exceptionBit
  decide +kernel

/-- B4 and Q10. -/
theorem witness_WriteSingleEchoIsAccepted :
    let s := request 0x01 0x06 0x0001 0x0003
    let u := received s [0x01, 0x06, 0x00, 0x01, 0x00, 0x03, 0x98, 0x0B]
    (nextOf (exec .buildRead s)).map (fun t => decide (u.rxlen.toNat = t.txlen.toNat)
      && (List.range 8).all (fun i => u.rxbuf i == t.txbuf i)) = some true
    ∧ u.slave = s.slave ∧ u.func = s.func ∧ u.addr = s.addr ∧ u.qty = s.qty
    ∧ s.func.getLsbD 7 = false := by decide +kernel

/-- A timeout, and an exception response. -/
theorem witness_FailedCommandsWriteOnlyStatus :
    exec .parseRead State.reset = .next { State.reset with result := .timeout }
    ∧ ResultCode.timeout ≠ .success ∧ ResultCode.timeout ≠ .protocolException := ⟨rfl, by decide⟩

theorem witness_OperandRegistersOtherThanWcountAreNeverWritten :
    exec .crcInit State.reset = .next { State.reset with result := .success } := rfl

/-- A command for each kind of change: EXC_CODE, CRC, TXLEN with TXBUF, the parser's results, RAW and
SCALED. -/
theorem witness_OnlyTheNamedCommandsWriteEachResult :
    ((nextOf (exec .parseRead (received (request 0x01 0x03 0 0) [0x01, 0x83, 0x02, 0xC0, 0xF1]))).map
      (fun t => t.excCode) = some 0x02 ∧ State.reset.excCode = 0x00)
    ∧ ((nextOf (exec .crcInit { State.reset with crc := 0x1234 })).map (fun t => t.crc) = some 0xFFFF)
    ∧ ((nextOf (exec .buildRead { (request 0x01 0x03 0 2).setBytes (txOffset 0) [0x55] with
        txlen := 0 })).map (fun t => (t.txlen, t.txbuf 0)) = some (8, 0x01))
    ∧ ((nextOf (exec .parseRead ((received (request 0x01 0x03 0 0)
        [0x01, 0x03, 0x02, 0xFF, 0xFF, 0xB9, 0xF4]).setBytes (wbufOffset 0) [0x00, 0x00]))).map
        (fun t => (t.bytecount, t.wcount, t.wbuf 0)) = some (2, 1, 0xFFFF))
    ∧ ((nextOf (exec (.decode .uint16 .bigEndian) (words State.reset [0x0001]))).map
        (fun t => (t.raw, t.scaled)) = some (0x1, 0x3FF0000000000000)) := by decide +kernel

/-- A decode of a written word, and a command that reads no buffer. -/
theorem witness_NoFreeValueEntersAnInitialisedCommand :
    (commandReads (.decode .uint16 .bigEndian) (words State.reset [0x0001])).all
      (fun a => (Memory.get? (words State.reset [0x0001]).mem a).isSome) = true
    ∧ (commandReads (.decode .uint16 .bigEndian) (words State.reset [0x0001])) = [0x300, 0x301]
    ∧ commandReads .buildRead State.reset = [] := by decide

/-- Too few words, an unsupported order, and neither. -/
theorem witness_DecodeRejectsExactlyTheUnsupported :
    State.reset.wcount.toNat < need .uint16
    ∧ (words State.reset [0, 0]).wcount.toNat = need .float32
    ∧ unsupported .float32 .mixedBadc ∧ unsupported .float64 .mixedDcba
    ∧ ¬ ((words State.reset [0, 0]).wcount.toNat < need .float32 ∨ unsupported .float32 .littleEndian)
    ∧ ¬ unsupported .float64 .mixedBadc := by
  unfold unsupported
  decide

theorem witness_DecodeWritesRawAndScaled :
    need .float64 ≤ (words State.reset [0x4009, 0x21FB, 0x5444, 0x2D18]).wcount.toNat
    ∧ ¬ unsupported .float64 .mixedBadc := by
  unfold unsupported
  decide

theorem witness_RawDeterminesTheWords :
    (nextOf (exec (.decode .uint32 .mixedBadc) (words State.reset [0x1234, 0x5678]))).map
      (fun t => (t.result, t.raw)) = some (.success, 0x34127856)
    ∧ (nextOf (exec (.decode .uint32 .mixedBadc) (words { State.reset with slave := 0x01 }
        [0x1234, 0x5678, 0x9ABC]))).map (fun t => (t.result, t.raw)) = some (.success, 0x34127856) := by
  decide +kernel

/-- A value that is no NaN, the smallest NaN pattern and the largest. -/
theorem witness_ScaleOneIsExact :
    ¬ nanPattern 0x7FF0000000000000 ∧ nanPattern 0x7FF0000000000001 ∧ nanPattern 0xFFFFFFFFFFFFFFFF := by
  unfold nanPattern
  decide

/-- Infinity times zero, infinity minus infinity, and zero divided by zero. -/
theorem witness_NaNResultsAreCanonical :
    nanPattern (Float64.fmul 0x7FF0000000000000 0x0000000000000000)
    ∧ nanPattern (Float64.fadd 0x7FF0000000000000 0xFFF0000000000000)
    ∧ nanPattern (Float64.fsub 0x7FF0000000000000 0x7FF0000000000000)
    ∧ nanPattern (Float64.fdiv 0x0000000000000000 0x8000000000000000)
    ∧ nanPattern (Float64.fdiv 0x7FF0000000000000 0xFFF0000000000000)
    ∧ nanPattern 0x7FF8000000000001 := by
  unfold nanPattern
  decide +kernel

/-- The least magnitude that rounds to infinity, one unit less, and a tie between two neighbours. -/
theorem witness_RoundingIsToNearestTiesToEven :
    0 < 1 ∧ (2 ^ 54 - 1) * 2 ^ 2044 * 1 ≤ (2 ^ 54 - 1) * 2 ^ 2044
    ∧ (2 ^ 54 - 1) * 2 ^ 2044 - 1 < (2 ^ 54 - 1) * 2 ^ 2044 * 1
    ∧ Float64.unpack 0x4340000000000000 = .fin false (2 ^ 53 * 2 ^ 1074)
    ∧ Float64.unpack 0x4340000000000001 = .fin false ((2 ^ 53 + 2) * 2 ^ 1074)
    ∧ Float64.pack false ((2 ^ 53 + 1) * 2 ^ 1074) 1 = 0x4340000000000000 := by decide +kernel

/-- 1.0 and -2.0, the zeros of both signs, and a pattern of each class. -/
theorem witness_OperationsRoundTheExactResult :
    Float64.unpack 0x3FF0000000000000 = .fin false (2 ^ 1074)
    ∧ Float64.unpack 0x8000000000000000 = .fin true 0 ∧ Float64.unpack 0x0000000000000000 = .fin false 0
    ∧ (0x7FF0000000000000 / 2 ^ 52 % 2 ^ 11 = 2047 ∧ 0x7FF0000000000000 % 2 ^ 52 = 0)
    ∧ 0x7FF0000000000001 % 2 ^ 52 ≠ 0 ∧ 0x800FFFFFFFFFFFFF / 2 ^ 52 % 2 ^ 11 = 0
    ∧ 0x7FEFFFFFFFFFFFFF / 2 ^ 52 % 2 ^ 11 = 2046
    ∧ Float64.unpack 0x7FF0000000000000 = .inf false ∧ Float64.unpack 0xFFF0000000000000 = .inf true
    ∧ Float64.unpack 0xC000000000000000 = .fin true (2 ^ 1075)
    ∧ (2 ^ 1075 : Nat) ≠ 0 ∧ (2 ^ 1074 : Int) + -(2 ^ 1075) ≠ 0 ∧ (2 ^ 1074 : Int) - -(2 ^ 1075) ≠ 0 := by
  decide +kernel

theorem witness_IntegersConvertExactly :
    (-(2 ^ 53 - 1) : Int).natAbs < 2 ^ 53 ∧ (0 : Int).natAbs < 2 ^ 53 := by decide

/-- A NaN, an infinity, the largest subnormal, the least normal and the largest finite value. -/
theorem witness_WideningIsExact :
    (0x7F800001 / 2 ^ 23 % 2 ^ 8 = 255 ∧ 0x7F800001 % 2 ^ 23 ≠ 0)
    ∧ (0xFF800000 / 2 ^ 23 % 2 ^ 8 = 255 ∧ 0xFF800000 % 2 ^ 23 = 0)
    ∧ 0x007FFFFF / 2 ^ 23 % 2 ^ 8 = 0
    ∧ (0 < 0x00800000 / 2 ^ 23 % 2 ^ 8 ∧ 0x7F7FFFFF / 2 ^ 23 % 2 ^ 8 < 255) := by decide

/-- WCOUNT one below and at what two integer words need, and each kind of fraction order. -/
theorem witness_IntFracWritesRawAndScaled :
    (words State.reset [0, 0, 0]).wcount.toNat < 2 + 2
    ∧ ¬ ((words State.reset [0, 0, 0, 0]).wcount.toNat < 2 + 2 ∨ ByteOrder.littleEndian = .mixedBadc
      ∨ ByteOrder.littleEndian = .mixedDcba)
    ∧ ¬ ((words State.reset [0, 0, 0]).wcount.toNat < 1 + 2 ∨ ByteOrder.bigEndian = .mixedBadc
      ∨ ByteOrder.bigEndian = .mixedDcba) := by decide

theorem witness_WideDoubleIsABigEndianDecode :
    4 ≤ (words State.reset [0x4009, 0x21FB, 0x5444, 0x2D18]).wcount.toNat := by decide

/-- L15, L16, L17 and L23 are rejected; L18 is not, although REF is a NaN. -/
theorem witness_LevelPctComputesAndClamps :
    (level 0x4014000000000000 0 0x0000000000000000).span = 0x0000000000000000
    ∧ (level 0x4014000000000000 0 0x8000000000000000).span = 0x8000000000000000
    ∧ nanPattern (level 0x7FF8000000000000 0 0x3FF0000000000000).scaled
    ∧ nanPattern (Float64.fmul (Float64.fdiv 0x7FF0000000000000 0x7FF0000000000000) 0x4059000000000000)
    ∧ nanPattern (level 0x4014000000000000 0x7FF8000000000000 0x3FF0000000000000).ref
    ∧ ¬ nanPattern (level 0x4014000000000000 0x7FF8000000000000 0x3FF0000000000000).scaled
    ∧ ¬ nanPattern (level 0x4014000000000000 0x7FF8000000000000 0x3FF0000000000000).span
    ∧ ¬ nanPattern (Float64.fmul (Float64.fdiv 0x4014000000000000 0x3FF0000000000000)
        0x4059000000000000)
    ∧ Float64.unpack (Float64.fmul (Float64.fdiv 0xFFF0000000000000 0x3FF0000000000000)
        0x4059000000000000) = .inf true
    ∧ Float64.unpack (Float64.fmul (Float64.fdiv 0x7FF0000000000000 0x3FF0000000000000)
        0x4059000000000000) = .inf false
    ∧ Float64.unpack (Float64.fmul (Float64.fdiv 0xC014000000000000 0x4059000000000000)
        0x4059000000000000) = .fin true (5 * 2 ^ 1074) := by
  unfold nanPattern
  decide +kernel

/-- L3, and the percentages of L12, L20 and L22. -/
theorem witness_LevelPctResultIsClamped :
    (nextOf (exec (.levelPct .direct true) (level 0x4062C00000000000 0 0x4059000000000000))).map
      (fun t => (t.result, t.scaled)) = some (.success, 0x4059000000000000)
    ∧ Float64.fmul (Float64.fdiv 0x8000000000000000 0x4059000000000000) 0x4059000000000000
      = 0x8000000000000000
    ∧ Float64.fmul (Float64.fdiv 0x7FF0000000000000 0x3FF0000000000000) 0x4059000000000000
      = 0x7FF0000000000000
    ∧ Float64.fmul (Float64.fdiv 0xFFF0000000000000 0x3FF0000000000000) 0x4059000000000000
      = 0xFFF0000000000000 := by decide +kernel

/-- W6 and W7 by DIRECT, and L5 by REFERENCED. -/
theorem witness_ClampExamples :
    Float64.fmul (Float64.fdiv 0xC014000000000000 0x4059000000000000) 0x4059000000000000
      = 0xC014000000000000
    ∧ Float64.fmul (Float64.fdiv 0x4062C00000000000 0x4059000000000000) 0x4059000000000000
      = 0x4062C00000000000
    ∧ Float64.fmul (Float64.fdiv (Float64.fsub 0x4059000000000000 0x405A400000000000)
        0x4059000000000000) 0x4059000000000000 = 0xC014000000000000 := by decide +kernel

/-- A token of the default table, a type name that is none, and a string that is neither. -/
theorem witness_TokensResolveByTableThenName :
    Config.defaultTokenTable.lookup "UINT32_3412" = some (.uint32, .littleEndian)
    ∧ Config.defaultTokenTable.lookup "HEX" = none
    ∧ Config.defaultTokenTable.lookup "hex" = none
    ∧ "hex" ∉ ["UINT16", "INT16", "UINT32", "INT32", "FLOAT32", "FLOAT64", "HEX"] := by decide +kernel

theorem witness_TokenDigitsNameValueBytes :
    (("FLOAT64_21436587", (PrimType.float64, ByteOrder.mixedBadc)) : String × (PrimType × ByteOrder))
      ∈ Config.defaultTokenTable
    ∧ orderSupported .float64 .mixedBadc = true
    ∧ (suffixDigits "FLOAT64_21436587")[7]? = some 7 := by decide +kernel

/-- The invariant holds of a machine about to serve CRC_INIT, and a step is taken from it. -/
theorem witness_StepKeepsTheInvariant :
    StateInv (pendingEvents [.access (cmdWrite 0 0x00000001)])
    ∧ step (pendingEvents [.access (cmdWrite 0 0x00000001)])
      = .next { State.reset with lastOp := 0x01, result := .success, response := .done } := by
  refine ⟨⟨rfl, fun c hc => (by cases hc), by decide, by decide, by decide, fun _ => rfl,
    fun h => ?_⟩, rfl⟩
  exact absurd h (by decide)

end Sys2Proof.Tests
end

section
/-! The numbers of 00_scope.md rule R10. -/

namespace Sys2Proof.Machine.Float64

/-- Settles O50: the integer `n` is packed as `|n| * 2^1074` units, a magnitude of at most 53 significant
bits, and such a magnitude is packed exactly. -/
theorem integersConvertExactly : Obligations.IntegersConvertExactly := by
  intro n hn
  have exact_units :=
    unpack_pack_scaled (decide (n < 0)) (j := 1074) Nat.one_pos hn (by omega)
  rw [Nat.mul_one] at exact_units
  exact exact_units

end Sys2Proof.Machine.Float64
end

section
/-! 10_state.md: what a command leaves unchanged, said once for every command. -/

namespace Sys2Proof.Machine

open Sys2Proof.Safety

/-- The fields a command may write: RESULT, the result registers and the buffer memory. -/
theorem exec_frame {i : Instr} {s t : State} (h : exec i s = .next t) :
    t = { s with
      result := t.result, excCode := t.excCode, crc := t.crc, txlen := t.txlen
      bytecount := t.bytecount, wcount := t.wcount, raw := t.raw, scaled := t.scaled
      mem := t.mem } := by
  rcases exec_cases h with ⟨_, _, _, _, rfl⟩ | ⟨_, rfl⟩ | ⟨_, _, rfl⟩ | ⟨_, _, _, rfl⟩ |
    ⟨_, _, rfl⟩ | ⟨_, _, _, _, rfl⟩ | ⟨_, _, _, _, rfl⟩ <;> rfl

theorem exec_lastOp {i : Instr} {s t : State} (h : exec i s = .next t) : t.lastOp = s.lastOp := by
  rw [exec_frame h]

theorem exec_epoch {i : Instr} {s t : State} (h : exec i s = .next t) : t.epoch = s.epoch := by
  rw [exec_frame h]

theorem exec_params {i : Instr} {s t : State} (h : exec i s = .next t) : t.params = s.params := by
  rw [exec_frame h]

/-- Every command sets RESULT to a code other than NONE. -/
theorem exec_result_ne_none {i : Instr} {s t : State} (h : exec i s = .next t) :
    t.result ≠ .none := by
  rcases exec_cases h with ⟨_, _, hc, _, rfl⟩ | ⟨_, rfl⟩ | ⟨_, _, rfl⟩ | ⟨_, _, _, rfl⟩ |
    ⟨_, _, rfl⟩ | ⟨_, _, _, _, rfl⟩ | ⟨_, _, _, _, rfl⟩
  · exact hc
  all_goals simp

/-- The payload that PARSE_READ accepts fits the received frame, so BYTECOUNT is even and at most 250
and its words fit WBUF. -/
theorem ReadAccepted.bytecount_bounds {s : State} (h : ReadAccepted s) :
    (s.rxbuf 2).toNat % 2 = 0 ∧ (s.rxbuf 2).toNat ≤ 250 := by
  obtain ⟨_, hmax, _, _, _, heven, hlen⟩ := h
  rw [getLsbD_zero_eq, decide_eq_false_iff_not] at heven
  have hb := (s.rxbuf 2).isLt
  constructor <;> omega

/-- What a command does to the buffer memory: a builder places a frame in TXBUF, PARSE_READ a payload in
WBUF, and nothing else writes it. -/
theorem exec_mem {i : Instr} {s t : State} (h : exec i s = .next t) :
    t.mem = s.mem ∨
    ((i = .buildRead ∨ i = .buildWriteMultiple) ∧
      ∃ bs, bs.length ≤ 256 ∧ t.mem = Memory.setBytes s.mem (txOffset 0) bs) ∨
    (i = .parseRead ∧ ∃ bs, bs.length ≤ 256 ∧ t.mem = Memory.setBytes s.mem (wbufOffset 0) bs) := by
  rcases exec_cases h with ⟨_, _, _, _, rfl⟩ | ⟨_, rfl⟩ | ⟨_, _, rfl⟩ | ⟨hi, f, hf, rfl⟩ |
    ⟨hi, ha, rfl⟩ | ⟨_, _, _, _, rfl⟩ | ⟨_, _, _, _, rfl⟩
  case inr.inr.inr.inl => exact .inr (.inl ⟨hi, f, hf, rfl⟩)
  case inr.inr.inr.inr.inl =>
    refine .inr (.inr ⟨hi, _, ?_, rfl⟩)
    have hbounds := ha.bytecount_bounds
    rw [length_payloadBytes]
    omega
  all_goals exact .inl rfl

/-- Which buffer bytes a command may change. -/
theorem exec_byte {i : Instr} {s t : State} (h : exec i s = .next t) (a : Nat) :
    t.byte a = s.byte a ∨
    ((i = .buildRead ∨ i = .buildWriteMultiple) ∧ 0x100 ≤ a ∧ a < 0x200) ∨
    (i = .parseRead ∧ 0x300 ≤ a ∧ a < 0x400) := by
  have hepoch := exec_epoch h
  have hrange : ∀ (c : Nat) (bs : List Byte), bs.length ≤ 256 →
      t.mem = Memory.setBytes s.mem c bs → t.byte a = s.byte a ∨ (c ≤ a ∧ a < c + 256) := by
    intro c bs hlen hmem
    by_cases hin : c ≤ a ∧ a < c + 256
    · exact .inr hin
    · have hout : (s.setBytes c bs).byte a = s.byte a := State.byte_setBytes_out s (by omega)
      exact .inl ((State.byte_congr (s := s.setBytes c bs) hmem hepoch a).trans hout)
  rcases exec_mem h with hm | ⟨hi, bs, hlen, hm⟩ | ⟨hi, bs, hlen, hm⟩
  · exact .inl (State.byte_congr hm hepoch a)
  · exact (hrange _ _ hlen hm).imp_right fun hin => .inl ⟨hi, hin⟩
  · exact (hrange _ _ hlen hm).imp_right fun hin => .inr ⟨hi, hin⟩

/-- Settles O39: the registers by the frame, RXBUF because the bytes a command may change lie in TXBUF or
WBUF. -/
theorem operandRegistersOtherThanWcountAreNeverWritten :
    Obligations.OperandRegistersOtherThanWcountAreNeverWritten := by
  intro i s t h
  have hrx : ∀ k, k < 256 → t.rxbuf k = s.rxbuf k := by
    intro k hk
    have hoff : rxOffset k = 0x200 + k := rfl
    rcases exec_byte h (rxOffset k) with hb | ⟨_, _, hb⟩ | ⟨_, hb, _⟩
    · exact hb
    all_goals omega
  refine ⟨?_, ?_, ?_, ?_, ?_, ?_, ?_, ?_, hrx, exec_lastOp h, exec_epoch h, exec_params h, ?_, ?_⟩ <;>
    rw [exec_frame h]

/-- Which commands may change each result register. -/
theorem exec_resultRegisters {i : Instr} {s t : State} (h : exec i s = .next t) :
    (t.excCode ≠ s.excCode → (i = .parseRead ∨ i = .parseWrite)
      ∧ t.result = .protocolException ∧ t.excCode = s.rxbuf 2)
    ∧ (t.crc ≠ s.crc →
      i = .crcInit ∨ (∃ b, i = .crcFeed b) ∨ ∃ buf len, i = .crcCompute buf len)
    ∧ (t.txlen ≠ s.txlen → i = .buildRead ∨ i = .buildWriteMultiple)
    ∧ (t.bytecount ≠ s.bytecount → i = .parseRead)
    ∧ (t.wcount ≠ s.wcount → i = .parseRead)
    ∧ (t.raw ≠ s.raw → (∃ ty o, i = .decode ty o) ∨ ∃ n io fo, i = .decodeIntfrac n io fo)
    ∧ (t.scaled ≠ s.scaled → (∃ ty o, i = .decode ty o) ∨ (∃ n io fo, i = .decodeIntfrac n io fo)
      ∨ ∃ v c, i = .levelPct v c) := by
  rcases exec_cases h with ⟨c, _, _, _, rfl⟩ | ⟨hi, rfl⟩ | ⟨hi, c, rfl⟩ | ⟨hi, f, _, rfl⟩ |
    ⟨hi, _, rfl⟩ | ⟨hi, r, x, y, rfl⟩ | ⟨hi, c, p, _, rfl⟩
  · simp
  · simp [hi]
  · simp [hi]
  · simp [hi]
  · simp [hi]
  · exact ⟨by simp, by simp, by simp, by simp, by simp, fun _ => hi, fun _ => or_assoc.mp (.inl hi)⟩
  · exact ⟨by simp, by simp, by simp, by simp, by simp, by simp, fun _ => .inr (.inr hi)⟩

/-- Settles O40: the registers by `exec_resultRegisters`, the buffers by the bytes a command may
change. -/
theorem onlyTheNamedCommandsWriteEachResult : Obligations.OnlyTheNamedCommandsWriteEachResult := by
  intro i s t h
  obtain ⟨hexc, hcrc, htxlen, hbytecount, hwcount, hraw, hscaled⟩ := exec_resultRegisters h
  refine ⟨hexc, hcrc, htxlen, hbytecount, hwcount, hraw, hscaled, ?txbuf, ?wbuf⟩
  case txbuf =>
    intro k hk hne
    have hoff : txOffset k = 0x100 + k := rfl
    rcases exec_byte h (txOffset k) with hb | ⟨hi, _⟩ | ⟨_, hlo, _⟩
    · exact absurd hb hne
    · exact hi
    · omega
  case wbuf =>
    intro k hk hne
    by_contra hi
    have hoff : wbufOffset k = 0x300 + 2 * k := rfl
    have hsame : ∀ a, 0x300 ≤ a → t.byte a = s.byte a := by
      intro a ha
      rcases exec_byte h a with hb | ⟨_, _, hhi⟩ | ⟨hread, _⟩
      · exact hb
      · omega
      · exact absurd hread hi
    refine hne ?_
    unfold State.wbuf
    rw [hsame _ (by omega), hsame _ (by omega)]

end Sys2Proof.Machine
end

section
/-! 10_state.md: the invariant. -/

namespace Sys2Proof.Machine

open Sys2Proof.Safety

/-- A product that is a NaN is the canonical one (43_decode.md rule R215). -/
theorem Float64.fmul_eq_canonicalNaN {x y : Wide}
    (h : Float64.isNaN (Float64.fmul x y) = true) : Float64.fmul x y = 0x7FF8000000000000 := by
  have hnan : Float64.unpack (Float64.fmul x y) = .nan := by simpa [Float64.isNaN] using h
  rcases Float64.fmul_cases x y with hc | ⟨a, hc⟩ | ⟨a, n, d, hc⟩
  · exact hc
  · rw [hc, Float64.unpack_packInf] at hnan
    cases hnan
  · rw [hc] at hnan
    exact absurd hnan (Float64.unpack_pack_ne_nan a n d)

/-- Clamping makes no NaN. -/
theorem isNaN_clampPercent {c : Bool} {p : Wide} (h : Float64.isNaN p = false) :
    Float64.isNaN (clampPercent c p) = false := by
  rcases clampPercent_cases c p with ⟨_, hc⟩ | ⟨_, _, _, hc⟩ | ⟨_, _, hc⟩ <;> rw [hc]
  · decide
  · decide
  · exact h

/-- The state right after reset meets the invariant if its parameters are legal. -/
theorem stateInv_resetNow {s : State} (h : s.params.wf = true) : StateInv s.resetNow where
  memCanonical := rfl
  memInBuffers := fun _ hc => nomatch hc
  paramsLegal := h
  txlenFits := Nat.zero_le 256
  bytecountEven := ⟨rfl, Nat.zero_le 250⟩
  noneMeansNoCommand := fun _ => rfl
  scaledNaNCanonical := fun hn => absurd hn (show ¬ Float64.isNaN 0x0000000000000000 = true by decide)

/-- A write of bytes inside the buffers keeps the invariant. -/
theorem stateInv_setBytes {s : State} (h : StateInv s) {a : Nat} {bs : List Byte} (lo : 0x100 ≤ a)
    (hi : a + bs.length ≤ 0x400) : StateInv (s.setBytes a bs) :=
  { h with
    memCanonical := Memory.wf_setBytes bs h.memCanonical a
    memInBuffers := Memory.inBuffers_setBytes bs h.memInBuffers a lo hi }

/-- The host's answer is no part of the invariant. -/
theorem stateInv_respond {s : State} (h : StateInv s) (r : BusResponse) : StateInv (s.respond r) :=
  { h with }

/-- What is pending is no part of the invariant. -/
theorem stateInv_pending {s : State} (h : StateInv s) (p : List HostEvent) :
    StateInv { s with pending := p } :=
  { h with }

/-- No read-write register is part of the invariant. -/
theorem stateInv_writeReg {s : State} (h : StateInv s) (r : Reg) (v : Word) :
    StateInv (s.writeReg r v) := by
  rw [State.writeReg_frame]
  exact { h with }

theorem exec_memCanonical {i : Instr} {s t : State} (h : exec i s = .next t)
    (hm : Memory.wf s.mem = true) : Memory.wf t.mem = true := by
  rcases exec_mem h with ht | ⟨_, bs, _, ht⟩ | ⟨_, bs, _, ht⟩ <;> rw [ht]
  · exact hm
  · exact Memory.wf_setBytes bs hm _
  · exact Memory.wf_setBytes bs hm _

theorem exec_memInBuffers {i : Instr} {s t : State} (h : exec i s = .next t)
    (hm : inBuffers s.mem) : inBuffers t.mem := by
  rcases exec_mem h with ht | ⟨_, bs, hlen, ht⟩ | ⟨_, bs, hlen, ht⟩ <;> rw [ht]
  · exact hm
  · exact Memory.inBuffers_setBytes bs hm _ (by decide) (by unfold txOffset; omega)
  · exact Memory.inBuffers_setBytes bs hm _ (by decide) (by unfold wbufOffset; omega)

/-- TXLEN stays the length of a frame that fits TXBUF. -/
theorem exec_txlenFits {i : Instr} {s t : State} (h : exec i s = .next t)
    (hx : s.txlen.toNat ≤ 256) : t.txlen.toNat ≤ 256 := by
  rcases exec_cases h with ⟨_, _, _, _, rfl⟩ | ⟨_, rfl⟩ | ⟨_, _, rfl⟩ | ⟨_, f, hf, rfl⟩ |
    ⟨_, _, rfl⟩ | ⟨_, _, _, _, rfl⟩ | ⟨_, _, _, _, rfl⟩
  case inr.inr.inr.inl =>
    simp only [State.finish_txlen, State.placeFrame_txlen, BitVec.toNat_ofNat]
    omega
  all_goals exact hx

theorem exec_bytecountEven {i : Instr} {s t : State} (h : exec i s = .next t)
    (hb : s.bytecount.toNat % 2 = 0 ∧ s.bytecount.toNat ≤ 250) :
    t.bytecount.toNat % 2 = 0 ∧ t.bytecount.toNat ≤ 250 := by
  rcases exec_cases h with ⟨_, _, _, _, rfl⟩ | ⟨_, rfl⟩ | ⟨_, _, rfl⟩ | ⟨_, _, _, rfl⟩ |
    ⟨_, ha, rfl⟩ | ⟨_, _, _, _, rfl⟩ | ⟨_, _, _, _, rfl⟩
  case inr.inr.inr.inr.inl => exact ha.bytecount_bounds
  all_goals exact hb

/-- SCALED stays no NaN but the canonical one: it is set to a product or to a clamped percentage. -/
theorem exec_scaledNaNCanonical {i : Instr} {s t : State} (h : exec i s = .next t)
    (hn : Float64.isNaN s.scaled = true → s.scaled = 0x7FF8000000000000) :
    Float64.isNaN t.scaled = true → t.scaled = 0x7FF8000000000000 := by
  rcases exec_cases h with ⟨_, _, _, _, rfl⟩ | ⟨_, rfl⟩ | ⟨_, _, rfl⟩ | ⟨_, _, _, rfl⟩ |
    ⟨_, _, rfl⟩ | ⟨_, _, x, y, rfl⟩ | ⟨_, c, p, hp, rfl⟩
  case inr.inr.inr.inr.inr.inl => exact Float64.fmul_eq_canonicalNaN
  case inr.inr.inr.inr.inr.inr =>
    intro hc
    rw [State.finish_scaled, isNaN_clampPercent hp] at hc
    cases hc
  all_goals exact hn

/-- Running a command word keeps the invariant. LAST_OP is written before the command runs, so the
invariant fails in between when no command had run: NONE is gone only once the command ends. -/
theorem stateInv_runCommand {w : Word} {s t : State} (h : StateInv s)
    (hrun : runCommand w s = .next t) : StateInv t := by
  rcases runCommand_cases hrun with ⟨i, _, hx⟩ | ⟨_, _, rfl⟩
  · exact
      { memCanonical := exec_memCanonical hx h.memCanonical
        memInBuffers := exec_memInBuffers hx h.memInBuffers
        paramsLegal := (congrArg Params.wf (exec_params hx)).trans h.paramsLegal
        txlenFits := exec_txlenFits hx h.txlenFits
        bytecountEven := exec_bytecountEven hx h.bytecountEven
        noneMeansNoCommand := fun hnone => absurd hnone (exec_result_ne_none hx)
        scaledNaNCanonical := exec_scaledNaNCanonical hx h.scaledNaNCanonical }
  · exact { h with noneMeansNoCommand := fun hnone => nomatch hnone }

/-- Serving an access keeps the invariant. -/
theorem stateInv_serveAccess {a : BusAccess} {s t : State} (h : StateInv s)
    (hserve : serveAccess a s = .next t) : StateInv t := by
  rcases serveAccess_cases hserve with rfl | ⟨v, _, rfl⟩ | ⟨r, v, _, rfl⟩ |
    ⟨o, v, _, lo, hi, rfl⟩ | ⟨w, u, _, hrun, rfl⟩
  · exact stateInv_respond h _
  · exact stateInv_respond h _
  · exact stateInv_respond (stateInv_writeReg h r v) _
  · exact stateInv_respond (stateInv_setBytes h lo (by rwa [length_leBytes])) _
  · exact stateInv_respond (stateInv_runCommand h hrun) _

/-- Settles O60, by the kinds of event a step can serve. -/
theorem stepKeepsTheInvariant : Obligations.StepKeepsTheInvariant := by
  intro s t h hstep
  rcases step_cases hstep with ⟨_, rfl⟩ | ⟨_, _, _, rfl⟩ | ⟨a, rest, _, hserve⟩
  · exact h
  · exact stateInv_resetNow h.paramsLegal
  · exact stateInv_serveAccess (stateInv_pending h rest) hserve

/-- Settles O59: the state at power-on is the reset of one with the default parameters, which are
legal, but for the reset counter. -/
theorem resetMeetsTheInvariant : Obligations.ResetMeetsTheInvariant :=
  { stateInv_resetNow (s := State.reset) (by decide) with }

end Sys2Proof.Machine
end

section
/-! 10_state.md: what a command does not depend on. -/

namespace Sys2Proof.Machine

open Sys2Proof.Safety

/-- `s` with another LAST_OP, and with its unwritten bytes drawn by another reset counter. -/
def State.relabel (o : BitVec 8) (e : Nat) (s : State) : State := { s with lastOp := o, epoch := e }

/-- Every command sets RESULT and none reads it. -/
theorem exec_finish (i : Instr) (s : State) (r : ResultCode) : exec i (s.finish r) = exec i s := by
  cases i <;> rfl

/-! Reads of two states that agree on a range of buffer bytes. -/

theorem mem_offsetsFrom {a n c : Nat} : c ∈ offsetsFrom a n ↔ a ≤ c ∧ c < a + n := by
  simp only [offsetsFrom, List.mem_map, List.mem_range]
  constructor
  · rintro ⟨k, hk, rfl⟩
    omega
  · intro hc
    exact ⟨c - a, by omega, by omega⟩

theorem bytes_congr_offsets {s t : State} {a n : Nat}
    (h : ∀ c ∈ offsetsFrom a n, t.byte c = s.byte c) : t.bytes a n = s.bytes a n :=
  State.bytes_congr n a fun _ hk => h _ (mem_offsetsFrom.mpr ⟨by omega, by omega⟩)

theorem rxbuf_congr_offsets {s t : State} {n k : Nat}
    (h : ∀ c ∈ offsetsFrom 0x200 n, t.byte c = s.byte c) (hk : k < n) : t.rxbuf k = s.rxbuf k :=
  h _ (mem_offsetsFrom.mpr ⟨by unfold rxOffset; omega, by unfold rxOffset; omega⟩)

theorem wbuf_congr_offsets {s t : State} {n k : Nat}
    (h : ∀ c ∈ offsetsFrom 0x300 (2 * n), t.byte c = s.byte c) (hk : k < n) :
    t.wbuf k = s.wbuf k := by
  have hoff : wbufOffset k = 0x300 + 2 * k := rfl
  unfold State.wbuf
  rw [h _ (mem_offsetsFrom.mpr ⟨by omega, by omega⟩), h _ (mem_offsetsFrom.mpr ⟨by omega, by omega⟩)]

theorem wbufValues_congr {s t : State} {n : Nat} (h : ∀ k < n, t.wbuf k = s.wbuf k) :
    wbufValues t n = wbufValues s n :=
  List.flatMap_congr fun k hk => by rw [h k (List.mem_range.mp hk)]

theorem payloadBytes_congr {s t : State} {n : Nat} (h : ∀ k < 3 + 2 * n, t.rxbuf k = s.rxbuf k) :
    payloadBytes t n = payloadBytes s n :=
  List.flatMap_congr fun k hk => by
    have hlt := List.mem_range.mp hk
    rw [State.rxField, State.rxField, h _ (by omega), h _ (by omega)]

/-- DECODE composes only the words that its type needs. -/
theorem pattern_congr {s t : State} (ty : PrimType) (o : ByteOrder)
    (h : ∀ k < wordsNeeded ty, t.wbuf k = s.wbuf k) : t.pattern ty o = s.pattern ty o := by
  unfold State.pattern
  cases ty <;> simp only [decodePattern, wordsNeeded] at h ⊢
  case uint16 | int16 => rw [h 0 (by decide)]
  case uint32 | int32 | float32 | hex => rw [h 0 (by decide), h 1 (by decide)]
  case float64 => rw [h 0 (by decide), h 1 (by decide), h 2 (by decide), h 3 (by decide)]

theorem intPattern_congr {s t : State} (n : IntWords) (io : ByteOrder)
    (h : ∀ k < intWordCount n + 2, t.wbuf k = s.wbuf k) : t.intPattern n io = s.intPattern n io := by
  cases n with
  | one => simp only [State.intPattern, h 0 (by decide)]
  | two => simp only [State.intPattern, h 0 (by decide), h 1 (by decide)]

theorem fracPattern_congr {s t : State} (n : IntWords) (fo : ByteOrder)
    (h : ∀ k < intWordCount n + 2, t.wbuf k = s.wbuf k) : t.fracPattern n fo = s.fracPattern n fo := by
  rw [State.fracPattern, State.fracPattern, h _ (by omega), h _ (by omega)]

/-! Each command in a relabelled state. -/

/-- The buffer bytes a command may read are the same ones after a relabelling. -/
def SameReads (o : BitVec 8) (e : Nat) (i : Instr) (s : State) : Prop :=
  ∀ a ∈ commandReads i s, (s.relabel o e).byte a = s.byte a

section
variable {o : BitVec 8} {e : Nat}

/-- A branch goes the same way in a relabelled state if its condition is the same. -/
theorem ite_relabel {p q : Prop} [Decidable p] [Decidable q] {t u t' u' : State} (hc : q = p)
    (ht : p → t' = t.relabel o e) (hu : ¬ p → u' = u.relabel o e) :
    (if q then t' else u') = (if p then t else u).relabel o e := by
  subst hc
  split
  · exact ht ‹_›
  · exact hu ‹_›

variable {s : State}

theorem execCrcCompute_relabel {buf : BufSel} {len : Nat}
    (h : SameReads o e (.crcCompute buf len) s) :
    execCrcCompute buf len (s.relabel o e)
      = mapNext (State.relabel o e) (execCrcCompute buf len s) := by
  refine congrArg Host.Outcome.next (ite_relabel rfl (fun _ => rfl) fun hlen => ?_)
  rw [SameReads, commandReads, if_pos (Nat.not_lt.mp hlen)] at h
  rw [bytes_congr_offsets h]
  rfl

theorem execCrcVerify_relabel {buf : BufSel} {len : Nat}
    (h : SameReads o e (.crcVerify buf len) s) :
    execCrcVerify buf len (s.relabel o e)
      = mapNext (State.relabel o e) (execCrcVerify buf len s) := by
  refine congrArg (fun c => Host.Outcome.next ((s.relabel o e).finish c)) ?_
  refine ite_congr rfl (fun _ => rfl) fun hlen => ?_
  rw [SameReads, commandReads, if_pos (Nat.not_lt.mp hlen)] at h
  rw [bytes_congr_offsets h]

theorem execBuildWriteMultiple_relabel (h : SameReads o e .buildWriteMultiple s) :
    execBuildWriteMultiple (s.relabel o e)
      = mapNext (State.relabel o e) (execBuildWriteMultiple s) := by
  refine congrArg Host.Outcome.next (ite_relabel rfl (fun _ => rfl) fun haccept => ?_)
  have hfits := mt (writeCountRejected_iff s s.qty.toNat).mpr haccept
  rw [SameReads, commandReads, if_pos (by omega)] at h
  have hbody : writeRequestBody (s.relabel o e) s.qty.toNat = writeRequestBody s s.qty.toNat :=
    congrArg (_ ++ ·) (wbufValues_congr fun k hk => wbuf_congr_offsets h hk)
  exact congrArg (fun b => ((s.relabel o e).placeFrame (appendCrc b)).finish .success) hbody

/-- What the parsers read of a received frame of at least 5 bytes. -/
theorem received_congr_relabel (hreads : ∀ a ∈ offsetsFrom 0x200 s.rxlen.toNat,
      (s.relabel o e).byte a = s.byte a) (hmin : 5 ≤ s.rxlen.toNat) :
    (s.relabel o e).received s.rxlen.toNat = s.received s.rxlen.toNat
    ∧ (s.relabel o e).isExceptionResponse = s.isExceptionResponse
    ∧ (s.relabel o e).headerMatches = s.headerMatches
    ∧ (s.relabel o e).rxbuf 2 = s.rxbuf 2
    ∧ (s.relabel o e).protocolException = s.protocolException.relabel o e := by
  have hrx := fun k (hk : k < 5) => rxbuf_congr_offsets hreads (k := k) (by omega)
  exact ⟨bytes_congr_offsets hreads,
    congrArg (·.getLsbD 7) (hrx 1 (by decide)),
    congrArg₂ (fun x y => x == s.slave && y == s.func) (hrx 0 (by decide)) (hrx 1 (by decide)),
    hrx 2 (by decide),
    congrArg (fun x => { s.relabel o e with excCode := x }.finish .protocolException)
      (hrx 2 (by decide))⟩

/-- A payload within the received frame is the same one after a relabelling. -/
theorem acceptPayload_relabel
    (h : ∀ k < (s.rxbuf 2).toNat + 5, (s.relabel o e).rxbuf k = s.rxbuf k) :
    (s.relabel o e).acceptPayload = s.acceptPayload.relabel o e := by
  have hpayload : payloadBytes (s.relabel o e) ((s.rxbuf 2).toNat / 2)
      = payloadBytes s ((s.rxbuf 2).toNat / 2) := payloadBytes_congr fun k hk => h k (by omega)
  simp only [State.acceptPayload, h 2 (by omega), hpayload]
  rfl

theorem execParseRead_relabel (h : SameReads o e .parseRead s) :
    execParseRead (s.relabel o e) = mapNext (State.relabel o e) (execParseRead s) := by
  refine congrArg Host.Outcome.next (ite_relabel rfl (fun _ => rfl) fun hmax =>
    ite_relabel rfl (fun _ => rfl) fun hmin => ?_)
  rw [SameReads, commandReads, if_pos ⟨by omega, by omega⟩] at h
  obtain ⟨hframe, hexc, hheader, hcount, hprotocol⟩ := received_congr_relabel h (by omega)
  refine ite_relabel (congrArg (fun f => (!verify f) = true) hframe) (fun _ => rfl) fun _ =>
    ite_relabel (congrArg (· = true) hexc) (fun _ => hprotocol) fun _ =>
    ite_relabel (congrArg (fun b => (!b) = true) hheader) (fun _ => rfl) fun _ =>
    ite_relabel (congrArg (fun b : Byte => (b.getLsbD 0 || s.rxlen.toNat != b.toNat + 5) = true)
      hcount) (fun _ => rfl) fun hlength => ?_
  have hlen : s.rxlen.toNat = (s.rxbuf 2).toNat + 5 := by
    rw [Bool.or_eq_true, not_or] at hlength
    simpa using hlength.2
  exact congrArg (State.finish · .success)
    (acceptPayload_relabel fun k hk => rxbuf_congr_offsets h (hlen ▸ hk))

/-- The echo that PARSE_WRITE checks is the same one after a relabelling. -/
theorem echoMatches_relabel (h : ∀ k < 8, (s.relabel o e).rxbuf k = s.rxbuf k) :
    (s.relabel o e).echoMatches = s.echoMatches := by
  have hfield : ∀ k < 7, (s.relabel o e).rxField k = s.rxField k := by
    intro k hk
    rw [State.rxField, State.rxField, h k (by omega), h (k + 1) (by omega)]
  exact congrArg₂ (fun x y => x == s.addr && y == s.qty) (hfield 2 (by decide)) (hfield 4 (by decide))

theorem execParseWrite_relabel (h : SameReads o e .parseWrite s) :
    execParseWrite (s.relabel o e) = mapNext (State.relabel o e) (execParseWrite s) := by
  refine congrArg Host.Outcome.next (ite_relabel rfl (fun _ => rfl) fun hmax => ?_)
  by_cases hmin : 5 ≤ s.rxlen.toNat
  · rw [SameReads, commandReads, if_pos ⟨hmin, by omega⟩] at h
    obtain ⟨hframe, hexc, hheader, _, hprotocol⟩ := received_congr_relabel h hmin
    have hverify := congrArg (fun f => (!verify f) = true) hframe
    refine ite_relabel (congrArg (fun b => (s.params.wmExcShort && decide (5 ≤ s.rxlen.toNat)
        && decide (s.rxlen.toNat < 8) && b) = true) hexc)
      (fun _ => ite_relabel hverify (fun _ => rfl) fun _ => hprotocol) fun _ =>
      ite_relabel rfl (fun _ => rfl) fun hlong =>
      ite_relabel hverify (fun _ => rfl) fun _ =>
      ite_relabel (congrArg (· = true) hexc) (fun _ => hprotocol) fun _ =>
      ite_relabel (congrArg (fun b => (!b) = true) hheader) (fun _ => rfl) fun _ =>
      ite_relabel (congrArg (fun b => (!b) = true) (echoMatches_relabel fun k hk => ?_))
        (fun _ => rfl) fun _ =>
      ite_relabel rfl (fun _ => rfl) fun _ => rfl
    exact rxbuf_congr_offsets h (by omega)
  · have hguard : ∀ b, ¬ (s.params.wmExcShort && decide (5 ≤ s.rxlen.toNat)
        && decide (s.rxlen.toNat < 8) && b) = true := by simp [hmin]
    have hshort : s.rxlen.toNat < 8 := by omega
    exact ite_relabel (propext (iff_of_false (hguard _) (hguard _)))
      (fun hg => absurd hg (hguard _)) fun _ =>
      ite_relabel rfl (fun _ => rfl) fun hlong => absurd hshort hlong

theorem execDecode_relabel {ty : PrimType} {bo : ByteOrder} (h : SameReads o e (.decode ty bo) s) :
    execDecode ty bo (s.relabel o e) = mapNext (State.relabel o e) (execDecode ty bo s) := by
  refine congrArg Host.Outcome.next (ite_relabel rfl (fun _ => rfl) fun hwords =>
    ite_relabel rfl (fun _ => rfl) fun _ => ?_)
  rw [SameReads, commandReads, if_pos (Nat.not_lt.mp hwords)] at h
  rw [pattern_congr ty bo fun k hk => wbuf_congr_offsets h hk]
  rfl

theorem execDecodeIntfrac_relabel {n : IntWords} {io fo : ByteOrder}
    (h : SameReads o e (.decodeIntfrac n io fo) s) :
    execDecodeIntfrac n io fo (s.relabel o e)
      = mapNext (State.relabel o e) (execDecodeIntfrac n io fo s) := by
  refine congrArg Host.Outcome.next (ite_relabel rfl (fun _ => rfl) fun hwords =>
    ite_relabel rfl (fun _ => rfl) fun _ => ?_)
  rw [SameReads, commandReads, if_pos (Nat.not_lt.mp hwords)] at h
  have hwbuf : ∀ k < intWordCount n + 2, (s.relabel o e).wbuf k = s.wbuf k :=
    fun k hk => wbuf_congr_offsets h hk
  rw [intPattern_congr n io hwbuf, fracPattern_congr n fo hwbuf]
  rfl

theorem execLevelPct_relabel (v : LevelVar) (c : Bool) :
    execLevelPct v c (s.relabel o e) = mapNext (State.relabel o e) (execLevelPct v c s) :=
  congrArg Host.Outcome.next (ite_relabel rfl (fun _ => rfl) fun _ =>
    ite_relabel rfl (fun _ => rfl) fun _ => rfl)

/-- A command does the same in a relabelled state, if the bytes it may read are the same there. -/
theorem exec_relabel {i : Instr} (h : SameReads o e i s) :
    exec i (s.relabel o e) = mapNext (State.relabel o e) (exec i s) := by
  cases i with
  | nop => rfl
  | crcInit => rfl
  | crcFeed b => rfl
  | crcCompute buf len => exact execCrcCompute_relabel h
  | crcVerify buf len => exact execCrcVerify_relabel h
  | buildRead => rfl
  | buildWriteMultiple => exact execBuildWriteMultiple_relabel h
  | parseRead => exact execParseRead_relabel h
  | parseWrite => exact execParseWrite_relabel h
  | decode ty bo => exact execDecode_relabel h
  | decodeIntfrac n io fo => exact execDecodeIntfrac_relabel h
  | levelPct v c => exact execLevelPct_relabel v c

end

/-- Settles O41: RESULT is set and never read, and a new LAST_OP is a relabelling that keeps every
byte. -/
theorem statusNeverSteersACommand : Obligations.StatusNeverSteersACommand := by
  intro i s r o
  obtain ⟨t, ht⟩ := exec_completes i s
  calc exec i { s with result := r, lastOp := o }
    _ = exec i ((s.relabel o s.epoch).finish r) := rfl
    _ = exec i (s.relabel o s.epoch) := exec_finish i _ r
    _ = mapNext (State.relabel o s.epoch) (exec i s) := exec_relabel fun _ _ => rfl
    _ = mapNext (fun u => { u with lastOp := o }) (exec i s) := by
      rw [ht, mapNext_next, mapNext_next, ← exec_epoch ht]
      rfl

/-- Settles O42: another reset counter is a relabelling that keeps every byte written since reset. -/
theorem noFreeValueEntersAnInitialisedCommand :
    Obligations.NoFreeValueEntersAnInitialisedCommand := by
  intro i s e hinit
  obtain ⟨t, ht⟩ := exec_completes i s
  have hreads : SameReads s.lastOp e i s := fun a ha => State.byte_of_written s e (hinit a ha)
  calc exec i { s with epoch := e }
    _ = exec i (s.relabel s.lastOp e) := rfl
    _ = mapNext (State.relabel s.lastOp e) (exec i s) := exec_relabel hreads
    _ = mapNext (fun u => { u with epoch := e }) (exec i s) := by
      rw [ht, mapNext_next, mapNext_next, ← exec_lastOp ht]
      rfl

end Sys2Proof.Machine
end

section
/-! 10_state.md: reset, register reads, and the command that a write to CMD runs. -/

namespace Sys2Proof.Machine

open Sys2Proof.Safety

/-- STATUS is 0 in every state whose RESULT is NONE and whose LAST_OP is 0. -/
theorem statusWord_eq_zero {s : State} (hres : s.result = .none) (hop : s.lastOp = 0x00) :
    statusWord s = 0x00000000 := by
  rw [statusWord, hres, hop]
  decide

/-- Settles O17: the step gives `State.resetNow`, which differs from `State.reset` in the reset counter,
the parameters and the pending events only. -/
theorem resetGivesTheListedState : Obligations.ResetGivesTheListedState := by
  intro s cut rest hp
  have hstep : step s = .next { s with pending := rest }.resetNow := step_event hp
  refine ⟨_, hstep, rfl, rfl, Nat.succ_ne_self s.epoch, ?_⟩
  intro u hu
  rw [List.mem_pair] at hu
  rcases hu with rfl | rfl <;>
    exact ⟨statusWord_eq_zero rfl rfl, rfl, rfl, rfl, rfl, rfl, rfl, rfl, rfl, rfl, rfl, rfl, rfl, rfl,
      rfl, rfl, rfl, rfl, fun _ => rfl⟩

/-- STATUS as a number (rule R33). -/
theorem toNat_statusWord (s : State) :
    (statusWord s).toNat = s.lastOp.toNat * 256 + (resultBits s.result).toNat := by
  have hop := s.lastOp.isLt
  have hres := (resultBits s.result).isLt
  rw [statusWord, BitVec.toNat_or, BitVec.toNat_shiftLeft, BitVec.toNat_setWidth,
    BitVec.toNat_setWidth, Nat.shiftLeft_eq, Nat.mod_eq_of_lt (a := s.lastOp.toNat) (by omega),
    Nat.mod_eq_of_lt (a := (resultBits s.result).toNat) (by omega),
    Nat.mod_eq_of_lt (a := s.lastOp.toNat * 2 ^ 8) (by omega), Nat.mul_comm,
    ← Nat.two_pow_add_eq_or_of_lt (by omega)]

theorem toNat_loHalf (v : Wide) : (loHalf v).toNat = v.toNat % 2 ^ 32 := by
  simp [loHalf]

theorem toNat_hiHalf (v : Wide) : (hiHalf v).toNat = v.toNat / 2 ^ 32 := by
  have hv := v.isLt
  rw [hiHalf, BitVec.extractLsb'_toNat, Nat.shiftRight_eq_div_pow, Nat.mod_eq_of_lt (by omega)]

/-- Settles O10: STATUS from its two fields, a 64-bit register by halves, and any other field by its own
number. -/
theorem registerReadsReturnTheFields : Obligations.RegisterReadsReturnTheFields := by
  intro s r rest hp
  rw [specOffset_eq_regOffset] at hp
  refine ⟨step_regRead hp, ?_⟩
  cases r
  case cmd => rfl
  case status =>
    refine (toNat_statusWord s).trans ?_
    cases s.result <;> rfl
  case scaleLo | rawLo | scaledLo | refLo | spanLo => exact toNat_loHalf _
  case scaleHi | rawHi | scaledHi | refHi | spanHi => exact toNat_hiHalf _
  all_goals exact BitVec.toNat_setWidth_of_le (by decide)

/-- The number of a bit string with a byte after it. -/
theorem toNat_append_byte {n : Nat} (a : BitVec n) (b : Byte) :
    (a ++ b).toNat = a.toNat * 256 + b.toNat := by
  rw [BitVec.toNat_append, Nat.shiftLeft_eq, Nat.mul_comm, ← Nat.two_pow_add_eq_or_of_lt b.isLt]

/-- The four bytes that carry a 32-bit number on the bus are read as its word. -/
theorem wordOfBytes_bytes {w : Nat} (h : w < 2 ^ 32) :
    wordOfBytes (BitVec.ofNat 8 w) (BitVec.ofNat 8 (w / 0x100)) (BitVec.ofNat 8 (w / 0x10000))
      (BitVec.ofNat 8 (w / 0x1000000)) = BitVec.ofNat 32 w := by
  apply BitVec.eq_of_toNat_eq
  simp only [wordOfBytes, toNat_append_byte, BitVec.toNat_ofNat]
  omega

/-- The OP field of the word of a number is the number's low byte. -/
theorem opField_ofNat (w : Nat) : opField (BitVec.ofNat 32 w) = BitVec.ofNat 8 w := by
  apply BitVec.eq_of_toNat_eq
  rw [opField, BitVec.extractLsb'_toNat, BitVec.toNat_ofNat, BitVec.toNat_ofNat, Nat.shiftRight_zero]
  omega

/-- A table word that the decoder reads is read alike from CMD. -/
theorem decodeWord_of_decodeTableWord {w : Nat} {i : Instr} (hw : w < 2 ^ 32)
    (h : decodeTableWord 32 w = some i) : decodeWord (BitVec.ofNat 32 w) = .instr i := by
  have hbytes : decodeBytes (bytesOfTableWord (w % 2 ^ 32)) = decodeWord (BitVec.ofNat 32 w) := by
    rw [Nat.mod_eq_of_lt hw]
    exact congrArg decodeWord (wordOfBytes_bytes hw)
  rw [decodeTableWord, if_pos (Nat.le_refl 32), hbytes] at h
  cases hd : decodeWord (BitVec.ofNat 32 w) with
  | instr j => 
    rw [hd] at h
    exact congrArg Decoded.instr (Option.some.inj h)
  | illegal r =>
    rw [hd] at h
    cases h

/-- A write of a command word to CMD runs the command it decodes to. -/
theorem step_command {s t : State} {rest : List HostEvent} {w : Word} {i : Instr}
    (hp : s.pending = .access (cmdWrite s.params.pBase w) :: rest) (hd : decodeWord w = .instr i)
    (hx : exec i { s with pending := rest, lastOp := opField w } = .next t) :
    step s = .next (t.respond .done) := by
  have hrun : runCommand w { s with pending := rest } = .next t := by
    rw [runCommand, hd]
    exact hx
  rw [step_cmdWrite hp, hrun, mapNext_next]

/-- Settles O6: `withFetchWord` puts such a write first, and the OP field of the word of a number is the
number's low byte. -/
theorem stepRunsTheDecodedCommand : Obligations.StepRunsTheDecodedCommand := by
  refine ⟨fun s t rest w i => step_command, fun s t w i hw hd hx => ?_⟩
  have hp : (s.withFetchWord 32 w).pending
      = .access (cmdWrite s.params.pBase (BitVec.ofNat 32 w)) :: s.pending := by
    rw [State.withFetchWord, Nat.mod_eq_of_lt hw]
  refine step_command hp (decodeWord_of_decodeTableWord hw hd) ?_
  rw [opField_ofNat]
  exact hx

end Sys2Proof.Machine
end

section
/-! 20_memory.md: which accesses are accepted, and what an accepted one does. -/

namespace Sys2Proof.Machine

open Sys2Proof.Safety

theorem inWindow_iff {s : State} {addr : Nat} :
    s.inWindow addr = true ↔ s.params.pBase ≤ addr ∧ addr < s.params.pBase + 0x1000 := by
  rw [State.inWindow, Bool.and_eq_true, decide_eq_true_eq, decide_eq_true_eq, windowBytes]

/-- Settles O15: such an address is not in the window. -/
theorem accessOutsideTheWindowFaults : Obligations.AccessOutsideTheWindowFaults := by
  intro s a rest hp hout
  rw [step_event hp]
  refine if_neg (mt inWindow_iff.mp ?_)
  show ¬ (s.params.pBase ≤ a.addr ∧ a.addr < s.params.pBase + 0x1000)
  omega

/-- Settles O9, by the kinds of access: a read ends in a bus error or in data, and both set the
response only. -/
theorem readsNeverChangeState : Obligations.ReadsNeverChangeState := by
  intro s t a rest hp hread hstep
  rw [step_event hp] at hstep
  rcases serveAccess_cases hstep with rfl | ⟨_, _, rfl⟩ | ⟨_, _, hwrite, _⟩ | ⟨_, _, hwrite, _⟩ |
    ⟨_, _, hwrite, _⟩
  case inl | inr.inl => rfl
  all_goals
    rw [hread] at hwrite
    cases hwrite

theorem regOffset_aligned (r : Reg) : regOffset r % 4 = 0 := by cases r <;> rfl

/-- The registers fill the aligned offsets below 0x058 (10_state.md rule R31). -/
theorem exists_regOffset {off : Nat} (hlt : off < 0x058) (halign : off % 4 = 0) :
    ∃ r, regOffset r = off := by
  have hall : ∀ k < 22, ∃ r ∈ allRegs, regOffset r = 4 * k := by decide
  obtain ⟨r, _, hr⟩ := hall (off / 4) (by omega)
  exact ⟨r, by omega⟩

/-- Which accesses reach a register (rule R83). -/
theorem exists_targetOf_register_iff {off : Nat} {z : AccessSize} :
    (∃ r, targetOf off z = .register r) ↔ z = .four ∧ off < 0x058 ∧ off % 4 = 0 := by
  constructor
  · rintro ⟨r, hr⟩
    obtain ⟨hz, rfl⟩ := targetOf_register_iff.mp hr
    exact ⟨hz, regOffset_lt r, regOffset_aligned r⟩
  · rintro ⟨hz, hlt, halign⟩
    obtain ⟨r, hr⟩ := exists_regOffset hlt halign
    exact ⟨r, targetOf_register_iff.mpr ⟨hz, hr.symm⟩⟩

theorem targetOf_rejected_iff {off : Nat} {z : AccessSize} :
    targetOf off z = .rejected ↔
      ¬ (∃ r, targetOf off z = .register r) ∧ ¬ ∃ o, targetOf off z = .buffer o := by
  cases targetOf off z <;> simp

theorem sizeBytes_eq_four_iff {z : AccessSize} : sizeBytes z = 4 ↔ z = .four := by
  cases z <;> decide

/-- Which accesses are rejected, by the parts of the window (rules R83, R84, R86). -/
theorem targetOf_rejected_iff_offset {off : Nat} {z : AccessSize} :
    targetOf off z = .rejected ↔
      (off < 0x058 ∧ ¬ (sizeBytes z = 4 ∧ off % 4 = 0)) ∨ (0x058 ≤ off ∧ off < 0x100)
      ∨ (0x100 ≤ off ∧ off < 0x400 ∧ off % sizeBytes z ≠ 0) ∨ 0x400 ≤ off := by
  have hbuffer : (∃ o, targetOf off z = .buffer o) ↔
      0x100 ≤ off ∧ off < 0x400 ∧ off % sizeBytes z = 0 := by
    simp only [targetOf_buffer_iff, exists_eq_left]
  rw [targetOf_rejected_iff, exists_targetOf_register_iff, hbuffer, ← sizeBytes_eq_four_iff]
  omega

theorem accessOffset_rejected {a : BusAccess} {off : Nat} (s : State)
    (h : targetOf off a.size = .rejected) :
    accessOffset a off s = .next (s.raiseBusError a.addr) := by
  rw [accessOffset, h]

theorem writeRegister_completes (r : Reg) (v : Word) (s : State) :
    ∃ t : State, writeRegister r v s = .next (t.respond .done) := by
  cases r with
  | cmd =>
    obtain ⟨t, ht⟩ := runCommand_completes v s
    exact ⟨t, congrArg (mapNext (State.respond · .done)) ht⟩
  | _ => exact ⟨_, rfl⟩

/-- An accepted access completes, with data or without. -/
theorem accessOffset_completes {a : BusAccess} {off : Nat} (s : State)
    (h : targetOf off a.size ≠ .rejected) :
    ∃ (t : State) (r : BusResponse),
      accessOffset a off s = .next (t.respond r) ∧ ∀ e, r ≠ .busError e := by
  unfold accessOffset
  split
  · exact absurd ‹_› h
  · split
    · exact ⟨_, _, rfl, nofun⟩
    · obtain ⟨t, ht⟩ := writeRegister_completes _ _ s
      exact ⟨t, .done, ht, nofun⟩
  · split
    · exact ⟨_, _, rfl, nofun⟩
    · exact ⟨_, _, rfl, nofun⟩

/-- An aligned access stays in its buffer: each buffer is 0x100 bytes long and starts at a multiple
of 0x100 (rule R84). -/
theorem aligned_access_same_buffer {off : Nat} {z : AccessSize} (h : off % sizeBytes z = 0) :
    off / 0x100 = (off + sizeBytes z - 1) / 0x100 := by
  cases z <;> simp only [sizeBytes] at * <;> omega

/-- Settles O8: the unaccepted accesses are those whose target is rejected. -/
theorem unacceptedAccessIsABusError : Obligations.UnacceptedAccessIsABusError := by
  intro s a off rest hp haddr hoff n unaccepted
  have hrejected : targetOf off a.size = .rejected ↔ unaccepted := targetOf_rejected_iff_offset
  rw [step_access hp haddr hoff]
  refine ⟨fun hu => accessOffset_rejected _ (hrejected.mpr hu), fun hu => ?completes, fun hu hlo =>
    aligned_access_same_buffer ?aligned⟩
  case completes =>
    obtain ⟨t, r, ht, hr⟩ := accessOffset_completes { s with pending := rest } (mt hrejected.mp hu)
    exact ⟨_, ht, hr⟩
  case aligned =>
    show off % n = 0
    dsimp only [unaccepted] at hu
    omega

/-! Register writes. -/

/-- A register write neither reads nor writes what is pending. -/
theorem State.writeReg_withPending (s : State) (r : Reg) (v : Word) (p : List HostEvent) :
    ({ s with pending := p } : State).writeReg r v = { s.writeReg r v with pending := p } := by
  cases r <;> rfl

@[simp] theorem State.writeReg_mem (s : State) (r : Reg) (v : Word) :
    (s.writeReg r v).mem = s.mem := by rw [State.writeReg_frame]

@[simp] theorem State.writeReg_epoch (s : State) (r : Reg) (v : Word) :
    (s.writeReg r v).epoch = s.epoch := by rw [State.writeReg_frame]

@[simp] theorem State.writeReg_params (s : State) (r : Reg) (v : Word) :
    (s.writeReg r v).params = s.params := by rw [State.writeReg_frame]

theorem State.writeReg_readOnly (s : State) {r : Reg} (v : Word) (h : r ∈ readOnlyRegs) :
    s.writeReg r v = s := by
  cases r
  case status | excCode | txlen | bytecount | rawLo | rawHi | scaledLo | scaledHi => rfl
  all_goals exact absurd h (by decide)

/-- Settles O11: the write runs `State.writeReg`, and the read after it answers what `State.readReg`
then gives. -/
theorem registerWritesStoreTheFieldBits : Obligations.RegisterWritesStoreTheFieldBits := by
  intro s r v rest
  refine ⟨fun hp hr => ?_, step_regRead (r := .cmd)⟩
  rw [specOffset_eq_regOffset] at hp ⊢
  have hwrite := step_regWrite hr hp
  rw [State.writeReg_withPending] at hwrite
  have hread := step_regRead (r := r) (rest := rest)
    (s := { s.writeReg r v with
      pending := .access (regRead s.params.pBase r) :: rest, response := .done })
    (by simp only [State.writeReg_params])
  refine ⟨_, _, hwrite, rfl, hread, congrArg BusResponse.data (s.readReg_writeReg_self v hr),
    fun q hq => s.readReg_writeReg_other v hq, s.writeReg_mem r v, s.writeReg_epoch r v,
    s.writeReg_params r v, rfl, fun hro => ?_⟩
  rw [State.writeReg_readOnly s v hro]
  rfl

end Sys2Proof.Machine
end

section
/-! 20_memory.md: the bytes that a buffer access carries. -/

namespace Sys2Proof.Machine

open Sys2Proof.Safety

theorem targetOf_buffer {off : Nat} {z : AccessSize} (hlo : 0x100 ≤ off) (hhi : off < 0x400)
    (halign : off % sizeBytes z = 0) : targetOf off z = .buffer off :=
  targetOf_buffer_iff.mpr ⟨rfl, hlo, hhi, halign⟩

/-- An aligned write to a buffer. -/
theorem step_bufferWrite {s : State} {off : Nat} {z : AccessSize} {v : Word} {rest : List HostEvent}
    (hp : s.pending = .access ⟨s.params.pBase + off, z, .write v⟩ :: rest) (hlo : 0x100 ≤ off)
    (hhi : off < 0x400) (halign : off % sizeBytes z = 0) :
    step s = .next (({ s with pending := rest }.writeBuffer off z v).respond .done) := by
  rw [step_access hp rfl (by omega), accessOffset, targetOf_buffer hlo hhi halign]

/-- An aligned read of a buffer. -/
theorem step_bufferRead {s : State} {off : Nat} {z : AccessSize} {rest : List HostEvent}
    (hp : s.pending = .access ⟨s.params.pBase + off, z, .read⟩ :: rest) (hlo : 0x100 ≤ off)
    (hhi : off < 0x400) (halign : off % sizeBytes z = 0) :
    step s = .next ({ s with pending := rest }.respond (.data (s.readBuffer off z))) := by
  rw [step_access hp rfl (by omega), accessOffset, targetOf_buffer hlo hhi halign]
  rfl

theorem getElem_leBytes {n k : Nat} (v : Nat) (hk : k < (leBytes n v).length) :
    (leBytes n v)[k] = BitVec.ofNat 8 (v / 256 ^ k) := by
  induction n generalizing k v with
  | zero => exact absurd hk (Nat.not_lt_zero k)
  | succ n ih =>
    cases k with
    | zero => simp [leBytes]
    | succ k =>
      simp only [leBytes, List.getElem_cons_succ, ih]
      rw [Nat.div_div_eq_div_mul, ← Nat.pow_succ']

/-- Data bits [8k+7:8k] as a number (rule R81). -/
theorem dataByte_eq (v : Word) (k : Nat) :
    v.extractLsb' (8 * k) 8 = BitVec.ofNat 8 (v.toNat / 256 ^ k) := by
  rw [BitVec.extractLsb', Nat.shiftRight_eq_div_pow, Nat.pow_mul]

theorem State.byte_writeBuffer_in (s : State) (off : Nat) {z : AccessSize} (v : Word) {k : Nat}
    (hk : k < sizeBytes z) :
    (s.writeBuffer off z v).byte (off + k) = v.extractLsb' (8 * k) 8 := by
  have hlen : k < (leBytes (sizeBytes z) v.toNat).length := by rwa [length_leBytes]
  rw [State.writeBuffer, State.byte_setBytes_in s hlen, getElem_leBytes, dataByte_eq]

theorem State.byte_writeBuffer_out (s : State) {off b : Nat} {z : AccessSize} (v : Word)
    (hb : ¬ (off ≤ b ∧ b < off + sizeBytes z)) : (s.writeBuffer off z v).byte b = s.byte b :=
  State.byte_setBytes_out s (by rwa [length_leBytes])

/-- Settles O13: the bytes of the access take their data bits, and every other byte is out of its
range. -/
theorem bufferWriteReachesExactlyItsBytes : Obligations.BufferWriteReachesExactlyItsBytes := by
  intro s off z v rest hp hlo hhi halign
  exact ⟨_, step_bufferWrite hp hlo hhi halign,
    fun k hk => State.byte_writeBuffer_in { s with pending := rest } off v hk,
    fun b hb => State.byte_writeBuffer_out { s with pending := rest } v hb, rfl⟩

theorem leNat_lt (bs : List Byte) : leNat bs < 256 ^ bs.length := by
  induction bs with
  | nil => exact Nat.one_pos
  | cons b bs ih =>
    have hb := b.isLt
    rw [leNat, List.length_cons, Nat.pow_succ]
    omega

/-- Byte `k` of the number that a list of bytes carries. -/
theorem ofNat_leNat_div (bs : List Byte) {k : Nat} (hk : k < bs.length) :
    BitVec.ofNat 8 (leNat bs / 256 ^ k) = bs[k] := by
  induction bs generalizing k with
  | nil => exact absurd hk (Nat.not_lt_zero k)
  | cons b bs ih =>
    have hb := b.isLt
    cases k with
    | zero =>
      apply BitVec.eq_of_toNat_eq
      rw [BitVec.toNat_ofNat, leNat, List.getElem_cons_zero]
      omega
    | succ k =>
      have htail : leNat (b :: bs) / 256 = leNat bs := by
        rw [leNat]
        omega
      rw [Nat.pow_succ', ← Nat.div_div_eq_div_mul, htail, List.getElem_cons_succ, ih]

theorem State.toNat_readBuffer (s : State) (off : Nat) (z : AccessSize) :
    (s.readBuffer off z).toNat = leNat (s.bytes off (sizeBytes z)) := by
  have hlt := leNat_lt (s.bytes off (sizeBytes z))
  have hmax : 256 ^ sizeBytes z ≤ 2 ^ 32 := by cases z <;> decide
  rw [State.length_bytes] at hlt
  rw [State.readBuffer, BitVec.toNat_ofNat, Nat.mod_eq_of_lt (by omega)]

theorem State.readBuffer_lt (s : State) (off : Nat) (z : AccessSize) :
    (s.readBuffer off z).toNat < 2 ^ (8 * sizeBytes z) := by
  have hlt := leNat_lt (s.bytes off (sizeBytes z))
  rwa [State.length_bytes, ← State.toNat_readBuffer, show 256 = 2 ^ 8 from rfl,
    ← Nat.pow_mul] at hlt

/-- The bytes a buffer read carries. -/
theorem State.readBuffer_byte (s : State) (off : Nat) {z : AccessSize} {k : Nat}
    (hk : k < sizeBytes z) :
    (s.readBuffer off z).extractLsb' (8 * k) 8 = s.byte (off + k) := by
  rw [dataByte_eq, State.toNat_readBuffer, ofNat_leNat_div _ (by rwa [State.length_bytes])]
  simp [State.bytes_eq_map]

/-- The words a read of WBUF carries, the first one in the lowest bits. -/
theorem State.readBuffer_wbuf (s : State) (i : Nat) {z : AccessSize} {j : Nat}
    (hj : 2 * j + 1 < sizeBytes z) :
    (s.readBuffer (wbufOffset i) z).extractLsb' (16 * j) 16 = s.wbuf (i + j) := by
  have hlow := State.readBuffer_byte s (wbufOffset i) (show 2 * j < sizeBytes z by omega)
  have hhigh := State.readBuffer_byte s (wbufOffset i) hj
  have hoff : wbufOffset i + 2 * j = wbufOffset (i + j) := by
    unfold wbufOffset
    omega
  rw [State.wbuf, ← hoff, Nat.add_assoc, ← hlow, ← hhigh,
    BitVec.extractLsb'_append_extractLsb'_eq_extractLsb' (by omega),
    show 8 * (2 * j) = 16 * j by omega]

/-- A 4-byte read of WBUF returns two words. -/
theorem State.readBuffer_wbuf_pair (s : State) (i : Nat) :
    s.readBuffer (wbufOffset i) .four = s.wbuf (i + 1) ++ s.wbuf i := by
  have hlow := State.readBuffer_wbuf s i (z := .four) (j := 0) (by decide)
  have hhigh := State.readBuffer_wbuf s i (z := .four) (j := 1) (by decide)
  rw [Nat.add_zero] at hlow
  calc s.readBuffer (wbufOffset i) .four
    _ = (s.readBuffer (wbufOffset i) .four).extractLsb' 0 32 := BitVec.extractLsb'_eq_self.symm
    _ = (s.readBuffer (wbufOffset i) .four).extractLsb' 16 16
        ++ (s.readBuffer (wbufOffset i) .four).extractLsb' 0 16 := by
      rw [BitVec.extractLsb'_append_extractLsb'_eq_extractLsb' (by omega)]
    _ = s.wbuf (i + 1) ++ s.wbuf i := by rw [← hlow, ← hhigh]

/-- Settles O14, by the bytes and the words that a read carries. -/
theorem bufferReadCarriesItsBytes : Obligations.BufferReadCarriesItsBytes := by
  refine ⟨fun i => ⟨rfl, rfl, rfl, rfl, rfl⟩, fun s off z rest hp hlo hhi halign => ?_⟩
  refine ⟨_, step_bufferRead hp hlo hhi halign, fun k hk => State.readBuffer_byte s off hk,
    State.readBuffer_lt s off z, ?_, ?_, ?_, ?_⟩
  · rintro i _ rfl rfl
    exact State.readBuffer_byte s _ (k := 0) (by decide)
  · rintro i _ rfl rfl
    exact State.readBuffer_byte s _ (k := 0) (by decide)
  · rintro i _ rfl rfl
    exact State.readBuffer_wbuf s i (j := 0) (by decide)
  · rintro k _ rfl rfl
    rw [← State.readBuffer_wbuf_pair, wbufOffset, ← Nat.mul_assoc]

end Sys2Proof.Machine
end

section
/-! 20_memory.md: the order in which events are served. -/

namespace Sys2Proof.Machine

/-- A step serves the first event; the ones after it are neither read nor written. -/
theorem step_pending_cons (s : State) (e : HostEvent) (p : List HostEvent) :
    step { s with pending := e :: p } =
      mapNext (fun t => { t with pending := p }) (serveEvent e { s with pending := [] }) :=
  (step_event rfl).trans (serveEvent_pending e s p)

/-- Settles O16, by induction on the events served. -/
theorem eventsAreServedInArrivalOrder : Obligations.EventsAreServedInArrivalOrder := by
  intro s t es fs
  induction es generalizing s with
  | nil =>
    intro h
    obtain rfl := Host.Outcome.next.inj h
    exact ⟨rfl, rfl⟩
  | cons e es ih =>
    intro h
    obtain ⟨u, hstep, hrun⟩ := run_succ_cases h
    rw [step_pending_cons] at hstep
    obtain ⟨w, hserve, rfl⟩ := mapNext_cases hstep
    obtain ⟨hpending, hlater⟩ := ih w hrun
    have hstep' : step { s with pending := e :: (es ++ fs) }
        = .next { w with pending := es ++ fs } := by
      rw [step_pending_cons, hserve, mapNext_next]
    exact ⟨hpending, (run_succ_of_next es.length hstep').trans hlater⟩

end Sys2Proof.Machine
end

section
/-! 30_encoding.md: the fields of a command word, and the row of the opcode map that a word selects. -/

namespace Sys2Proof

open Sys2Proof.Safety

/-! A field at its place in a command word (rule R111). -/

theorem getLsbD_fieldAt {n : Nat} (p : Nat) (v : BitVec n) (k : Nat) :
    (fieldAt p v).getLsbD k = (decide (k < 32) && !decide (k < p) && v.getLsbD (k - p)) := by
  rw [fieldAt, BitVec.getLsbD_shiftLeft, BitVec.getLsbD_setWidth]
  by_cases hk : k < 32
  · simp [show k - p < 32 by omega]
  · simp [hk]

@[simp] theorem getElem_fieldAt {n : Nat} (p : Nat) (v : BitVec n) {k : Nat} (hk : k < 32) :
    (fieldAt p v)[k] = (!decide (k < p) && v.getLsbD (k - p)) := by
  rw [← BitVec.getLsbD_eq_getElem, getLsbD_fieldAt, decide_eq_true hk, Bool.true_and]

/-- A field is read back from its place. -/
@[simp] theorem extractLsb'_fieldAt_self {n p : Nat} (v : BitVec n) (h : p + n ≤ 32) :
    (fieldAt p v).extractLsb' p n = v := by
  apply BitVec.eq_of_getLsbD_eq
  intro k hk
  rw [BitVec.getLsbD_extractLsb', getLsbD_fieldAt, Nat.add_sub_cancel_left]
  simp [hk, show p + k < 32 by omega]

/-- Bits apart from a field do not see it. -/
@[simp] theorem extractLsb'_fieldAt_disjoint {n p q m : Nat} (v : BitVec n)
    (h : q + m ≤ p ∨ p + n ≤ q) : (fieldAt p v).extractLsb' q m = 0#m := by
  apply BitVec.eq_of_getLsbD_eq
  intro k hk
  rw [BitVec.getLsbD_extractLsb', getLsbD_fieldAt, BitVec.getLsbD_zero]
  rcases h with h | h
  · simp [show q + k < p by omega]
  · simp [BitVec.getLsbD_of_ge v (q + k - p) (by omega)]

/-- A mask that leaves a field free removes it. -/
theorem fieldAt_and_mask {n p : Nat} {mask : Word} (v : BitVec n)
    (h : mask.extractLsb' p n = 0#n) : fieldAt p v &&& mask = 0#32 := by
  apply BitVec.eq_of_getLsbD_eq
  intro k hk
  rw [BitVec.getLsbD_and, getLsbD_fieldAt, BitVec.getLsbD_zero]
  by_cases hlo : k < p
  · simp [hlo]
  by_cases hhi : k - p < n
  · have hbit : (mask.extractLsb' p n).getLsbD (k - p) = false := by rw [h, BitVec.getLsbD_zero]
    rw [BitVec.getLsbD_extractLsb', Nat.add_sub_cancel' (Nat.not_lt.mp hlo)] at hbit
    have hmask : mask.getLsbD k = false := by simpa [hhi] using hbit
    simp [hmask]
  · simp [BitVec.getLsbD_of_ge v (k - p) (Nat.not_lt.mp hhi)]

/-- The field read from a word, put back at its place, is the word's bits there. -/
theorem fieldAt_extractLsb' (w : Word) (p n : Nat) :
    fieldAt p (w.extractLsb' p n) = w &&& fieldAt p (BitVec.allOnes n) := by
  apply BitVec.eq_of_getLsbD_eq
  intro k hk
  rw [BitVec.getLsbD_and, getLsbD_fieldAt, getLsbD_fieldAt, BitVec.getLsbD_extractLsb',
    BitVec.getLsbD_allOnes]
  by_cases hp : k < p
  · simp [hp]
  · simp [hk, hp, Nat.add_sub_cancel' (Nat.not_lt.mp hp), Bool.and_comm]

/-- A word known under a mask is known under the mask and a field, once the field is read. -/
theorem masked_or_field {w mask base : Word} (h : w &&& mask = base) (p n : Nat) :
    w &&& (mask ||| fieldAt p (BitVec.allOnes n)) = base ||| fieldAt p (w.extractLsb' p n) := by
  rw [BitVec.and_or_distrib_left, h, fieldAt_extractLsb']

/-- A word known under a mask of every bit is known. -/
theorem eq_of_fully_masked {w mask base : Word} (h : w &&& mask = base)
    (hall : mask = BitVec.allOnes 32) : base = w := by
  rw [← h, hall, BitVec.and_allOnes]

/-! The values of the fields (rules R111 to R113). -/

theorem ofBool_getLsbD (w : Word) (p : Nat) : BitVec.ofBool (w.getLsbD p) = w.extractLsb' p 1 := by
  apply BitVec.eq_of_getLsbD_eq
  intro k hk
  simp [show k = 0 by omega]

@[simp] theorem bufSelBit_bufSelOfBit (b : Bool) : bufSelBit (bufSelOfBit b) = BitVec.ofBool b := by
  cases b <;> rfl

@[simp] theorem bufSelOfBit_bufSelBit (buf : BufSel) :
    bufSelOfBit (bufSelBit buf)[0] = buf := by
  cases buf <;> rfl

@[simp] theorem intWordsBit_intWordsOfBit (b : Bool) :
    intWordsBit (intWordsOfBit b) = BitVec.ofBool b := by
  cases b <;> rfl

@[simp] theorem intWordsOfBit_intWordsBit (n : IntWords) :
    intWordsOfBit (intWordsBit n)[0] = n := by
  cases n <;> rfl

@[simp] theorem levelVarBit_levelVarOfBit (b : Bool) :
    levelVarBit (levelVarOfBit b) = BitVec.ofBool b := by
  cases b <;> rfl

@[simp] theorem levelVarOfBit_levelVarBit (v : LevelVar) :
    levelVarOfBit (levelVarBit v)[0] = v := by
  cases v <;> rfl

@[simp] theorem byteOrderBits_byteOrderOfBits (b : BitVec 2) :
    byteOrderBits (byteOrderOfBits b) = b := by
  revert b
  decide

@[simp] theorem byteOrderOfBits_byteOrderBits (o : ByteOrder) :
    byteOrderOfBits (byteOrderBits o) = o := by
  cases o <;> rfl

@[simp] theorem primTypeOfBits_primTypeBits (t : PrimType) :
    primTypeOfBits (primTypeBits t) = some t := by
  cases t <;> rfl

/-- TYPE = 7 is the reserved one (rule R112). -/
theorem primTypeOfBits_eq_none_iff (b : BitVec 3) : primTypeOfBits b = none ↔ b = 7 := by
  revert b
  decide

theorem primTypeBits_of_primTypeOfBits {b : BitVec 3} {t : PrimType}
    (h : primTypeOfBits b = some t) : primTypeBits t = b := by
  have hall : ∀ b : BitVec 3, ∀ t ∈ primTypeOfBits b, primTypeBits t = b := by decide
  exact hall b t h

/-! The rows of the opcode map (rule R114). -/

/-- The row of a mnemonic. -/
def Opcode.row (op : Opcode) : OpcodeRow :=
  (opcodeTable.find? (fun r => r.op == op)).get (by cases op <;> rfl)

/-- A word selects the row of `op` (rule R114). -/
def Opcode.Matches (op : Opcode) (w : Word) : Prop := w &&& op.row.mask = op.row.matchBits

@[simp] theorem Opcode.row_op (op : Opcode) : op.row.op = op := by cases op <;> rfl

theorem Opcode.row_mem (op : Opcode) : op.row ∈ opcodeTable :=
  List.mem_of_find?_eq_some (Option.some_get _).symm

/-- The opcode map has one row for each mnemonic. -/
theorem exists_row_eq_of_mem {r : OpcodeRow} (h : r ∈ opcodeTable) : ∃ op : Opcode, op.row = r := by
  have hall : ∀ r ∈ opcodeTable, r.op.row = r := by decide
  exact ⟨r.op, hall r h⟩

theorem forall_mem_opcodeTable {P : OpcodeRow → Prop} :
    (∀ r ∈ opcodeTable, P r) ↔ ∀ op : Opcode, P op.row := by
  constructor
  · exact fun h op => h op.row op.row_mem
  · intro h r hr
    obtain ⟨op, rfl⟩ := exists_row_eq_of_mem hr
    exact h op

theorem Opcode.matches_matchBits (op : Opcode) : op.Matches op.row.matchBits := by
  cases op <;> rfl

theorem Opcode.Matches.or_fieldAt {op : Opcode} {w : Word} {n p : Nat} (h : op.Matches w)
    (v : BitVec n) (hfree : op.row.mask.extractLsb' p n = 0#n) : op.Matches (w ||| fieldAt p v) := by
  rw [Opcode.Matches, BitVec.and_or_distrib_right, fieldAt_and_mask v hfree, BitVec.or_zero]
  exact h

theorem opcodeTable_columns : opcodeTable.map (fun r => (r.matchBits, r.mask)) = specRows := rfl

/-- The rows have pairwise distinct opcodes (rule R110). -/
theorem eq_of_opField_matchBits {op op' : Opcode}
    (h : opField op.row.matchBits = opField op'.row.matchBits) : op = op' := by
  have hnodup : (opcodeTable.map (fun r => opField r.matchBits)).Nodup := by decide
  have hrow := List.inj_on_of_nodup_map hnodup op.row_mem op'.row_mem h
  rw [← op.row_op, hrow, op'.row_op]

/-- Every mask covers the OP field (rule R110), so a word has the opcode of a row it selects. -/
theorem Opcode.Matches.opField_eq {op : Opcode} {w : Word} (h : op.Matches w) :
    opField w = opField op.row.matchBits := by
  have hmask : opField op.row.mask = BitVec.allOnes 8 := by cases op <;> rfl
  rw [← h, opField, opField, BitVec.extractLsb'_and]
  exact BitVec.and_allOnes.symm.trans (congrArg _ hmask.symm)

/-- At most one row matches a word (rule R110). -/
theorem Opcode.Matches.unique {op op' : Opcode} {w : Word} (h : op.Matches w) (h' : op'.Matches w) :
    op = op' :=
  eq_of_opField_matchBits (h.opField_eq.symm.trans h'.opField_eq)

/-- The decoder chooses by OP alone (rule R116). -/
theorem row_of_rowOf {w : Word} {r : OpcodeRow} (h : rowOf w = some r) :
    ∃ op : Opcode, op.row = r ∧ opField op.row.matchBits = opField w := by
  unfold rowOf at h
  obtain ⟨op, rfl⟩ := exists_row_eq_of_mem (List.mem_of_find?_eq_some h)
  have hop := List.find?_some h
  exact ⟨op, rfl, beq_iff_eq.mp hop⟩

theorem Opcode.Matches.rowOf_eq {op : Opcode} {w : Word} (h : op.Matches w) :
    rowOf w = some op.row := by
  have hsome : (rowOf w).isSome :=
    List.find?_isSome.mpr ⟨op.row, op.row_mem, beq_iff_eq.mpr h.opField_eq.symm⟩
  obtain ⟨r, hr⟩ := Option.isSome_iff_exists.mp hsome
  obtain ⟨op', rfl, hop'⟩ := row_of_rowOf hr
  rw [hr, eq_of_opField_matchBits (hop'.trans h.opField_eq)]

/-- A word that selects a row is decoded by that row's fields. -/
theorem Opcode.Matches.decodeWord_eq {op : Opcode} {w : Word} (h : op.Matches w) :
    decodeWord w = decodeFields op w := by
  have hmask : w &&& op.row.mask = op.row.matchBits := h
  rw [decodeWord, h.rowOf_eq]
  simp only [if_pos hmask, Opcode.row_op]

/-- A word that selects no row is illegal (rule R121). -/
theorem decodeWord_of_no_match {w : Word} (h : ∀ op : Opcode, ¬ op.Matches w) :
    ∃ e, decodeWord w = .illegal e := by
  unfold decodeWord
  split
  · exact ⟨_, rfl⟩
  · rename_i r hr
    obtain ⟨op, rfl, _⟩ := row_of_rowOf hr
    exact ⟨_, if_neg (h op)⟩

/-- A word that decodes does so by the fields of a row it selects. -/
theorem matches_of_decodeWord_instr {w : Word} {i : Instr} (h : decodeWord w = .instr i) :
    ∃ op : Opcode, op.Matches w ∧ decodeFields op w = .instr i := by
  by_cases hmatch : ∃ op : Opcode, op.Matches w
  · obtain ⟨op, hop⟩ := hmatch
    exact ⟨op, hop, hop.decodeWord_eq.symm.trans h⟩
  · obtain ⟨e, he⟩ := decodeWord_of_no_match (not_exists.mp hmatch)
    exact absurd (he.symm.trans h) nofun

/-- Settles O4: the rows are those of the mnemonics, and a word that selects one selects no other and is
decoded by it. -/
theorem atMostOneRowMatches : Obligations.AtMostOneRowMatches := by
  refine ⟨opcodeTable_columns, fun w => ⟨?_, ?_⟩⟩
  · rw [forall_mem_opcodeTable]
    intro op (hop : op.Matches w)
    refine ⟨?_, hop.rowOf_eq, by rw [op.row_op]; exact hop.decodeWord_eq⟩
    rw [forall_mem_opcodeTable]
    intro op' (hop' : op'.Matches w)
    rw [hop'.unique hop]
  · rw [forall_mem_opcodeTable]
    exact decodeWord_of_no_match

end Sys2Proof
end

section
/-! 30_encoding.md: a command and its word determine each other (rules R111, R115, R131). -/

namespace Sys2Proof

/-- The row of a command (rule R114). -/
def Instr.op : Instr → Opcode
  | .nop => .nop
  | .crcInit => .crcInit
  | .crcFeed _ => .crcFeed
  | .crcCompute _ _ => .crcCompute
  | .crcVerify _ _ => .crcVerify
  | .buildRead => .buildRead
  | .buildWriteMultiple => .buildWriteMultiple
  | .parseRead => .parseRead
  | .parseWrite => .parseWrite
  | .decode _ _ => .decode
  | .decodeIntfrac _ _ _ => .decodeIntfrac
  | .levelPct _ _ => .levelPct

/-- The word of a command selects the command's row: its fields lie where the row's mask is 0. -/
theorem encode_matches (i : Instr) : i.op.Matches (encode i) := by
  cases i with
  | nop | crcInit | buildRead | buildWriteMultiple | parseRead | parseWrite =>
    exact Opcode.matches_matchBits _
  | crcFeed b => exact (Opcode.matches_matchBits .crcFeed).or_fieldAt b rfl
  | crcCompute buf len =>
    exact ((Opcode.matches_matchBits .crcCompute).or_fieldAt _ rfl).or_fieldAt _ rfl
  | crcVerify buf len =>
    exact ((Opcode.matches_matchBits .crcVerify).or_fieldAt _ rfl).or_fieldAt _ rfl
  | decode t o => exact ((Opcode.matches_matchBits .decode).or_fieldAt _ rfl).or_fieldAt _ rfl
  | decodeIntfrac n io fo =>
    exact (((Opcode.matches_matchBits .decodeIntfrac).or_fieldAt _ rfl).or_fieldAt _ rfl).or_fieldAt
      _ rfl
  | levelPct v c => exact ((Opcode.matches_matchBits .levelPct).or_fieldAt _ rfl).or_fieldAt _ rfl

/-- The fields of the word of a command are its operands. -/
theorem decodeFields_encode {i : Instr} (h : i.wf = true) :
    decodeFields i.op (encode i) = .instr i := by
  cases i with
  | nop | crcInit | buildRead | buildWriteMultiple | parseRead | parseWrite => rfl
  | crcCompute buf len | crcVerify buf len =>
    have hlen : len % 512 = len := Nat.mod_eq_of_lt (Nat.lt_succ_of_le (of_decide_eq_true h))
    simp [decodeFields, Instr.op, encode, BitVec.extractLsb'_or, hlen]
  | crcFeed _ | decode _ _ | decodeIntfrac _ _ _ | levelPct _ _ =>
    simp [decodeFields, Instr.op, encode, BitVec.extractLsb'_or]

/-- Settles O1: the word selects the command's row, whose fields read the operands. -/
theorem decodeOfEncodeIsTheCommand : Obligations.DecodeOfEncodeIsTheCommand := fun i h =>
  (encode_matches i).decodeWord_eq.trans (decodeFields_encode h)

/-- DECODE reads a command when TYPE is one of the seven. -/
theorem decodeFields_decode_cases {w : Word} {i : Instr} (h : decodeFields .decode w = .instr i) :
    ∃ t, primTypeOfBits (w.extractLsb' 8 3) = some t
      ∧ i = .decode t (byteOrderOfBits (w.extractLsb' 12 2)) := by
  rw [decodeFields] at h
  split at h
  · exact ⟨_, ‹_›, (Decoded.instr.inj h).symm⟩
  · cases h

/-- A word that selects a row is the encoding of what the row's fields read: mask and fields cover every
bit of the word. -/
theorem encode_of_decodeFields {op : Opcode} {w : Word} {i : Instr} (hop : op.Matches w)
    (h : decodeFields op w = .instr i) : encode i = w := by
  cases op
  case decode =>
    obtain ⟨t, ht, rfl⟩ := decodeFields_decode_cases h
    rw [encode, primTypeBits_of_primTypeOfBits ht, byteOrderBits_byteOrderOfBits]
    exact eq_of_fully_masked (masked_or_field (masked_or_field hop 8 3) 12 2) rfl
  all_goals cases h
  case crcFeed => exact eq_of_fully_masked (masked_or_field hop 8 8) rfl
  case crcCompute | crcVerify =>
    rw [encode, bufSelBit_bufSelOfBit, ofBool_getLsbD, BitVec.ofNat_toNat, BitVec.setWidth_eq]
    exact eq_of_fully_masked (masked_or_field (masked_or_field hop 8 1) 16 9) rfl
  case decodeIntfrac =>
    rw [encode, intWordsBit_intWordsOfBit, ofBool_getLsbD, byteOrderBits_byteOrderOfBits,
      byteOrderBits_byteOrderOfBits]
    exact eq_of_fully_masked
      (masked_or_field (masked_or_field (masked_or_field hop 8 1) 12 2) 14 2) rfl
  case levelPct =>
    rw [encode, levelVarBit_levelVarOfBit, ofBool_getLsbD, ofBool_getLsbD]
    exact eq_of_fully_masked (masked_or_field (masked_or_field hop 8 1) 9 1) rfl
  all_goals exact eq_of_fully_masked hop rfl

/-- What the fields of a word read is encodable: LEN has nine bits. -/
theorem wf_of_decodeFields {op : Opcode} {w : Word} {i : Instr} (h : decodeFields op w = .instr i) :
    i.wf = true := by
  cases op
  case decode =>
    obtain ⟨t, _, rfl⟩ := decodeFields_decode_cases h
    rfl
  all_goals cases h
  case crcCompute | crcVerify => exact decide_eq_true (Nat.le_of_lt_succ (BitVec.isLt _))
  all_goals rfl

/-- Settles O2: the word selects a row, and what the row's fields read encodes to the word. -/
theorem encodeOfDecodeIsTheWord : Obligations.EncodeOfDecodeIsTheWord := by
  intro w i h
  obtain ⟨op, hop, hi⟩ := matches_of_decodeWord_instr h
  exact ⟨encode_of_decodeFields hop hi, wf_of_decodeFields hi⟩

/-- Settles O5: each word is the encoding of its command. -/
theorem wordsOfTheSpecDecode : Obligations.WordsOfTheSpecDecode := by
  have h := decodeOfEncodeIsTheCommand
  exact ⟨h .nop rfl, h .crcInit rfl, h (.crcFeed 0x01) rfl, h (.crcCompute .rx 6) rfl,
    h (.crcVerify .tx 8) rfl, h .buildRead rfl, h .buildWriteMultiple rfl, h .parseRead rfl,
    h .parseWrite rfl, h (.decode .float32 .bigEndian) rfl, h (.decode .uint32 .littleEndian) rfl,
    h (.decode .float64 .bigEndian) rfl, h (.decodeIntfrac .two .bigEndian .littleEndian) rfl,
    h (.levelPct .referenced true) rfl⟩

end Sys2Proof
end

section
/-! 30_encoding.md rule R121: the illegal words, and what a write of one to CMD does. -/

namespace Sys2Proof.Machine

open Sys2Proof.Safety

/-- Only DECODE has a reserved field value (rule R121). -/
theorem decodeFields_illegal_iff {op : Opcode} {w : Word} :
    (∃ e, decodeFields op w = .illegal e) ↔ op = .decode ∧ w.extractLsb' 8 3 = 7 := by
  cases op
  case decode =>
    rw [← primTypeOfBits_eq_none_iff, decodeFields]
    cases primTypeOfBits (w.extractLsb' 8 3) <;> simp
  all_goals simp [decodeFields]

/-- The illegal words of rule R121. -/
theorem decodeWord_illegal_iff {w : Word} :
    (∃ e, decodeWord w = .illegal e) ↔
      (∀ op : Opcode, ¬ op.Matches w) ∨ (opField w = 0x30 ∧ w.extractLsb' 8 3 = 7) := by
  by_cases hmatch : ∃ op : Opcode, op.Matches w
  · obtain ⟨op, hop⟩ := hmatch
    have hdecode : op = .decode ↔ opField w = 0x30 := by
      rw [hop.opField_eq]
      exact ⟨fun h => h ▸ rfl, fun h => eq_of_opField_matchBits (op' := .decode) h⟩
    rw [hop.decodeWord_eq, decodeFields_illegal_iff, hdecode]
    exact (or_iff_right (fun h => h op hop)).symm
  · have hnone := not_exists.mp hmatch
    exact iff_of_true (decodeWord_of_no_match hnone) (.inl hnone)

theorem runCommand_of_illegal {w : Word} {e : DecodeReject} (s : State)
    (h : decodeWord w = .illegal e) :
    runCommand w s = .next ((s.startCommand w).finish .illegalCommand) := by
  rw [runCommand, h]

/-- Settles O3: a word is rejected exactly when no row of rule R114 matches or it is DECODE with TYPE
7, and a rejected word runs no command. -/
theorem illegalWordsChangeStatusOnly : Obligations.IllegalWordsChangeStatusOnly := by
  intro w s rest hp illegal
  have hrows : (∀ row ∈ specRows, w &&& row.2 ≠ row.1) ↔ ∀ op : Opcode, ¬ op.Matches w := by
    rw [← opcodeTable_columns, List.forall_mem_map]
    exact forall_mem_opcodeTable
  have hillegal : (∃ e, decodeWord w = .illegal e) ↔ illegal :=
    decodeWord_illegal_iff.trans (or_congr_left hrows.symm)
  refine ⟨fun h => ?_, fun h => ?_⟩
  · obtain ⟨e, he⟩ := hillegal.mpr h
    rw [step_cmdWrite hp, runCommand_of_illegal _ he]
    rfl
  · cases hd : decodeWord w with
    | instr i => exact ⟨i, rfl⟩
    | illegal e => exact absurd (hillegal.mp ⟨e, hd⟩) h

end Sys2Proof.Machine
end

section
/-! 30_encoding.md rule R132: LOADF. -/

namespace Sys2Proof.Machine

/-- The two halves of a 64-bit register written in turn, low half first, make up the new value. -/
theorem withHiHalf_withLoHalf (old new : Wide) :
    withHiHalf (withLoHalf old (loHalf new)) (hiHalf new) = new := by
  rw [withHiHalf, loHalf_withLoHalf]
  exact BitVec.extractLsb'_append_extractLsb'

/-- The first access of LOADF writes the low register and leaves the second access pending. -/
theorem step_loadF (s : State) (r : F64Reg) (bits : Wide) :
    step (s.loadProgram [.loadF r bits]) = .next { s.writeReg (loReg r) (loHalf bits) with
      pending := [.access (regWrite s.params.pBase (hiReg r) (hiHalf bits))], response := .done } := by
  have hcmd : loReg r ≠ .cmd := by cases r <;> decide
  rw [step_regWrite (s := s.loadProgram [.loadF r bits]) hcmd rfl]
  cases r <;> rfl

/-- The two accesses of LOADF write the low register and then the high one. -/
theorem run_loadF (s : State) (r : F64Reg) (bits : Wide) :
    Host.Core.run core 2 (s.loadProgram [.loadF r bits]) = .next
      { (s.writeReg (loReg r) (loHalf bits)).writeReg (hiReg r) (hiHalf bits) with
        pending := [], response := .done } := by
  have hcmd : hiReg r ≠ .cmd := by cases r <;> decide
  rw [run_succ_of_next 1 (step_loadF s r bits)]
  refine (run_succ_of_next 0 (step_regWrite (v := hiHalf bits) (rest := []) hcmd ?_)).trans ?_
  · rw [State.writeReg_params]
  · cases r <;> rfl

/-- Settles O12: each access is a register write, and the second one keeps the half the first
has written. -/
theorem loadFSetsTheRegisterByHalves : Obligations.LoadFSetsTheRegisterByHalves := by
  intro s r bits value
  refine ⟨⟨_, run_succ_of_next 0 (step_loadF s r bits), ?_⟩, ⟨_, run_loadF s r bits, ?_, ?_, ?_⟩⟩
  · cases r <;> rfl
  · cases r <;> exact withHiHalf_withLoHalf _ bits
  · intro q hq
    cases r <;> cases q
    case scale.scale | ref.ref | span.span => exact absurd rfl hq
    all_goals rfl
  · cases r <;> rfl

end Sys2Proof.Machine
end

section
/-! 41_crc.md rules R147 to R150: a CRC appended to what it was computed over, and valid frames. -/

namespace Sys2Proof.Machine

/-- Shifts over low bits that are 0 add no polynomial. -/
theorem crcShifts_eq_ushiftRight {n : Nat} {c : Half} (h : ∀ i < n, c.getLsbD i = false) :
    crcShifts n c = c >>> n := by
  induction n generalizing c with
  | zero => simp [crcShifts]
  | succ n ih =>
    have hshift : crcShift c = c >>> 1 := by
      rw [crcShift, h 0 (Nat.succ_pos n)]
      rfl
    have hlow : ∀ i < n, (c >>> 1).getLsbD i = false := by
      intro i hi
      rw [BitVec.getLsbD_ushiftRight]
      exact h (1 + i) (by omega)
    rw [crcShifts, hshift, ih hlow, ← BitVec.shiftRight_add, Nat.add_comm]

/-- The bits of two bytes side by side. -/
theorem getLsbD_byte_append (a b : Byte) (i : Nat) :
    (a ++ b : Half).getLsbD i = if i < 8 then b.getLsbD i else a.getLsbD (i - 8) :=
  BitVec.getLsbD_append

/-- A CRC whose low byte is the next byte is shifted down to its high byte. -/
theorem crcStep_append (hi lo : Byte) : crcStep (hi ++ lo) lo = hi.setWidth 16 := by
  have hlow : ∀ i < 8, ((hi ++ lo : Half) ^^^ lo.setWidth 16).getLsbD i = false := by
    intro i hi
    rw [BitVec.getLsbD_xor, getLsbD_byte_append, if_pos hi, BitVec.getLsbD_setWidth]
    simp [show i < 16 by omega]
  rw [crcStep, crcShifts_eq_ushiftRight hlow]
  apply BitVec.eq_of_getLsbD_eq
  intro i hi
  have hbyte : ¬ 8 + i < 8 := by omega
  rw [BitVec.getLsbD_ushiftRight, BitVec.getLsbD_xor, getLsbD_byte_append, if_neg hbyte]
  simp [hi]

/-- Two more bytes take a CRC to 0 exactly when they are the CRC, low byte first. -/
theorem crcStep_crcStep_eq_zero_iff {c : Half} {hi lo : Byte} :
    crcStep (crcStep c lo) hi = 0 ↔ c = hi ++ lo := by
  have hzero : crcStep (crcStep (hi ++ lo) lo) hi = 0 := by
    rw [crcStep_append, crcStep, BitVec.xor_self]
    rfl
  constructor
  · intro h
    exact crcStep_injective_crc (crcStep_injective_crc (h.trans hzero.symm))
  · rintro rfl
    exact hzero

theorem crc16_append_pair (body : List Byte) (lo hi : Byte) :
    crc16 (body ++ [lo, hi]) = crcStep (crcStep (crc16 body) lo) hi := by
  simp [crc16]

/-- The CRC over a frame is 0 exactly when its last two bytes are the CRC of the others. -/
theorem crc16_append_pair_eq_zero_iff {body : List Byte} {lo hi : Byte} :
    crc16 (body ++ [lo, hi]) = 0 ↔ crc16 body = hi ++ lo := by
  rw [crc16_append_pair, crcStep_crcStep_eq_zero_iff]

/-- `verify` is the length test and the comparison (rule R147). -/
theorem verify_iff {f : List Byte} :
    verify f = true ↔ 3 ≤ f.length ∧ crc16 (f.take (f.length - 2)) = storedCrc f := by
  unfold verify
  by_cases h : f.length < 3
  · simp [h]
  · simp [h, Nat.not_lt.mp h]

/-- The bytes of a stored CRC. -/
theorem eq_storedCrc_iff {f : List Byte} {c : Half} (h : 2 ≤ f.length) :
    c = storedCrc f ↔
      ∃ hi lo, f[f.length - 1]? = some hi ∧ f[f.length - 2]? = some lo ∧ c = hi ++ lo := by
  simp only [storedCrc, List.getD_eq_getElem?_getD, List.getElem?_eq_getElem,
    show f.length - 1 < f.length by omega, show f.length - 2 < f.length by omega]
  simp

/-- The CRC over a body with its CRC appended is 0 (rule R150). -/
theorem crc16_appendCrc (body : List Byte) : crc16 (appendCrc body) = 0 :=
  crc16_append_pair_eq_zero_iff.mpr (hi8_append_lo8 (crc16 body)).symm

/-- Settles O24: the appended bytes are the CRC, low byte first, and take it to 0. -/
theorem appendedCrcLeavesZeroResidue : Obligations.AppendedCrcLeavesZeroResidue := by
  refine ⟨crc16_appendCrc, fun f => ?_⟩
  rw [verify_iff]
  exact and_congr_right fun hlen => eq_storedCrc_iff (by omega)

/-- A frame of two bytes or more ends in two bytes. -/
theorem exists_append_pair {f : List Byte} (h : 2 ≤ f.length) :
    ∃ body lo hi, f = body ++ [lo, hi] := by
  obtain ⟨lo, hi, htail⟩ := List.length_eq_two.mp
    (show (f.drop (f.length - 2)).length = 2 by rw [List.length_drop]; omega)
  exact ⟨f.take (f.length - 2), lo, hi, by rw [← htail, List.take_append_drop]⟩

/-- A frame is valid exactly when it has three bytes or more and the CRC over all of it is 0. -/
theorem verify_iff_crc16_eq_zero {f : List Byte} :
    verify f = true ↔ 3 ≤ f.length ∧ crc16 f = 0 := by
  rw [verify_iff]
  refine and_congr_right fun hlen => ?_
  obtain ⟨body, lo, hi, rfl⟩ := exists_append_pair (f := f) (by omega)
  rw [crc16_append_pair_eq_zero_iff]
  simp [storedCrc]

/-- A body with its CRC appended is a valid frame (rule R148). -/
theorem verify_appendCrc {body : List Byte} (h : body ≠ []) : verify (appendCrc body) = true := by
  have hpos := List.length_pos_iff.mpr h
  refine verify_iff_crc16_eq_zero.mpr ⟨?_, crc16_appendCrc body⟩
  rw [length_appendCrc]
  omega

/-- A change of one byte that keeps the CRC is no change. -/
theorem getElem?_of_crcFold_set {f : List Byte} {i : Nat} {b : Byte} {c : Half}
    (hi : i < f.length) (h : (f.set i b).foldl crcStep c = f.foldl crcStep c) :
    f[i]? = some b := by
  induction f generalizing i c with
  | nil => exact absurd hi (Nat.not_lt_zero i)
  | cons a f ih =>
    cases i with
    | zero => exact congrArg some (crcStep_injective_byte (crcFold_injective f h)).symm
    | succ i => exact ih (Nat.lt_of_succ_lt_succ hi) h

/-- Settles O25: the CRC over both frames would be 0, and it tells a changed byte. -/
theorem anyOneByteChangeIsDetected : Obligations.AnyOneByteChangeIsDetected := by
  intro f i b hvalid hi hchange
  refine Bool.eq_false_iff.mpr fun hchanged => hchange ?_
  obtain ⟨_, hold⟩ := verify_iff_crc16_eq_zero.mp hvalid
  obtain ⟨_, hnew⟩ := verify_iff_crc16_eq_zero.mp hchanged
  exact getElem?_of_crcFold_set hi (hnew.trans hold.symm)

/-- Settles O26: the CRC is computed, the frame is valid because that CRC has been appended, and a
change of one byte is detected in every frame. -/
theorem referenceVector : Obligations.ReferenceVector := by
  have hcrc : crc16 [0x01, 0x03, 0x00, 0x00, 0x00, 0x02] = 0x0BC4 := by decide +kernel
  have hframe : appendCrc [0x01, 0x03, 0x00, 0x00, 0x00, 0x02]
      = [0x01, 0x03, 0x00, 0x00, 0x00, 0x02, 0xC4, 0x0B] := by
    rw [appendCrc, hcrc]
    rfl
  have hvalid : verify [0x01, 0x03, 0x00, 0x00, 0x00, 0x02, 0xC4, 0x0B] = true := by
    rw [← hframe]
    exact verify_appendCrc (List.cons_ne_nil _ _)
  exact ⟨hcrc, hframe, hvalid, fun i b => anyOneByteChangeIsDetected _ i b hvalid⟩

end Sys2Proof.Machine
end

section
/-! 41_crc.md rules R140 to R146: the CRC commands. -/

namespace Sys2Proof.Machine

/-- Settles O18: it is the meaning of NOP. -/
theorem nopReportsSuccess : Obligations.NopReportsSuccess := fun _ => rfl

/-- Settles O19: it is the meaning of CRC_INIT. -/
theorem crcInitLoadsTheInitialValue : Obligations.CrcInitLoadsTheInitialValue := fun _ => rfl

/-- One iteration of rule R140, on numbers. -/
def shiftNumber (n : Nat) : Nat := if n % 2 = 1 then (n / 2) ^^^ 0xA001 else n / 2

/-- Several shifts, on numbers: one for each entry of a list. -/
theorem toNat_crcShifts (l : List Nat) (c : Half) :
    (crcShifts l.length c).toNat = l.foldl (fun n _ => shiftNumber n) c.toNat := by
  induction l generalizing c with
  | nil => rfl
  | cons _ l ih => rw [List.length_cons, crcShifts, ih, toNat_crcShift, List.foldl_cons, shiftNumber]

/-- A step of the CRC, on numbers (rule R140). -/
theorem crcStep_eq_ofNat (c : Half) (b : Byte) : crcStep c b =
    BitVec.ofNat 16 ((List.range 8).foldl (fun n _ => shiftNumber n) (c.toNat ^^^ b.toNat)) := by
  have hxor : (c ^^^ b.setWidth 16).toNat = c.toNat ^^^ b.toNat := by
    rw [BitVec.toNat_xor, BitVec.toNat_setWidth_of_le (by decide)]
  rw [← hxor, ← toNat_crcShifts, BitVec.ofNat_toNat, BitVec.setWidth_eq, List.length_range, crcStep]

/-- Settles O20: CRC_FEED runs `crcStep`, whose shifts are those on numbers. -/
theorem crcFeedRunsEightShifts : Obligations.CrcFeedRunsEightShifts := by
  intro s b
  exact congrArg (fun c => Host.Outcome.next ({ s with crc := c }.finish .success))
    (crcStep_eq_ofNat s.crc b)

/-- The first bytes of a buffer, one by one. -/
theorem State.bytes_bufOffset (s : State) (buf : BufSel) (n : Nat) :
    s.bytes (bufOffset buf 0) n = (List.range n).map (fun i => s.byte (bufOffset buf i)) := by
  cases buf <;> simp [State.bytes_eq_map, bufOffset, txOffset, rxOffset]

/-- Settles O21: the bytes CRC_COMPUTE runs over are the first ones of the buffer. -/
theorem crcComputeCoversTheBuffer : Obligations.CrcComputeCoversTheBuffer := by
  intro s buf len
  rw [← State.bytes_bufOffset]
  by_cases hlen : len ≤ 256
  · rw [if_pos hlen]
    exact congrArg Host.Outcome.next (if_neg (Nat.not_lt.mpr hlen))
  · rw [if_neg hlen]
    exact congrArg Host.Outcome.next (if_pos (Nat.not_le.mp hlen))

/-- CRC_VERIFY over more bytes than a buffer has. -/
theorem exec_crcVerify_of_gt (s : State) (buf : BufSel) {len : Nat} (h : 256 < len) :
    exec (.crcVerify buf len) s = .next (s.finish .invalidArgument) := by
  rw [exec, execCrcVerify, if_pos h]

/-- CRC_VERIFY over bytes that carry a valid CRC. -/
theorem exec_crcVerify_of_valid {s : State} {buf : BufSel} {len : Nat} (hlen : len ≤ 256)
    (h : verify (s.bytes (bufOffset buf 0) len) = true) :
    exec (.crcVerify buf len) s = .next (s.finish .success) := by
  rw [exec, execCrcVerify, if_neg (Nat.not_lt.mpr hlen), if_pos h]

/-- CRC_VERIFY over bytes that carry none. -/
theorem exec_crcVerify_of_invalid {s : State} {buf : BufSel} {len : Nat} (hlen : len ≤ 256)
    (h : ¬ verify (s.bytes (bufOffset buf 0) len) = true) :
    exec (.crcVerify buf len) s = .next (s.finish .invalidCrc) := by
  rw [exec, execCrcVerify, if_neg (Nat.not_lt.mpr hlen), if_neg h]

/-- When the first bytes of a buffer carry a valid CRC. -/
theorem verify_buffer_iff (s : State) (buf : BufSel) (len : Nat) :
    verify (s.bytes (bufOffset buf 0) len) = true ↔
      3 ≤ len ∧ crc16 ((List.range (len - 2)).map (fun i => s.byte (bufOffset buf i)))
        = s.byte (bufOffset buf (len - 1)) ++ s.byte (bufOffset buf (len - 2)) := by
  have h := verify_bytes_iff s (bufOffset buf 0) len
  cases buf <;> simpa [bufOffset, txOffset, rxOffset] using h

/-- Settles O22: CRC_VERIFY runs `verify` on the first bytes of the buffer. -/
theorem crcVerifyComparesTheTrailer : Obligations.CrcVerifyComparesTheTrailer := by
  intro s buf len b
  refine ⟨exec_crcVerify_of_gt s buf, fun hlen => ?_⟩
  rw [← verify_buffer_iff s buf len]
  exact ⟨exec_crcVerify_of_valid hlen, exec_crcVerify_of_invalid hlen⟩

end Sys2Proof.Machine
end

section
/-! 41_crc.md rule R143: a stream fed byte by byte. -/

namespace Sys2Proof.Machine

/-- A step that meets a command line of a program runs the command and leaves the rest of the program
pending. -/
theorem step_loadProgram_command {i : Instr} {s t : State} (p : List HostLine) (hwf : i.wf = true)
    (hx : exec i (s.startCommand (encode i)) = .next t) :
    step (s.loadProgram (.command i :: p)) = .next ((t.respond .done).loadProgram p) := by
  have hparams : t.params = s.params := (exec_params hx).trans (State.startCommand_params s _)
  have hrun := exec_hostSide i (s.startCommand (encode i)) (s.loadProgram p).pending s.response
  rw [hx, mapNext_next] at hrun
  rw [step_command (s := s.loadProgram (.command i :: p)) rfl (decodeOfEncodeIsTheCommand i hwf) hrun,
    State.loadProgram, State.loadProgram, State.respond_params, hparams]
  rfl

/-- The lines that feed a list of bytes to the CRC. -/
def feedLines (bs : List Byte) : List HostLine := bs.map (fun b => .command (.crcFeed b))

/-- Feeding a list of bytes folds the CRC over it, from any state that a successful command has
left. -/
theorem run_feedLines (bs : List Byte) {s : State} (hresult : s.result = .success)
    (hresponse : s.response = .done) :
    Host.Core.run core bs.length (s.loadProgram (feedLines bs)) = .next { s with
      crc := bs.foldl crcStep s.crc
      lastOp := if bs = [] then s.lastOp else 0x02
      pending := [] } := by
  induction bs generalizing s with
  | nil => rfl
  | cons b bs ih =>
    have hstep := step_loadProgram_command (i := .crcFeed b) (s := s) (feedLines bs) rfl rfl
    have hop : opField (encode (.crcFeed b)) = 0x02 := Laws.EncodesOp.crcFeed b
    refine (run_succ_of_next bs.length hstep).trans ((ih rfl rfl).trans ?_)
    simp [hop, hresult, hresponse, State.startCommand, State.finish, State.respond]

/-- Settles O23: CRC_INIT leaves the initial value, and the feeds fold the CRC over the list. -/
theorem feedingAStreamComputesItsCrc : Obligations.FeedingAStreamComputesItsCrc := by
  intro s bs
  have hstep := step_loadProgram_command (i := .crcInit) (s := s) (feedLines bs) rfl rfl
  exact ⟨_, (run_succ_of_next bs.length hstep).trans (run_feedLines bs rfl rfl), rfl⟩

end Sys2Proof.Machine
end

section
/-! 41_crc.md rule R146: CRC_VERIFY over the frames of the builders (42_frame.md rules R172, R176). -/

namespace Sys2Proof.Machine

/-- A builder that succeeds has placed a body with its CRC appended. -/
theorem exec_builder_success {i : Instr} {s t : State} (hi : i = .buildRead ∨ i = .buildWriteMultiple)
    (hx : exec i s = .next t) (hresult : t.result = .success) :
    ∃ body, body ≠ [] ∧ (appendCrc body).length ≤ 256
      ∧ t = (s.placeFrame (appendCrc body)).finish .success := by
  rcases hi with rfl | rfl
  · exact ⟨readRequestBody s, List.cons_ne_nil _ _, by simp, (Host.Outcome.next.inj hx).symm⟩
  · rcases execBuildWriteMultiple_cases hx with ⟨_, rfl⟩ | ⟨haccept, rfl⟩
    · cases hresult
    · have hfits := mt (writeCountRejected_iff s s.qty.toNat).mpr (by simp [haccept])
      refine ⟨writeRequestBody s s.qty.toNat, List.cons_ne_nil _ _, ?_, rfl⟩
      rw [length_appendCrc, length_writeRequestBody]
      omega

/-- TXLEN is the length of the frame just placed. -/
theorem toNat_txlen_placeFrame (s : State) {f : List Byte} (h : f.length ≤ 256) :
    (s.placeFrame f).txlen.toNat = f.length := by
  rw [State.placeFrame_txlen, BitVec.toNat_ofNat]
  exact Nat.mod_eq_of_lt (by omega)

/-- The first TXLEN bytes of TXBUF are the frame just placed. -/
theorem bytes_placeFrame (s : State) {f : List Byte} (h : f.length ≤ 256) :
    (s.placeFrame f).bytes (txOffset 0) (s.placeFrame f).txlen.toNat = f := by
  rw [toNat_txlen_placeFrame s h]
  exact State.bytes_setBytes s (txOffset 0) f

/-- Settles O29: the bytes CRC_VERIFY reads are the frame placed, which carries its CRC. -/
theorem builtFramesVerify : Obligations.BuiltFramesVerify := by
  intro s t i hi hx hresult
  obtain ⟨body, hbody, hfits, rfl⟩ := exec_builder_success hi hx hresult
  have htxlen : (s.placeFrame (appendCrc body)).txlen.toNat ≤ 256 := by
    rwa [toNat_txlen_placeFrame s hfits]
  have hvalid := verify_appendCrc hbody
  rw [← bytes_placeFrame s hfits] at hvalid
  exact exec_crcVerify_of_valid (buf := .tx) htxlen hvalid

end Sys2Proof.Machine
end

section
/-! 42_frame.md rules R172 and R176: what the builders write. -/

namespace Sys2Proof.Machine

/-- The stored CRC of a frame in TXBUF is the CRC over the body bytes as TXBUF now holds them. -/
theorem txbuf_place_storedCrc (s : State) (body : List Byte) :
    (s.placeFrame (appendCrc body)).txbuf (body.length + 1)
        ++ (s.placeFrame (appendCrc body)).txbuf body.length
      = crc16 ((List.range body.length).map (fun i => (s.placeFrame (appendCrc body)).txbuf i)) := by
  have hbody : (List.range body.length).map (fun i => (s.placeFrame (appendCrc body)).txbuf i)
      = body :=
    List.ext_getElem (by simp) fun k _ hk => by simpa using txbuf_place_body s body hk
  obtain ⟨hlo, hhi⟩ := txbuf_place_crc s body
  rw [hbody, hlo, hhi, hi8_append_lo8]

/-- Settles O27: the frame placed is the request body with its CRC appended. -/
theorem buildReadWritesTheRequest : Obligations.BuildReadWritesTheRequest := by
  intro s
  have hbody := fun k (hk : k < 6) => txbuf_place_body s (readRequestBody s) (k := k) hk
  exact ⟨_, rfl, hbody 0 (by decide), hbody 1 (by decide), hbody 2 (by decide), hbody 3 (by decide),
    hbody 4 (by decide), hbody 5 (by decide), txbuf_place_storedCrc s (readRequestBody s),
    fun _ hout => byte_placeFrame_out s _ hout, rfl⟩

theorem exec_buildWriteMultiple_of_rejected {s : State}
    (h : writeCountRejected s s.qty.toNat = true) :
    exec .buildWriteMultiple s = .next (s.finish .invalidArgument) :=
  congrArg Host.Outcome.next (if_pos h)

theorem exec_buildWriteMultiple_of_accepted {s : State}
    (h : writeCountRejected s s.qty.toNat = false) :
    exec .buildWriteMultiple s
      = .next ((s.placeFrame (appendCrc (writeRequestBody s s.qty.toNat))).finish .success) :=
  congrArg Host.Outcome.next (if_neg (by simp [h]))

/-- Value `i` of a write-multiple request in TXBUF, high byte first. -/
theorem txbuf_place_writeValue (s : State) {n i : Nat} (hi : i < n) :
    (s.placeFrame (appendCrc (writeRequestBody s n))).txbuf (7 + 2 * i)
        ++ (s.placeFrame (appendCrc (writeRequestBody s n))).txbuf (8 + 2 * i)
      = s.wbuf i := by
  obtain ⟨hhigh, hlow⟩ := writeRequestBody_value s hi
  obtain ⟨hkhigh, hhigh⟩ := List.getElem?_eq_some_iff.mp hhigh
  obtain ⟨hklow, hlow⟩ := List.getElem?_eq_some_iff.mp hlow
  rw [txbuf_place_body s _ hkhigh, txbuf_place_body s _ hklow, hhigh, hlow, hi8_append_lo8]

/-- Settles O28: the rejections are those of the count check; the frame placed otherwise is the request
body with its CRC appended. -/
theorem buildWriteMultipleWritesTheRequest : Obligations.BuildWriteMultipleWritesTheRequest := by
  intro s n rejected
  have hrejected : writeCountRejected s n = true ↔ rejected := writeCountRejected_iff s n
  refine ⟨fun h => exec_buildWriteMultiple_of_rejected (hrejected.mpr h), fun h => ?_⟩
  have haccept : writeCountRejected s n = false := by simpa using mt hrejected.mp h
  have hfits : 9 + 2 * n ≤ 256 := by
    by_contra hlong
    exact h (.inr (.inr (by omega)))
  have hlen : (writeRequestBody s n).length = 7 + 2 * n := length_writeRequestBody s n
  have hframe : (appendCrc (writeRequestBody s n)).length = 9 + 2 * n := by
    rw [length_appendCrc, hlen]
    omega
  have hheader := fun k (hk : k < 7) =>
    txbuf_place_body s (writeRequestBody s n) (k := k) (by omega)
  have hcount : (BitVec.ofNat 8 (2 * n)).toNat = 2 * n :=
    (BitVec.toNat_ofNat ..).trans (Nat.mod_eq_of_lt (by omega))
  have hcrc := txbuf_place_storedCrc s (writeRequestBody s n)
  rw [hlen, show 7 + 2 * n + 1 = 8 + 2 * n by omega] at hcrc
  refine ⟨_, exec_buildWriteMultiple_of_accepted haccept, hheader 0 (by decide),
    hheader 1 (by decide), hheader 2 (by decide), hheader 3 (by decide), hheader 4 (by decide),
    hheader 5 (by decide), (congrArg BitVec.toNat (hheader 6 (by decide))).trans hcount,
    fun i hi => txbuf_place_writeValue s hi, hcrc, ?_,
    fun a hout => byte_placeFrame_out s _ (by rwa [hframe]), rfl⟩
  exact (toNat_txlen_placeFrame s (hframe.trans_le hfits)).trans hframe

end Sys2Proof.Machine
end

section
/-! 42_frame.md rules R180 to R193: the parsers, one equation for each length they tell apart. -/

namespace Sys2Proof.Machine

open Sys2Proof.Safety

/-- What both parsers do with a frame that is long enough (rules R183, R184): the CRC first, then the
exception bit, and `next` if it passes both. -/
def State.checkFrame (s next : State) : State :=
  if verify (s.received s.rxlen.toNat) = false then s.finish .invalidCrc
  else if s.isExceptionResponse then s.protocolException
  else next

theorem State.checkFrame_of_invalid {s : State} (next : State) (h : ¬ validFrame s s.rxlen.toNat) :
    s.checkFrame next = s.finish .invalidCrc := by
  rw [← verify_received_iff] at h
  exact if_pos (by simpa using h)

theorem State.checkFrame_of_exception {s : State} (next : State)
    (hvalid : validFrame s s.rxlen.toNat) (hexc : exceptionBit s) :
    s.checkFrame next = s.protocolException := by
  have hcrc := (verify_received_iff s _).mpr hvalid
  exact (if_neg (by simp [hcrc])).trans (if_pos hexc)

theorem State.checkFrame_of_valid {s : State} (next : State)
    (hvalid : validFrame s s.rxlen.toNat) (hexc : ¬ exceptionBit s) :
    s.checkFrame next = next := by
  have hcrc := (verify_received_iff s _).mpr hvalid
  exact (if_neg (by simp [hcrc])).trans (if_neg hexc)

/-- The checks a read response must pass after CRC and exception bit (rules R182, R186). -/
def State.readFits (s : State) : Bool :=
  s.headerMatches && (s.rxbuf 2).toNat % 2 == 0 && s.rxlen.toNat == (s.rxbuf 2).toNat + 5

theorem State.readFits_iff (s : State) :
    s.readFits = true ↔ s.rxbuf 0 = s.slave ∧ s.rxbuf 1 = s.func ∧ (s.rxbuf 2).toNat % 2 = 0
      ∧ s.rxlen.toNat = (s.rxbuf 2).toNat + 5 := by
  simp [State.readFits, headerMatches_iff, and_assoc]

/-- The checks a write echo must pass after CRC and exception bit (rule R190). -/
def State.echoFits (s : State) : Bool := s.headerMatches && s.echoMatches && s.rxlen.toNat == 8

theorem State.echoFits_iff (s : State) :
    s.echoFits = true ↔ s.rxbuf 0 = s.slave ∧ s.rxbuf 1 = s.func
      ∧ s.rxbuf 2 ++ s.rxbuf 3 = s.addr ∧ s.rxbuf 4 ++ s.rxbuf 5 = s.qty ∧ s.rxlen.toNat = 8 := by
  simp [State.echoFits, headerMatches_iff, echoMatches_iff, and_assoc]

/-! PARSE_READ -/

theorem exec_parseRead_of_long {s : State} (h : 256 < s.rxlen.toNat) :
    exec .parseRead s = .next (s.finish .invalidArgument) :=
  congrArg Host.Outcome.next (if_pos h)

theorem exec_parseRead_of_short {s : State} (h : s.rxlen.toNat < 5) :
    exec .parseRead s = .next (s.finish (shortResponse s.rxlen.toNat)) :=
  congrArg Host.Outcome.next ((if_neg (by omega)).trans (if_pos h))

theorem exec_parseRead_of_frame {s : State} (hmin : 5 ≤ s.rxlen.toNat) (hmax : s.rxlen.toNat ≤ 256) :
    exec .parseRead s = .next (s.checkFrame
      (if s.readFits then s.acceptPayload.finish .success else s.finish .malformedResponse)) := by
  refine congrArg Host.Outcome.next ((if_neg (by omega)).trans ((if_neg (by omega)).trans ?_))
  rw [getLsbD_zero_eq]
  cases hheader : s.headerMatches with
  | false => simp [State.checkFrame, State.readFits, hheader]
  | true =>
    rcases Nat.mod_two_eq_zero_or_one (s.rxbuf 2).toNat with heven | hodd
    · simp [State.checkFrame, State.readFits, hheader, heven]
    · simp [State.checkFrame, State.readFits, hheader, hodd]

/-! PARSE_WRITE -/

theorem exec_parseWrite_of_long {s : State} (h : 256 < s.rxlen.toNat) :
    exec .parseWrite s = .next (s.finish .invalidArgument) :=
  congrArg Host.Outcome.next (if_pos h)

/-- A response too short for an echo, unless rule R191 has it classified as an exception. -/
theorem exec_parseWrite_of_short {s : State} (h : s.rxlen.toNat < 8)
    (hshort : ¬ (s.params.wmExcShort = true ∧ 5 ≤ s.rxlen.toNat ∧ exceptionBit s)) :
    exec .parseWrite s = .next (s.finish (shortResponse s.rxlen.toNat)) := by
  refine congrArg Host.Outcome.next
    ((if_neg (by omega)).trans ((if_neg fun hc => hshort ?_).trans (if_pos h)))
  simp only [Bool.and_eq_true, decide_eq_true_eq] at hc
  obtain ⟨⟨⟨hparam, hmin⟩, _⟩, hexc⟩ := hc
  exact ⟨hparam, hmin, hexc⟩

/-- A short exception response that rule R191 has classified: a good CRC is all it needs. -/
theorem exec_parseWrite_of_shortException {s : State} (hmin : 5 ≤ s.rxlen.toNat)
    (hmax : s.rxlen.toNat < 8) (hparam : s.params.wmExcShort = true) (hexc : exceptionBit s) :
    exec .parseWrite s = .next (s.checkFrame s.protocolException) := by
  rw [← isExceptionResponse_iff] at hexc
  refine congrArg Host.Outcome.next
    ((if_neg (by omega)).trans ((if_pos (by simp [hparam, hmin, hmax, hexc])).trans ?_))
  simp [State.checkFrame, hexc]

theorem exec_parseWrite_of_frame {s : State} (hmin : 8 ≤ s.rxlen.toNat)
    (hmax : s.rxlen.toNat ≤ 256) :
    exec .parseWrite s = .next (s.checkFrame
      (if s.echoFits then s.finish .success else s.finish .malformedResponse)) := by
  have hlong : ¬ s.rxlen.toNat < 8 := by omega
  refine congrArg Host.Outcome.next ((if_neg (by omega)).trans
    ((if_neg (by simp [hlong])).trans ((if_neg hlong).trans ?_)))
  cases hheader : s.headerMatches <;> cases hecho : s.echoMatches <;>
    simp [State.checkFrame, State.echoFits, hheader, hecho]

theorem shortResponse_of_pos {n : Nat} (h : 1 ≤ n) : shortResponse n = .malformedResponse :=
  if_neg (by omega)

/-- Settles O30: by the equations of the lengths that are too long or too short. -/
theorem parsersClassifyTheLength : Obligations.ParsersClassifyTheLength := by
  intro s n
  refine ⟨fun h => ⟨exec_parseRead_of_long h, exec_parseWrite_of_long h⟩, fun h => ?_,
    fun hpos h => ?_, fun hpos h hshort => ?_⟩
  · have hzero : s.rxlen.toNat = 0 := h
    have hread := exec_parseRead_of_short (s := s) (by omega)
    have hwrite := exec_parseWrite_of_short (s := s) (by omega) (by omega)
    rw [hzero] at hread hwrite
    exact ⟨hread, hwrite⟩
  · rw [exec_parseRead_of_short h, shortResponse_of_pos hpos]
    rfl
  · rw [exec_parseWrite_of_short h hshort, shortResponse_of_pos hpos]
    rfl

/-- Settles O31: the frame passes every check, and the payload it delivers is the one accepted. -/
theorem parseReadDeliversThePayload : Obligations.ParseReadDeliversThePayload := by
  intro s n bc hmin hmax hvalid hexc hslave hfunc heven hlen
  have hfits : s.readFits = true := s.readFits_iff.mpr ⟨hslave, hfunc, heven, hlen⟩
  have hexec : exec .parseRead s = .next (s.acceptPayload.finish .success) := by
    rw [exec_parseRead_of_frame hmin hmax, State.checkFrame_of_valid _ hvalid hexc, if_pos hfits]
  have hbyte : bc < 256 := (s.rxbuf 2).isLt
  have hcount : (BitVec.ofNat 8 (bc / 2)).toNat = bc / 2 :=
    (BitVec.toNat_ofNat ..).trans (Nat.mod_eq_of_lt (by omega))
  exact ⟨_, hexec, fun _ hi => wbuf_acceptPayload s hi, rfl, hcount,
    fun _ hout => byte_acceptPayload_out s hout, rfl⟩

/-- Settles O32: the CRC decides first, and a mismatch is one of the checks that fail after it. -/
theorem parseReadRejectsBadFrames : Obligations.ParseReadRejectsBadFrames := by
  intro s n bc hmin hmax
  refine ⟨fun hinvalid => ?_, fun hvalid hexc hmismatch => ?_⟩
  · rw [exec_parseRead_of_frame hmin hmax, State.checkFrame_of_invalid _ hinvalid]
    rfl
  · have hfits : ¬ s.readFits = true := by
      rw [s.readFits_iff]
      rintro ⟨hslave, hfunc, heven, hlen⟩
      rcases hmismatch with h | h | h | h
      · exact h hslave
      · exact h hfunc
      · exact absurd (h.symm.trans heven) (by decide)
      · exact h hlen
    rw [exec_parseRead_of_frame hmin hmax, State.checkFrame_of_valid _ hvalid hexc, if_neg hfits]
    rfl

/-- Settles O33: after a good CRC the exception bit decides, whatever the other checks say. -/
theorem exceptionResponsesAreClassified : Obligations.ExceptionResponsesAreClassified := by
  intro s n hmax hvalid hexc
  refine ⟨fun hmin => ?_, fun hmin => ?_⟩
  · rw [exec_parseRead_of_frame hmin hmax, State.checkFrame_of_exception _ hvalid hexc]
    rfl
  · rw [exec_parseWrite_of_frame hmin hmax, State.checkFrame_of_exception _ hvalid hexc]
    rfl

/-- Settles O34: the echo passes every check. -/
theorem parseWriteAcceptsTheEcho : Obligations.ParseWriteAcceptsTheEcho := by
  intro s hlen hvalid hexc hslave hfunc haddr hqty
  have hfits : s.echoFits = true := s.echoFits_iff.mpr ⟨hslave, hfunc, haddr, hqty, hlen⟩
  rw [← hlen] at hvalid
  rw [exec_parseWrite_of_frame (by omega) (by omega), State.checkFrame_of_valid _ hvalid hexc,
    if_pos hfits]
  rfl

/-- Settles O35: length, CRC and exception bit decide in this order, and any other mismatch is one of
the checks of the echo. -/
theorem parseWriteRejectsBadEchoes : Obligations.ParseWriteRejectsBadEchoes := by
  intro s n hmin
  refine ⟨exec_parseWrite_of_long, fun hmax hinvalid => ?_,
    fun hmax hvalid hexc => (exceptionResponsesAreClassified s hmax hvalid hexc).2 hmin,
    fun hmax hvalid hexc hmismatch => ?_⟩
  · rw [exec_parseWrite_of_frame hmin hmax, State.checkFrame_of_invalid _ hinvalid]
    rfl
  · have hfits : ¬ s.echoFits = true := by
      rw [s.echoFits_iff]
      rintro ⟨hslave, hfunc, haddr, hqty, hlen⟩
      rcases hmismatch with h | h | h | h | h
      · exact h hslave
      · exact h hfunc
      · exact h haddr
      · exact h hqty
      · exact h hlen
    rw [exec_parseWrite_of_frame hmin hmax, State.checkFrame_of_valid _ hvalid hexc, if_neg hfits]
    rfl

/-- Settles O36: without the parameter the response is merely short; with it the CRC decides. -/
theorem shortWriteExceptionsFollowTheParameter :
    Obligations.ShortWriteExceptionsFollowTheParameter := by
  intro s n hmin hmax
  refine ⟨fun hparam => ?_, fun hparam hexc => ⟨fun hvalid => ?_, fun hinvalid => ?_⟩⟩
  · rw [exec_parseWrite_of_short hmax (by simp [hparam]), shortResponse_of_pos (by omega)]
    rfl
  · rw [exec_parseWrite_of_shortException hmin hmax hparam hexc,
      State.checkFrame_of_exception _ hvalid hexc]
    rfl
  · rw [exec_parseWrite_of_shortException hmin hmax hparam hexc,
      State.checkFrame_of_invalid _ hinvalid]
    rfl

/-- Settles O37: the echoed bytes are those of the request, whose CRC BUILD_READ has appended, so
PARSE_WRITE accepts them as the exact echo. -/
theorem writeSingleEchoIsAccepted : Obligations.WriteSingleEchoIsAccepted := by
  intro s t u hbuild hlen hecho hslave hfunc haddr hqty hbit
  obtain ⟨t', hbuild', h0, h1, h2, h3, h4, h5, hcrc, -, ht⟩ := buildReadWritesTheRequest s
  obtain rfl : t' = t := Host.Outcome.next.inj (hbuild'.symm.trans hbuild)
  have hrxlen : u.rxlen.toNat = 8 := hlen.trans (by rw [ht]; rfl)
  have hbody : rxFrame u 6 = (List.range 6).map (fun i => t'.txbuf i) :=
    List.map_congr_left fun k hk => hecho k (by have := List.mem_range.mp hk; omega)
  have hvalid : validFrame u 8 := by
    refine ⟨by decide, ?_⟩
    rw [hbody, hecho 7 (by decide), hecho 6 (by decide), hcrc]
  have hexc : ¬ exceptionBit u := by
    rw [exceptionBit, hecho 1 (by decide), h1, hbit]
    decide
  apply parseWriteAcceptsTheEcho u hrxlen hvalid hexc
  · rw [hecho 0 (by decide), h0, hslave]
  · rw [hecho 1 (by decide), h1, hfunc]
  · rw [hecho 2 (by decide), hecho 3 (by decide), h2, h3, haddr]
    exact hi8_append_lo8 s.addr
  · rw [hecho 4 (by decide), hecho 5 (by decide), h4, h5, hqty]
    exact hi8_append_lo8 s.qty

/-- Settles O38: of everything a command can do, only the end with a result code and the end of an
exception response leave another result than SUCCESS. -/
theorem failedCommandsWriteOnlyStatus : Obligations.FailedCommandsWriteOnlyStatus := by
  intro i s t h hfailed
  rcases exec_cases h with ⟨_, _, _, _, rfl⟩ | ⟨_, rfl⟩ | ⟨_, _, rfl⟩ | ⟨_, _, _, rfl⟩ |
    ⟨_, _, rfl⟩ | ⟨_, _, _, _, rfl⟩ | ⟨_, _, _, _, rfl⟩
  · exact ⟨rfl, fun _ => rfl⟩
  · exact ⟨rfl, fun hne => absurd rfl hne⟩
  all_goals exact absurd rfl hfailed

end Sys2Proof.Machine
end

section
/-! 43_decode.md rules R211 to R214: the pattern that words compose, by its number. -/

namespace Sys2Proof.Machine

open Sys2Proof.Safety

theorem orderSupported_eq_false_iff (ty : PrimType) (o : ByteOrder) :
    orderSupported ty o = false ↔ unsupported ty o := by
  cases ty <;> cases o <;> simp [orderSupported, unsupported]

/-- The number of a bit string with another after it. -/
theorem toNat_append_eq {n m : Nat} (a : BitVec n) (b : BitVec m) :
    (a ++ b).toNat = a.toNat * 2 ^ m + b.toNat := by
  rw [BitVec.toNat_append, Nat.shiftLeft_eq, Nat.mul_comm, ← Nat.two_pow_add_eq_or_of_lt b.isLt]

theorem toNat_extractLsb'_eq {w : Nat} (x : BitVec w) (start len : Nat) :
    (x.extractLsb' start len).toNat = x.toNat / 2 ^ start % 2 ^ len := by
  rw [BitVec.extractLsb'_toNat, Nat.shiftRight_eq_div_pow]

@[simp] theorem hi8_bswap16 (w : Half) : hi8 (bswap16 w) = lo8 w := hi8_byte_append _ _

@[simp] theorem lo8_bswap16 (w : Half) : lo8 (bswap16 w) = hi8 w := lo8_byte_append _ _

theorem toNat_hi8 (w : Half) : (hi8 w).toNat = w.toNat / 2 ^ 8 := by
  rw [hi8, toNat_extractLsb'_eq]
  have := w.isLt
  omega

theorem toNat_lo8 (w : Half) : (lo8 w).toNat = w.toNat % 2 ^ 8 := by
  rw [lo8, toNat_extractLsb'_eq, pow_zero, Nat.div_one]

theorem toNat_bswap16 (w : Half) : (bswap16 w).toNat = swapped w := by
  rw [bswap16, toNat_byte_append, toNat_lo8, toNat_hi8]
  rfl

theorem toNat_compose32 (o : ByteOrder) (w0 w1 : Half) :
    (compose32 o w0 w1).toNat = composed32 o w0 w1 := by
  cases o <;> simp only [compose32, composed32, toNat_append_eq, toNat_bswap16]

/-- The orders that FLOAT64 supports. -/
theorem toNat_compose64 {o : ByteOrder} (ho : o ≠ .mixedDcba) (w0 w1 w2 w3 : Half) :
    (compose64 o w0 w1 w2 w3).toNat = composed64 o w0 w1 w2 w3 := by
  cases o with
  | mixedDcba => exact absurd rfl ho
  | _ => simp only [compose64, composed64, toNat_append_eq, toNat_bswap16]

theorem composed32_lt (o : ByteOrder) (w0 w1 : Half) : composed32 o w0 w1 < 2 ^ 32 :=
  toNat_compose32 o w0 w1 ▸ (compose32 o w0 w1).isLt

theorem rawNumber_lt {ty : PrimType} {o : ByteOrder} (ho : ¬ unsupported ty o) (w0 w1 w2 w3 : Half) :
    rawNumber ty o w0 w1 w2 w3 < 2 ^ (16 * need ty) := by
  cases ty with
  | uint16 | int16 => exact w0.isLt
  | uint32 | int32 | float32 => exact composed32_lt o w0 w1
  | hex => exact composed32_lt .bigEndian w0 w1
  | float64 =>
    have hcomposed := toNat_compose64 (fun h => ho (.inr ⟨rfl, h⟩)) w0 w1 w2 w3
    exact hcomposed.symm.trans_lt (compose64 o w0 w1 w2 w3).isLt

/-- The pattern is the number of rules R212 to R214, zero-extended. -/
theorem toNat_decodePattern {ty : PrimType} {o : ByteOrder} (ho : ¬ unsupported ty o)
    (w0 w1 w2 w3 : Half) :
    (decodePattern ty o w0 w1 w2 w3).toNat = rawNumber ty o w0 w1 w2 w3 := by
  cases ty with
  | uint16 | int16 => exact BitVec.toNat_setWidth_of_le (by decide)
  | uint32 | int32 | float32 =>
    exact (BitVec.toNat_setWidth_of_le (by decide)).trans (toNat_compose32 o w0 w1)
  | hex => exact (BitVec.toNat_setWidth_of_le (by decide)).trans (toNat_compose32 .bigEndian w0 w1)
  | float64 => exact toNat_compose64 (fun h => ho (.inr ⟨rfl, h⟩)) w0 w1 w2 w3

theorem toInt_eq_signedNumber {n : Nat} (x : BitVec (n + 1)) :
    x.toInt = signedNumber (n + 1) x.toNat := by
  rw [BitVec.toInt_eq_toNat_cond, signedNumber, Nat.add_sub_cancel, pow_succ]
  by_cases h : x.toNat < 2 ^ n
  · rw [if_pos h, if_pos (by omega)]
  · rw [if_neg h, if_neg (by omega)]
    push_cast
    rfl

/-- What a pattern is interpreted as is a function of its number (rule R217). -/
theorem interpret_eq_interpreted {ty : PrimType} {raw : Wide} (h : raw.toNat < 2 ^ (16 * need ty)) :
    interpret ty raw = interpreted ty raw.toNat := by
  have low : ∀ n, raw.toNat < 2 ^ n → (raw.setWidth n).toNat = raw.toNat := fun n hn => by
    rw [BitVec.toNat_setWidth, Nat.mod_eq_of_lt hn]
  cases ty with
  | uint16 => simp only [interpret, interpreted, low 16 h]
  | int16 => simp only [interpret, interpreted, toInt_eq_signedNumber, low 16 h]
  | uint32 | hex => simp only [interpret, interpreted, low 32 h]
  | int32 => simp only [interpret, interpreted, toInt_eq_signedNumber, low 32 h]
  | float32 => simp only [interpret, interpreted, BitVec.ofNat_toNat]
  | float64 => simp only [interpret, interpreted, BitVec.ofNat_toNat, BitVec.setWidth_eq]

theorem exec_decode_of_rejected {ty : PrimType} {o : ByteOrder} {s : State}
    (h : s.wcount.toNat < need ty ∨ unsupported ty o) :
    exec (.decode ty o) s = .next (s.finish .invalidArgument) := by
  refine congrArg Host.Outcome.next ?_
  by_cases hcount : s.wcount.toNat < need ty
  · exact if_pos hcount
  · have ho := (orderSupported_eq_false_iff ty o).mpr (h.resolve_left hcount)
    exact (if_neg hcount).trans (if_pos (by rw [ho]; rfl))

theorem exec_decode_of_accepted {ty : PrimType} {o : ByteOrder} {s : State}
    (hcount : need ty ≤ s.wcount.toNat) (ho : ¬ unsupported ty o) :
    exec (.decode ty o) s = .next ({ s with
      raw := s.pattern ty o
      scaled := Float64.fmul (interpret ty (s.pattern ty o)) s.scale }.finish .success) := by
  rw [← orderSupported_eq_false_iff, Bool.not_eq_false] at ho
  exact congrArg Host.Outcome.next ((if_neg (Nat.not_lt.mpr hcount)).trans (if_neg (by simp [ho])))

/-- Settles O43: by the two equations of DECODE. -/
theorem decodeRejectsExactlyTheUnsupported : Obligations.DecodeRejectsExactlyTheUnsupported := by
  intro ty o s
  refine ⟨exec_decode_of_rejected, fun h => ?_⟩
  obtain ⟨hcount, ho⟩ := not_or.mp h
  exact ⟨_, exec_decode_of_accepted (Nat.not_lt.mp hcount) ho, rfl⟩

/-- Settles O44: the accepted decode, its pattern and the interpretation read as numbers. -/
theorem decodeWritesRawAndScaled : Obligations.DecodeWritesRawAndScaled := by
  intro ty o s hcount ho v
  have hv : (s.pattern ty o).toNat = v := toNat_decodePattern ho ..
  have hlt : v < 2 ^ (16 * need ty) := rawNumber_lt ho ..
  have hraw : s.pattern ty o = BitVec.ofNat 64 v := by
    rw [← hv, BitVec.ofNat_toNat, BitVec.setWidth_eq]
  have hscaled : interpret ty (s.pattern ty o) = interpreted ty v :=
    hv ▸ interpret_eq_interpreted (hv.symm ▸ hlt)
  refine ⟨hlt, ?_⟩
  rw [exec_decode_of_accepted hcount ho, hscaled, hraw]
  rfl

/-! Rule R223: the words can be told from the pattern. -/

theorem half_append_injective {n : Nat} {a b : BitVec n} {v w : Half} (h : a ++ v = b ++ w) :
    a = b ∧ v = w := by
  have hnum := congrArg BitVec.toNat h
  rw [toNat_append_eq, toNat_append_eq] at hnum
  have := v.isLt
  have := w.isLt
  exact ⟨BitVec.eq_of_toNat_eq (by omega), BitVec.eq_of_toNat_eq (by omega)⟩

@[simp] theorem bswap16_bswap16 (w : Half) : bswap16 (bswap16 w) = w := by
  rw [bswap16, lo8_bswap16, hi8_bswap16, hi8_append_lo8]

theorem bswap16_injective : Function.Injective bswap16 :=
  Function.Involutive.injective bswap16_bswap16

theorem compose32_injective {o : ByteOrder} {v0 v1 w0 w1 : Half}
    (h : compose32 o v0 v1 = compose32 o w0 w1) : v0 = w0 ∧ v1 = w1 := by
  cases o <;> obtain ⟨hfirst, hsecond⟩ := half_append_injective h
  case bigEndian => exact ⟨hfirst, hsecond⟩
  case littleEndian => exact ⟨hsecond, hfirst⟩
  case mixedBadc => exact ⟨bswap16_injective hfirst, bswap16_injective hsecond⟩
  case mixedDcba => exact ⟨bswap16_injective hsecond, bswap16_injective hfirst⟩

theorem halves_append_injective {a b c d e f g i : Half}
    (h : a ++ b ++ c ++ d = e ++ f ++ g ++ i) : a = e ∧ b = f ∧ c = g ∧ d = i := by
  obtain ⟨habc, hd⟩ := half_append_injective h
  obtain ⟨hab, hc⟩ := half_append_injective habc
  obtain ⟨ha, hb⟩ := half_append_injective hab
  exact ⟨ha, hb, hc, hd⟩

theorem compose64_injective {o : ByteOrder} {v0 v1 v2 v3 w0 w1 w2 w3 : Half}
    (h : compose64 o v0 v1 v2 v3 = compose64 o w0 w1 w2 w3) :
    v0 = w0 ∧ v1 = w1 ∧ v2 = w2 ∧ v3 = w3 := by
  cases o <;> obtain ⟨h0, h1, h2, h3⟩ := halves_append_injective h
  case bigEndian | mixedDcba => exact ⟨h0, h1, h2, h3⟩
  case littleEndian => exact ⟨h3, h2, h1, h0⟩
  case mixedBadc =>
    exact ⟨bswap16_injective h0, bswap16_injective h1, bswap16_injective h2, bswap16_injective h3⟩

theorem setWidth_injective {n m : Nat} (hle : n ≤ m) :
    Function.Injective (fun x : BitVec n => x.setWidth m) := fun x y h => by
  have hnum := congrArg BitVec.toNat h
  rw [BitVec.toNat_setWidth_of_le hle, BitVec.toNat_setWidth_of_le hle] at hnum
  exact BitVec.eq_of_toNat_eq hnum

theorem wbuf_eq_of_lt_two {s t : State} (h : s.wbuf 0 = t.wbuf 0 ∧ s.wbuf 1 = t.wbuf 1) {k : Nat}
    (hk : k < 2) : s.wbuf k = t.wbuf k :=
  match k, hk with
  | 0, _ => h.1
  | 1, _ => h.2

/-- A pattern determines the words that its type needs. -/
theorem wbuf_eq_of_pattern_eq {ty : PrimType} {o : ByteOrder} {s t : State}
    (h : s.pattern ty o = t.pattern ty o) {k : Nat} (hk : k < need ty) : s.wbuf k = t.wbuf k := by
  cases ty with
  | uint16 | int16 =>
    obtain rfl : k = 0 := Nat.lt_one_iff.mp hk
    exact setWidth_injective (by decide) h
  | uint32 | int32 | float32 =>
    exact wbuf_eq_of_lt_two (compose32_injective (setWidth_injective (by decide) h)) hk
  | hex =>
    exact wbuf_eq_of_lt_two (compose32_injective (o := .bigEndian) (setWidth_injective (by decide) h)) hk
  | float64 =>
    obtain ⟨h0, h1, h2, h3⟩ := compose64_injective h
    match k, hk with
    | 0, _ => exact h0
    | 1, _ => exact h1
    | 2, _ => exact h2
    | 3, _ => exact h3

theorem raw_of_decode_success {ty : PrimType} {o : ByteOrder} {s t : State}
    (h : exec (.decode ty o) s = .next t) (hsuccess : t.result = .success) :
    t.raw = s.pattern ty o := by
  rcases execDecode_cases h with ⟨_, rfl⟩ | ⟨_, _, rfl⟩
  · cases hsuccess
  · rfl

/-- Settles O45: RAW of a successful decode is the pattern, and a pattern determines its words. -/
theorem rawDeterminesTheWords : Obligations.RawDeterminesTheWords := by
  intro ty o s1 s2 t1 t2 h1 h2 hr1 hr2 hraw k hk
  rw [raw_of_decode_success h1 hr1, raw_of_decode_success h2 hr2] at hraw
  exact wbuf_eq_of_pattern_eq hraw hk

end Sys2Proof.Machine
end

section
/-! 43_decode.md rules R215 and R219: what each operation gives, one equation for each class of operands,
and which operands make a NaN. -/

namespace Sys2Proof.Machine.Float64

open Sys2Proof.Safety

/-! What a pattern denotes, by its number. -/

theorem unpack_by_fields (x : Wide) :
    let e := x.toNat / 2 ^ 52 % 2 ^ 11
    let f := x.toNat % 2 ^ 52
    (e = 2047 → f = 0 → unpack x = .inf (x.getLsbD 63))
    ∧ (e = 2047 → f ≠ 0 → unpack x = .nan)
    ∧ (e = 0 → unpack x = .fin (x.getLsbD 63) f)
    ∧ (0 < e → e < 2047 → unpack x = .fin (x.getLsbD 63) ((2 ^ 52 + f) * 2 ^ (e - 1))) := by
  intro e f
  have he : (x.extractLsb' 52 11).toNat = e := toNat_extractLsb'_eq x 52 11
  have hf : (x.extractLsb' 0 52).toNat = f := by rw [toNat_extractLsb'_eq, pow_zero, Nat.div_one]
  simp only [unpack, he, hf]
  refine ⟨fun h1 h2 => ?_, fun h1 h2 => ?_, fun h1 => ?_, fun h1 h2 => ?_⟩
  · rw [if_pos h1, if_pos h2]
  · rw [if_pos h1, if_neg h2]
  · rw [if_neg (by omega), if_pos h1]
  · rw [if_neg (by omega), if_neg (by omega)]

theorem packInf_eq (a : Bool) :
    packInf a = if a then 0xFFF0000000000000 else 0x7FF0000000000000 := by cases a <;> rfl

theorem unpack_one : unpack 0x3FF0000000000000 = .fin false one := by decide +kernel

theorem exists_unpack_inf_iff (x : Wide) :
    (∃ a, unpack x = .inf a) ↔ x = 0x7FF0000000000000 ∨ x = 0xFFF0000000000000 := by
  simp [unpack_inf_iff]

theorem exists_unpack_zero_iff (x : Wide) :
    (∃ a, unpack x = .fin a 0) ↔ x = 0x0000000000000000 ∨ x = 0x8000000000000000 := by
  simp [unpack_zero_iff]

/-! The operations, for each class of operands that makes no NaN. -/

section Equations

variable {x y : Wide} {a b : Bool} {m k : Nat}

theorem fmul_fin_fin (hx : unpack x = .fin a m) (hy : unpack y = .fin b k) :
    fmul x y = pack (a != b) (m * k) one := by
  simp only [fmul, hx, hy]

theorem fmul_inf_fin (hx : unpack x = .inf a) (hy : unpack y = .fin b k) (hk : k ≠ 0) :
    fmul x y = packInf (a != b) := by
  simp only [fmul, hx, hy, if_neg hk]

theorem fmul_fin_inf (hx : unpack x = .fin a m) (hy : unpack y = .inf b) (hm : m ≠ 0) :
    fmul x y = packInf (a != b) := by
  simp only [fmul, hx, hy, if_neg hm]

theorem fmul_inf_inf (hx : unpack x = .inf a) (hy : unpack y = .inf b) :
    fmul x y = packInf (a != b) := by
  simp only [fmul, hx, hy]

theorem fadd_inf_fin (hx : unpack x = .inf a) (hy : unpack y = .fin b k) : fadd x y = packInf a := by
  simp only [fadd, hx, hy]

theorem fadd_fin_inf (hx : unpack x = .fin a m) (hy : unpack y = .inf b) : fadd x y = packInf b := by
  simp only [fadd, hx, hy]

theorem fadd_inf_inf (hx : unpack x = .inf a) (hy : unpack y = .inf a) : fadd x y = packInf a := by
  simp only [fadd, hx, hy, if_true]

theorem fdiv_fin_fin (hx : unpack x = .fin a m) (hy : unpack y = .fin b k) (hk : k ≠ 0) :
    fdiv x y = pack (a != b) (m * one) k := by
  simp only [fdiv, hx, hy, if_neg hk]

theorem fdiv_fin_zero (hx : unpack x = .fin a m) (hy : unpack y = .fin b 0) (hm : m ≠ 0) :
    fdiv x y = packInf (a != b) := by
  simp only [fdiv, hx, hy, if_true, if_neg hm]

theorem fdiv_inf_fin (hx : unpack x = .inf a) (hy : unpack y = .fin b k) :
    fdiv x y = packInf (a != b) := by
  simp only [fdiv, hx, hy]

theorem fdiv_fin_inf (hx : unpack x = .fin a m) (hy : unpack y = .inf b) :
    fdiv x y = pack (a != b) 0 1 := by
  simp only [fdiv, hx, hy]

theorem signedUnits_not (b : Bool) (k : Nat) : signedUnits (!b) k = -signedUnits b k := by
  cases b
  · rfl
  · exact (Int.neg_neg _).symm

/-- An exact sum, by the operands' units. -/
theorem fadd_finite (hx : unpack x = .fin a m) (hy : unpack y = .fin b k) :
    let z := signedUnits a m + signedUnits b k
    (z ≠ 0 → fadd x y = pack (decide (z < 0)) z.natAbs 1) ∧ (z = 0 → fadd x y = pack (a && b) 0 1) := by
  refine ⟨fun h => ?_, fun h => ?_⟩
  · simp only [fadd, hx, hy, if_neg h]
  · simp only [fadd, hx, hy, if_pos h]

/-- An exact difference, by the operands' units. -/
theorem fsub_finite (hx : unpack x = .fin a m) (hy : unpack y = .fin b k) :
    let z := signedUnits a m - signedUnits b k
    (z ≠ 0 → fsub x y = pack (decide (z < 0)) z.natAbs 1)
      ∧ (z = 0 → fsub x y = pack (a && !b) 0 1) := by
  have h := fadd_finite hx (unpack_negate_fin hy)
  rwa [signedUnits_not, ← Int.sub_eq_add_neg] at h

end Equations

/-- Settles O49: by the equation of each class of operands. -/
theorem operationsRoundTheExactResult : Obligations.OperationsRoundTheExactResult := by
  refine ⟨unpack_by_fields, ?finite, ?infinite, ?infinities⟩
  case finite =>
    intro x y a b m k hx hy i j
    obtain ⟨hadd, hadd0⟩ := fadd_finite hx hy
    obtain ⟨hsub, hsub0⟩ := fsub_finite hx hy
    refine ⟨fmul_fin_fin hx hy, fdiv_fin_fin hx hy, fun hk hm => ?_, hadd,
      fun h => (hadd0 h).trans (pack_zero _), hsub, fun h => (hsub0 h).trans (pack_zero _)⟩
    subst hk
    exact (fdiv_fin_zero hx hy hm).trans (packInf_eq _)
  case infinite =>
    intro x y a b k hx hy
    simp only [← packInf_eq, ← pack_zero]
    refine ⟨fun hk => ⟨fmul_inf_fin hx hy hk, ?_⟩, fdiv_inf_fin hx hy, ?_, fadd_inf_fin hx hy,
      fadd_fin_inf hy hx, fadd_inf_fin hx (unpack_negate_fin hy),
      fadd_fin_inf hy (unpack_negate_inf hx)⟩
    · rw [fmul_fin_inf hy hx hk, bne_comm]
    · rw [fdiv_fin_inf hy hx, bne_comm]
  case infinities =>
    intro x y a b hx hy
    simp only [← packInf_eq]
    refine ⟨fmul_inf_inf hx hy, fun h => ?_, fun h => ?_⟩
    · subst h
      exact fadd_inf_inf hx hy
    · obtain rfl : b = !a := Bool.eq_not.mpr h.symm
      exact fadd_inf_inf hx (by rw [unpack_negate_inf hy, Bool.not_not])

/-! Which operands make a NaN. -/

theorem pack_ne_canonicalNaN (a : Bool) (n d : Nat) : pack a n d ≠ canonicalNaN := fun h =>
  unpack_pack_ne_nan a n d (h ▸ unpack_canonicalNaN)

theorem packInf_ne_canonicalNaN (a : Bool) : packInf a ≠ canonicalNaN := by cases a <;> decide

theorem canonical_of_nanPattern {r : Wide}
    (h : r = canonicalNaN ∨ (∃ a, r = packInf a) ∨ ∃ a n d, r = pack a n d) (hnan : nanPattern r) :
    r = canonicalNaN := by
  rw [nanPattern_iff] at hnan
  rcases h with h | ⟨a, rfl⟩ | ⟨a, n, d, rfl⟩
  · exact h
  · rw [unpack_packInf] at hnan
    cases hnan
  · exact absurd hnan (unpack_pack_ne_nan a n d)

theorem fmul_eq_canonicalNaN_iff (x y : Wide) : fmul x y = canonicalNaN ↔
    (unpack x = .nan ∨ unpack y = .nan) ∨ ((∃ a, unpack x = .inf a) ∧ ∃ b, unpack y = .fin b 0)
      ∨ ((∃ a, unpack x = .fin a 0) ∧ ∃ b, unpack y = .inf b) := by
  unfold fmul
  cases unpack x with
  | nan => simp
  | inf a =>
    cases unpack y with
    | nan => simp
    | inf b => simp [packInf_ne_canonicalNaN]
    | fin b k => by_cases hk : k = 0 <;> simp [hk, packInf_ne_canonicalNaN]
  | fin a m =>
    cases unpack y with
    | nan => simp
    | inf b => by_cases hm : m = 0 <;> simp [hm, packInf_ne_canonicalNaN]
    | fin b k => simp [pack_ne_canonicalNaN]

theorem fadd_eq_canonicalNaN_iff (x y : Wide) : fadd x y = canonicalNaN ↔
    (unpack x = .nan ∨ unpack y = .nan) ∨ ∃ a, unpack x = .inf a ∧ unpack y = .inf (!a) := by
  unfold fadd
  cases unpack x with
  | nan => simp
  | inf a =>
    cases unpack y with
    | nan => simp
    | inf b => cases a <;> cases b <;> simp [packInf_ne_canonicalNaN]
    | fin b k => simp [packInf_ne_canonicalNaN]
  | fin a m =>
    cases unpack y with
    | nan => simp
    | inf b => simp [packInf_ne_canonicalNaN]
    | fin b k =>
      simp only
      split <;> simp [pack_ne_canonicalNaN]

theorem fdiv_eq_canonicalNaN_iff (x y : Wide) : fdiv x y = canonicalNaN ↔
    (unpack x = .nan ∨ unpack y = .nan) ∨ ((∃ a, unpack x = .inf a) ∧ ∃ b, unpack y = .inf b)
      ∨ ((∃ a, unpack x = .fin a 0) ∧ ∃ b, unpack y = .fin b 0) := by
  unfold fdiv
  cases unpack x with
  | nan => simp
  | inf a =>
    cases unpack y with
    | nan => simp
    | inf b => simp
    | fin b k => simp [packInf_ne_canonicalNaN]
  | fin a m =>
    cases unpack y with
    | nan => simp
    | inf b => simp [pack_ne_canonicalNaN]
    | fin b k =>
      by_cases hk : k = 0 <;> by_cases hm : m = 0 <;>
        simp [hk, hm, packInf_ne_canonicalNaN, pack_ne_canonicalNaN]

theorem unpack_negate_eq_nan_iff (y : Wide) : unpack (negate y) = .nan ↔ unpack y = .nan :=
  ⟨fun h => negate_negate y ▸ unpack_negate_nan h, unpack_negate_nan⟩

theorem unpack_negate_eq_inf_iff (y : Wide) (a : Bool) :
    unpack (negate y) = .inf (!a) ↔ unpack y = .inf a := by
  refine ⟨fun h => ?_, unpack_negate_inf⟩
  have h2 := unpack_negate_inf h
  rwa [negate_negate, Bool.not_not] at h2

theorem fsub_eq_canonicalNaN_iff (x y : Wide) : fsub x y = canonicalNaN ↔
    (unpack x = .nan ∨ unpack y = .nan) ∨ ∃ a, unpack x = .inf a ∧ unpack y = .inf a := by
  simp only [fsub, fadd_eq_canonicalNaN_iff, unpack_negate_eq_nan_iff, unpack_negate_eq_inf_iff]

/-- Infinities of opposite signs. -/
theorem opposite_inf_iff (x y : Wide) : (∃ a, unpack x = .inf a ∧ unpack y = .inf (!a)) ↔
    (∃ a, unpack x = .inf a) ∧ (∃ b, unpack y = .inf b) ∧ x ≠ y := by
  constructor
  · rintro ⟨a, hx, hy⟩
    refine ⟨⟨a, hx⟩, ⟨_, hy⟩, ?_⟩
    rintro rfl
    simp [hx] at hy
  · rintro ⟨⟨a, hx⟩, ⟨b, hy⟩, hne⟩
    have hab : b ≠ a := fun hab => hne ((inf_form hx).trans (hab ▸ (inf_form hy).symm))
    exact ⟨a, hx, Bool.eq_not.mpr hab ▸ hy⟩

/-- Infinities of one sign. -/
theorem same_inf_iff (x y : Wide) : (∃ a, unpack x = .inf a ∧ unpack y = .inf a) ↔
    (∃ a, unpack x = .inf a) ∧ x = y := by
  constructor
  · rintro ⟨a, hx, hy⟩
    exact ⟨⟨a, hx⟩, (inf_form hx).trans (inf_form hy).symm⟩
  · rintro ⟨⟨a, hx⟩, rfl⟩
    exact ⟨a, hx, hx⟩

/-- Settles O47: a result is packed, an infinity or the canonical NaN, and which operands give the NaN is
read off the operations' cases. -/
theorem naNResultsAreCanonical : Obligations.NaNResultsAreCanonical := by
  intro x y nanOperand infinite zero
  have hsub : nanPattern (fsub x y) → fsub x y = canonicalNaN :=
    canonical_of_nanPattern (fadd_cases x (negate y))
  refine ⟨canonical_of_nanPattern (fmul_cases x y), canonical_of_nanPattern (fadd_cases x y), hsub,
    canonical_of_nanPattern (fdiv_cases x y), ?_⟩
  simp only [nanOperand, infinite, zero, nanPattern_iff, ← exists_unpack_inf_iff,
    ← exists_unpack_zero_iff, ← opposite_inf_iff, ← same_inf_iff]
  exact ⟨fmul_eq_canonicalNaN_iff x y, fadd_eq_canonicalNaN_iff x y, fsub_eq_canonicalNaN_iff x y,
    fdiv_eq_canonicalNaN_iff x y⟩

/-- Settles O46: 1.0 leaves an infinity its sign and a finite value its units, and packing gives back the
pattern they came from. -/
theorem scaleOneIsExact : Obligations.ScaleOneIsExact := by
  refine ⟨fun x hx => ?_, fun x y hnan => ?_⟩
  · rw [nanPattern_iff] at hx
    cases hu : unpack x with
    | nan => exact absurd hu hx
    | inf a => rw [fmul_inf_fin hu unpack_one one_pos.ne', Bool.bne_false, ← inf_form hu]
    | fin a m =>
      obtain ⟨f, hf, rfl, rfl⟩ := fin_form hu
      rw [fmul_fin_fin hu unpack_one, Bool.bne_false, pack_magOfFields a one_pos hf]
  · rw [nanPattern_iff, nanPattern_iff] at hnan
    exact (fmul_eq_canonicalNaN_iff x y).mpr (.inl hnan)

end Sys2Proof.Machine.Float64
end

section
/-! 43_decode.md rule R215: rounding to nearest, ties to even. -/

namespace Sys2Proof.Machine.Float64

/-- Below half a unit above `q`, a fraction rounds to `q` at the most. -/
theorem roundTiesEven_le {n d q : Nat} (h : 2 * n < (2 * q + 1) * d) : roundTiesEven n d ≤ q := by
  have hd : 0 < d := Nat.pos_of_ne_zero fun h0 => by simp [h0] at h
  have hdm := Nat.div_add_mod n d
  have hle : n / d ≤ q := by
    rw [← Nat.lt_succ_iff, Nat.succ_eq_add_one, Nat.div_lt_iff_lt_mul hd]
    nlinarith
  rcases Nat.lt_or_eq_of_le hle with hlt | heq
  · exact (roundTiesEven_bounds n d).2.trans hlt
  · have hr : 2 * (n % d) < d := by
      rw [heq] at hdm
      nlinarith
    unfold roundTiesEven
    rw [if_pos hr, heq]

/-- From half a unit above an odd `q` on, a fraction rounds above `q`. -/
theorem lt_roundTiesEven {n d q : Nat} (hd : 0 < d) (hodd : q % 2 = 1) (h : (2 * q + 1) * d ≤ 2 * n) :
    q < roundTiesEven n d := by
  have hdm := Nat.div_add_mod n d
  have hmod := Nat.mod_lt n hd
  have hle : q ≤ n / d := by
    rw [Nat.le_div_iff_mul_le hd]
    nlinarith
  rcases Nat.lt_or_eq_of_le hle with hlt | heq
  · exact hlt.trans_le (roundTiesEven_bounds n d).1
  · have hr : ¬ 2 * (n % d) < d := by
      rw [← heq] at hdm
      nlinarith
    unfold roundTiesEven
    rw [if_neg hr, ← heq]
    split <;> omega

/-- The magnitude half a last place above the largest finite one, in units. -/
def overflowUnits : Nat := (2 ^ 54 - 1) * 2 ^ 2044

theorem overflowUnits_bounds : 2 ^ (53 + 2044) ≤ overflowUnits ∧ overflowUnits < 2 ^ (53 + 2045) := by
  constructor <;> decide +kernel

theorem two_mul_overflowUnits : 2 * overflowUnits = (2 * (2 ^ 53 - 1) + 1) * 2 ^ 2045 := by
  decide +kernel

theorem lastPlace_le_iff (q e : Nat) : lastPlace q ≤ e ↔ q < 2 ^ (53 + e) := by
  rcases Nat.eq_zero_or_pos q with rfl | hq
  · simp [lastPlace]
  · rw [← Nat.log2_lt hq.ne', lastPlace]
    omega

/-- Below half a last place above the largest finite magnitude, rounding gives a finite one. -/
theorem roundedFields_lt_infFields {n d : Nat} (hd : 0 < d) (h : n < overflowUnits * d) :
    roundedFields n d < infFields := by
  have hwhole : n / d < 2 ^ (53 + 2045) :=
    ((Nat.div_lt_iff_lt_mul hd).mpr h).trans overflowUnits_bounds.2
  have hle : lastPlace (n / d) ≤ 2045 := (lastPlace_le_iff ..).mpr hwhole
  have hplace : roundTiesEven n (d * 2 ^ lastPlace (n / d)) ≤ 2 ^ 53 := by
    rcases rounded_place n d with ⟨_, hr⟩ | ⟨_, hr⟩ <;> exact hr
  unfold roundedFields
  rw [infFields_eq]
  rcases Nat.lt_or_eq_of_le hle with hlt | heq
  · simp only
    omega
  · have hround : roundTiesEven n (d * 2 ^ 2045) ≤ 2 ^ 53 - 1 := by
      apply roundTiesEven_le
      rw [Nat.mul_left_comm, ← two_mul_overflowUnits]
      nlinarith
    simp only [heq]
    omega

/-- From half a last place above the largest finite magnitude on, rounding gives infinity. -/
theorem infFields_le_roundedFields {n d : Nat} (hd : 0 < d) (h : overflowUnits * d ≤ n) :
    infFields ≤ roundedFields n d := by
  have hwhole : 2 ^ (53 + 2044) ≤ n / d :=
    overflowUnits_bounds.1.trans ((Nat.le_div_iff_mul_le hd).mpr h)
  have hle : 2045 ≤ lastPlace (n / d) :=
    Nat.lt_of_not_le fun hc => Nat.not_lt.mpr hwhole ((lastPlace_le_iff ..).mp hc)
  have hplace : 2 ^ 52 ≤ roundTiesEven n (d * 2 ^ lastPlace (n / d)) := by
    rcases rounded_place n d with ⟨h0, _⟩ | ⟨hr, _⟩
    · omega
    · exact hr
  unfold roundedFields
  rw [infFields_eq]
  rcases Nat.lt_or_eq_of_le hle with hlt | heq
  · simp only
    omega
  · have hround : 2 ^ 53 - 1 < roundTiesEven n (d * 2 ^ 2045) := by
      refine lt_roundTiesEven (by positivity) (by decide) ?_
      rw [Nat.mul_left_comm, ← two_mul_overflowUnits]
      nlinarith
    simp only [← heq]
    omega

/-- The distance of the magnitude `m` from `n / d`, as a multiple of `1 / d`. -/
def distance (n d m : Nat) : Nat := ((m : Int) * d - n).natAbs

theorem distance_place (n d e j : Nat) : distance n d (j * 2 ^ e) = distance n (d * 2 ^ e) j := by
  unfold distance
  push_cast
  ring_nf

/-- Of two magnitudes that do not exceed `n / d`, the greater one is nearer. -/
theorem distance_lt {n d k l : Nat} (hd : 0 < d) (hlt : k < l) (hle : l * d ≤ n) :
    distance n d l < distance n d k := by
  have := Nat.mul_lt_mul_of_pos_right hlt hd
  unfold distance
  omega

/-- The significand that rounding keeps is nearest: a finite magnitude is a whole number of last places, or
lies below every magnitude with that last place. -/
theorem rounded_nearest {n d k : Nat} (hd : 0 < d) {a : Bool} {y : Wide} (hy : unpack y = .fin a k) :
    let e := lastPlace (n / d)
    let r := roundTiesEven n (d * 2 ^ e)
    distance n d (r * 2 ^ e) ≤ distance n d k
      ∧ (distance n d (r * 2 ^ e) = distance n d k → k ≠ r * 2 ^ e → r % 2 = 0) := by
  intro e r
  have nearest : ∀ j, distance n d (r * 2 ^ e) ≤ distance n d (j * 2 ^ e)
      ∧ (distance n d (r * 2 ^ e) = distance n d (j * 2 ^ e) → j ≠ r → r % 2 = 0) := fun j => by
    rw [distance_place, distance_place]
    exact roundTiesEven_nearest n j (by positivity)
  obtain ⟨f, hf, -, rfl⟩ := fin_form hy
  obtain ⟨i, s, rfl, hs, -⟩ := fields_place hf
  rw [magOfFields_place (by omega)]
  rcases Nat.lt_or_ge i e with hlt | hge
  · have hbinade : 2 ^ 52 * 2 ^ e * d ≤ n := by
      rcases lastPlace_cases (n / d) with ⟨h0, _⟩ | ⟨_, hlow, _⟩
      · exact absurd h0 (by omega)
      · rw [← pow_add, ← Nat.le_div_iff_mul_le hd]
        exact hlow
    have hbelow : s * 2 ^ i < 2 ^ 52 * 2 ^ e := calc
      s * 2 ^ i < 2 ^ 53 * 2 ^ i := Nat.mul_lt_mul_of_pos_right (by omega) (by positivity)
      _ = 2 ^ 52 * 2 ^ (i + 1) := by ring
      _ ≤ 2 ^ 52 * 2 ^ e := Nat.mul_le_mul_left _ (Nat.pow_le_pow_right (by decide) hlt)
    have hfar := (nearest (2 ^ 52)).1.trans_lt (distance_lt hd hbelow hbinade)
    exact ⟨hfar.le, fun htie => absurd htie hfar.ne⟩
  · obtain ⟨t, rfl⟩ := Nat.exists_eq_add_of_le hge
    rw [pow_add, Nat.mul_comm (2 ^ e), ← Nat.mul_assoc]
    obtain ⟨hle, htie⟩ := nearest (s * 2 ^ t)
    exact ⟨hle, fun h hne => htie h fun heq => hne (heq ▸ rfl)⟩

/-- The last bit of a finite packed pattern is that of its significand. -/
theorem getLsbD_zero_pack (neg : Bool) {n d : Nat} (h : roundedFields n d < infFields)
    (heven : roundTiesEven n (d * 2 ^ lastPlace (n / d)) % 2 = 0) : (pack neg n d).getLsbD 0 = false := by
  have hfields : roundedFields n d % 2 = 0 := by
    unfold roundedFields
    simp only
    omega
  rw [pack_eq_ofFields, Nat.min_eq_left h.le, BitVec.getLsbD, toNat_ofFields, Nat.testBit_zero]
  · cases neg <;> simp <;> omega
  · rw [infFields_eq] at h
    omega

/-- Settles O48: where rounding overflows is decided by the fields, and below that the rounded significand is
the nearest of all finite magnitudes. -/
theorem roundingIsToNearestTiesToEven : Obligations.RoundingIsToNearestTiesToEven := by
  intro n d neg hd x
  refine ⟨fun h => unpack_pack_inf neg (infFields_le_roundedFields hd h), fun h => ?_⟩
  have hfields := roundedFields_lt_infFields hd h
  refine ⟨_, unpack_pack_fin neg hfields, fun y k hy => ?_⟩
  obtain ⟨hle, htie⟩ := rounded_nearest (n := n) hd hy
  exact ⟨hle, fun heq hne => getLsbD_zero_pack neg hfields (htie heq hne)⟩

end Sys2Proof.Machine.Float64
end

section
/-! 43_decode.md rule R216: widening. -/

namespace Sys2Proof.Machine.Float64

theorem widen_by_fields (x : BitVec 32) :
    let e := x.toNat / 2 ^ 23 % 2 ^ 8
    let f := x.toNat % 2 ^ 23
    let neg := x.getLsbD 31
    (e = 255 → f ≠ 0 → widen x = canonicalNaN)
    ∧ (e = 255 → f = 0 → widen x = packInf neg)
    ∧ (e = 0 → widen x = pack neg (f * 2 ^ 925) 1)
    ∧ (0 < e → e < 255 → widen x = pack neg ((2 ^ 23 + f) * 2 ^ (e - 1) * 2 ^ 925) 1) := by
  intro e f neg
  have he : (x.extractLsb' 23 8).toNat = e := toNat_extractLsb'_eq x 23 8
  have hf : (x.extractLsb' 0 23).toNat = f := by rw [toNat_extractLsb'_eq, pow_zero, Nat.div_one]
  simp only [widen, he, hf]
  refine ⟨fun h1 h2 => ?_, fun h1 h2 => ?_, fun h1 => ?_, fun h1 h2 => ?_⟩
  · rw [if_pos h1, if_neg h2]
  · rw [if_pos h1, if_pos h2]
  · rw [if_neg (by omega), if_pos h1]
  · rw [if_neg (by omega), if_neg (by omega)]

/-- Settles O51: a binary32 magnitude has at most 24 significant bits, and such a magnitude is packed
exactly. -/
theorem wideningIsExact : Obligations.WideningIsExact := by
  intro x e f
  obtain ⟨hnan, hinf, hsub, hnormal⟩ := widen_by_fields x
  have hf : f < 2 ^ 23 := Nat.mod_lt _ (by decide)
  have exact_units : ∀ n j, n < 2 ^ 53 → j ≤ 1980 →
      unpack (pack (x.getLsbD 31) (n * 2 ^ j) 1) = .fin (x.getLsbD 31) (n * 2 ^ j) := fun n j hn hj => by
    simpa only [Nat.mul_one] using unpack_pack_scaled (x.getLsbD 31) Nat.one_pos hn hj
  refine ⟨hnan, fun h1 h2 => ?_, fun h1 => ?_, fun h1 h2 => ?_⟩
  · rw [hinf h1 h2, unpack_packInf]
  · rw [hsub h1, exact_units f 925 (by omega) (by decide)]
  · rw [hnormal h1 h2, Nat.mul_assoc, ← pow_add]
    exact exact_units _ _ (by omega) (by omega)

end Sys2Proof.Machine.Float64
end

section
/-! 43_decode.md rules R230 to R232: descriptor tokens. -/

namespace Sys2Proof.Machine

open Sys2Proof.Safety

/-- The entry that a search by token finds carries the value that looking the token up gives. -/
theorem find?_token_eq_lookup {α : Type} (table : List (String × α)) (tok : String) :
    (table.find? (fun e => e.1 == tok)).map Prod.snd = table.lookup tok := by
  induction table with
  | nil => rfl
  | cons e table ih =>
    rw [List.find?_cons, List.lookup_cons, BEq.comm (a := tok)]
    cases e.1 == tok
    · exact ih
    · rfl

/-- Rule R230 by lookups: the table first, then the type names. -/
theorem resolveToken_eq (table : TokenTable) (tok : String) (ord : ByteOrder) :
    resolveToken table tok ord =
      (table.lookup tok).or ((typeNames.lookup tok).map (fun ty => (ty, ord))) := by
  rw [← find?_token_eq_lookup, ← find?_token_eq_lookup, resolveToken]
  cases table.find? (fun e => e.1 == tok) with
  | some e => rfl
  | none =>
    rw [Option.map_map]
    rfl

theorem typeNames_lookup_eq_none {tok : String}
    (h : tok ∉ ["UINT16", "INT16", "UINT32", "INT32", "FLOAT32", "FLOAT64", "HEX"]) :
    typeNames.lookup tok = none := by
  rw [List.lookup_eq_none_iff]
  intro e he
  have hname : e.1 ∈ typeNames.map Prod.fst := List.mem_map_of_mem he
  exact bne_iff_ne.mpr fun heq => h (heq ▸ hname)

/-- Settles O57: by the two lookups. -/
theorem tokensResolveByTableThenName : Obligations.TokensResolveByTableThenName := by
  intro table tok ord
  rw [resolveToken_eq]
  refine ⟨fun d hd => by rw [hd]; rfl, fun hnone => ?_⟩
  rw [hnone, Option.none_or]
  refine ⟨?_, ?_, ?_, ?_, ?_, ?_, ?_, fun h => by rw [typeNames_lookup_eq_none h]; rfl⟩
  all_goals
    rintro rfl
    rfl

/-! The digits of the default tokens (rules R231, R232). -/

/-- For each order, the value bytes that the wire positions of two words carry. -/
def digits32 : ByteOrder → List Nat
  | .bigEndian => [1, 2, 3, 4]
  | .littleEndian => [3, 4, 1, 2]
  | .mixedBadc => [2, 1, 4, 3]
  | .mixedDcba => [4, 3, 2, 1]

/-- For each order, the value bytes that the wire positions of four words carry. -/
def digits64 : ByteOrder → List Nat
  | .bigEndian => [1, 2, 3, 4, 5, 6, 7, 8]
  | .littleEndian => [7, 8, 5, 6, 3, 4, 1, 2]
  | .mixedBadc => [2, 1, 4, 3, 6, 5, 8, 7]
  | .mixedDcba => [8, 7, 6, 5, 4, 3, 2, 1]

/-- The digits of the default token of a pair; there is none for the other types. -/
def tokenDigits : PrimType → ByteOrder → List Nat
  | .uint32, o => digits32 o
  | .int32, o => digits32 o
  | .float32, o => digits32 o
  | .float64, o => digits64 o
  | _, _ => []

theorem suffixDigits_defaultTokenTable : ∀ e ∈ Config.defaultTokenTable,
    suffixDigits e.1 = tokenDigits e.2.1 e.2.2 := by
  decide

theorem toNat_valueByte (n : Nat) (v : Wide) (d : Nat) :
    (valueByte n v d).toNat = v.toNat / 2 ^ (8 * (n - d)) % 2 ^ 8 :=
  toNat_extractLsb'_eq ..

/-- The bytes of two words side by side. -/
theorem valueByte_halves32 (h0 h1 : Half) :
    let v : Wide := (h0 ++ h1 : BitVec 32).setWidth 64
    valueByte 4 v 1 = hi8 h0 ∧ valueByte 4 v 2 = lo8 h0
      ∧ valueByte 4 v 3 = hi8 h1 ∧ valueByte 4 v 4 = lo8 h1 := by
  intro v
  have hv : v.toNat = h0.toNat * 2 ^ 16 + h1.toNat :=
    (BitVec.toNat_setWidth_of_le (by decide)).trans (toNat_append_eq h0 h1)
  have := h0.isLt
  have := h1.isLt
  refine ⟨?_, ?_, ?_, ?_⟩
  all_goals
    apply BitVec.eq_of_toNat_eq
    simp only [toNat_valueByte, toNat_hi8, toNat_lo8, hv]
    omega

/-- The bytes of four words side by side. -/
theorem valueByte_halves64 (h0 h1 h2 h3 : Half) :
    let v : Wide := h0 ++ h1 ++ h2 ++ h3
    (valueByte 8 v 1 = hi8 h0 ∧ valueByte 8 v 2 = lo8 h0)
      ∧ (valueByte 8 v 3 = hi8 h1 ∧ valueByte 8 v 4 = lo8 h1)
      ∧ (valueByte 8 v 5 = hi8 h2 ∧ valueByte 8 v 6 = lo8 h2)
      ∧ (valueByte 8 v 7 = hi8 h3 ∧ valueByte 8 v 8 = lo8 h3) := by
  intro v
  have hv : v.toNat = ((h0.toNat * 2 ^ 16 + h1.toNat) * 2 ^ 16 + h2.toNat) * 2 ^ 16 + h3.toNat := by
    simp only [v, toNat_append_eq]
  have := h0.isLt
  have := h1.isLt
  have := h2.isLt
  have := h3.isLt
  refine ⟨⟨?_, ?_⟩, ⟨?_, ?_⟩, ⟨?_, ?_⟩, ?_, ?_⟩
  all_goals
    apply BitVec.eq_of_toNat_eq
    simp only [toNat_valueByte, toNat_hi8, toNat_lo8, hv]
    omega

theorem map_valueByte_compose32 (o : ByteOrder) (w0 w1 : Half) :
    (digits32 o).map (valueByte 4 ((compose32 o w0 w1).setWidth 64)) =
      bigEndian16 w0 ++ bigEndian16 w1 := by
  cases o <;> simp only [digits32, compose32, List.map_cons, List.map_nil, valueByte_halves32,
    hi8_bswap16, lo8_bswap16, bigEndian16, List.cons_append, List.nil_append]

theorem map_valueByte_compose64 {o : ByteOrder} (ho : o ≠ .mixedDcba) (w0 w1 w2 w3 : Half) :
    (digits64 o).map (valueByte 8 (compose64 o w0 w1 w2 w3)) = wireBytes w0 w1 w2 w3 := by
  cases o with
  | mixedDcba => exact absurd rfl ho
  | _ => simp only [digits64, compose64, List.map_cons, List.map_nil, valueByte_halves64,
    hi8_bswap16, lo8_bswap16, bigEndian16, wireBytes, List.cons_append, List.nil_append]

/-- The value bytes that the digits of a token name are the first bytes on the wire. -/
theorem map_valueByte_prefix {ty : PrimType} {o : ByteOrder} (ho : orderSupported ty o = true)
    (w0 w1 w2 w3 : Half) :
    (tokenDigits ty o).map (valueByte (2 * need ty) (decodePattern ty o w0 w1 w2 w3))
      <+: wireBytes w0 w1 w2 w3 := by
  cases ty with
  | uint16 | int16 | hex => exact List.nil_prefix
  | uint32 | int32 | float32 =>
    refine ⟨bigEndian16 w2 ++ bigEndian16 w3, ?_⟩
    exact (congrArg (· ++ _) (map_valueByte_compose32 o w0 w1)).trans (List.append_assoc ..).symm
  | float64 =>
    have hne : o ≠ .mixedDcba := fun h => by cases h; cases ho
    exact map_valueByte_compose64 hne w0 w1 w2 w3 ▸ List.prefix_rfl

/-- Settles O58: the digits of a default token are those of its pair, and the bytes they name are the wire's
in order. -/
theorem tokenDigitsNameValueBytes : Obligations.TokenDigitsNameValueBytes := by
  intro e he ho w0 w1 w2 w3 k d hd
  rw [suffixDigits_defaultTokenTable e he] at hd
  obtain ⟨hk, rfl⟩ := List.getElem?_eq_some_iff.mp hd
  have hbyte := List.prefix_iff_getElem?.mp (map_valueByte_prefix ho w0 w1 w2 w3) k
    (by rwa [List.length_map])
  rwa [List.getElem_map] at hbyte

end Sys2Proof.Machine
end

section
/-! 44_vendor.md rules R250 and R252: the wide double, and the integer with a fraction. -/

namespace Sys2Proof.Machine

open Sys2Proof.Safety

/-- Two bit strings side by side, by their numbers. -/
theorem append_eq_ofNat {n m : Nat} (a : BitVec n) (b : BitVec m) :
    a ++ b = BitVec.ofNat (n + m) (a.toNat * 2 ^ m + b.toNat) := by
  rw [← toNat_append_eq, BitVec.ofNat_toNat, BitVec.setWidth_eq]

theorem unsupported_float32_iff (o : ByteOrder) :
    unsupported .float32 o ↔ o = .mixedBadc ∨ o = .mixedDcba := by
  simp [unsupported]

theorem exec_decodeIntfrac_of_rejected {n : IntWords} {io fo : ByteOrder} {s : State}
    (h : s.wcount.toNat < intWordCount n + 2 ∨ unsupported .float32 fo) :
    exec (.decodeIntfrac n io fo) s = .next (s.finish .invalidArgument) := by
  refine congrArg Host.Outcome.next ?_
  by_cases hcount : s.wcount.toNat < intWordCount n + 2
  · exact if_pos hcount
  · have ho := (orderSupported_eq_false_iff .float32 fo).mpr (h.resolve_left hcount)
    exact (if_neg hcount).trans (if_pos (by rw [ho]; rfl))

theorem exec_decodeIntfrac_of_accepted {n : IntWords} {io fo : ByteOrder} {s : State}
    (h : ¬ (s.wcount.toNat < intWordCount n + 2 ∨ unsupported .float32 fo)) :
    exec (.decodeIntfrac n io fo) s = .next ({ s with
      raw := s.intPattern n io ++ s.fracPattern n fo
      scaled := intFracValue (s.intPattern n io) (s.fracPattern n fo) s.scale }.finish .success) := by
  obtain ⟨hcount, ho⟩ := not_or.mp h
  rw [← orderSupported_eq_false_iff, Bool.not_eq_false] at ho
  exact congrArg Host.Outcome.next ((if_neg hcount).trans (if_neg (by simp [ho])))

/-- Settles O52: by the two equations of DECODE_INTFRAC, the patterns read as numbers. -/
theorem intFracWritesRawAndScaled : Obligations.IntFracWritesRawAndScaled := by
  intro n io fo s iw rejected ipat fpat
  have hcount : intWordCount n = iw := by cases n <;> rfl
  have hrejected : s.wcount.toNat < intWordCount n + 2 ∨ unsupported .float32 fo ↔ rejected := by
    rw [hcount, unsupported_float32_iff]
  have hint : (s.intPattern n io).toNat = ipat := by
    cases n with
    | one => exact BitVec.toNat_setWidth_of_le (by decide)
    | two => exact toNat_compose32 io (s.wbuf 0) (s.wbuf 1)
  have hfrac : (s.fracPattern n fo).toNat = fpat := by
    rw [State.fracPattern, hcount]
    exact toNat_compose32 fo (s.wbuf iw) (s.wbuf (iw + 1))
  refine ⟨fun h => exec_decodeIntfrac_of_rejected (hrejected.mpr h), fun h => ?_⟩
  rw [exec_decodeIntfrac_of_accepted (mt hrejected.mp h), append_eq_ofNat, intFracValue, hint,
    ← hfrac, BitVec.ofNat_toNat, BitVec.setWidth_eq]
  rfl

/-- Settles O53: the line is the encoding of that DECODE, and the decode is accepted. -/
theorem wideDoubleIsABigEndianDecode : Obligations.WideDoubleIsABigEndianDecode := by
  refine ⟨fun base => rfl, decodeOfEncodeIsTheCommand (.decode .float64 .bigEndian) rfl, ?_⟩
  intro s hcount v
  exact exec_decode_of_accepted hcount (by simp [unsupported])

end Sys2Proof.Machine
end

section
/-! What a zero, a finite product with 100 and a finite quotient say of their operands. -/

namespace Sys2Proof.Machine.Float64

theorem isZero_iff (x : Wide) :
    isZero x = true ↔ x = 0x0000000000000000 ∨ x = 0x8000000000000000 := by
  simp [isZero, unpack_zero_iff]

theorem unpack_plusZero : unpack plusZero = .fin false 0 := by decide

/-- Only a finite value times 100 is finite. -/
theorem fin_of_fmul_hundred {x : Wide} {a : Bool} {k : Nat}
    (h : unpack (fmul x hundred) = .fin a k) : ∃ b m, unpack x = .fin b m := by
  cases hx : unpack x with
  | nan =>
    rw [(fmul_eq_canonicalNaN_iff _ _).mpr (.inl (.inl hx)), unpack_canonicalNaN] at h
    cases h
  | inf b =>
    have hinf : fmul x hundred = packInf _ := fmul_inf_fin hx unpack_hundred (by positivity)
    rw [hinf, unpack_packInf] at h
    cases h
  | fin b m => exact ⟨b, m, rfl⟩

/-- A finite quotient has no NaN operand and no zero divisor. -/
theorem operands_of_fdiv_fin {x y : Wide} {a : Bool} {k : Nat}
    (h : unpack (fdiv x y) = .fin a k) :
    unpack x ≠ .nan ∧ unpack y ≠ .nan ∧ ∀ b, unpack y ≠ .fin b 0 := by
  have hnan : fdiv x y ≠ canonicalNaN := fun hc => by
    rw [hc, unpack_canonicalNaN] at h
    cases h
  have hinf : ∀ b, fdiv x y ≠ packInf b := fun b hc => by
    rw [hc, unpack_packInf] at h
    cases h
  rw [ne_eq, fdiv_eq_canonicalNaN_iff, not_or, not_or] at hnan
  obtain ⟨⟨hx, hy⟩, hspecial⟩ := hnan
  refine ⟨hx, hy, fun b hb => ?_⟩
  cases hu : unpack x with
  | nan => exact hx hu
  | inf c => exact hinf _ (fdiv_inf_fin hu hb)
  | fin c m =>
    by_cases hm : m = 0
    · exact hspecial (.inr ⟨⟨c, hm ▸ hu⟩, b, hb⟩)
    · exact hinf _ (fdiv_fin_zero hu hb hm)

end Sys2Proof.Machine.Float64
end

section
/-! 44_vendor.md rules R260 to R263: what LEVEL_PCT rejects, and how it clamps. -/

namespace Sys2Proof.Machine

open Sys2Proof.Safety

/-! The clamp (rule R261). -/

/-- Negative infinity and the negative values other than -0.0. -/
def BelowZero (p : Wide) : Prop :=
  Float64.unpack p = .inf true ∨ ∃ m, m ≠ 0 ∧ Float64.unpack p = .fin true m

/-- Positive infinity and the values of more than 100 * 2^1074 units. -/
def AboveHundred (p : Wide) : Prop :=
  Float64.unpack p = .inf false ∨ ∃ m, 100 * 2 ^ 1074 < m ∧ Float64.unpack p = .fin false m

theorem belowZero_iff (p : Wide) : BelowZero p ↔ Float64.flt p Float64.plusZero = true :=
  (Float64.flt_zero_iff p).symm

theorem aboveHundred_iff (p : Wide) : AboveHundred p ↔ Float64.flt Float64.hundred p = true :=
  (Float64.flt_hundred_iff p).symm

theorem not_belowZero_of_aboveHundred {p : Wide} (h : AboveHundred p) : ¬ BelowZero p := by
  rcases h with h | ⟨m, -, h⟩ <;> simp [BelowZero, h]

theorem clampPercent_of_below (c : Bool) {p : Wide} (h : BelowZero p) :
    clampPercent c p = Float64.plusZero :=
  if_pos ((belowZero_iff p).mp h)

theorem clampPercent_of_above {p : Wide} (h : AboveHundred p) :
    clampPercent true p = Float64.hundred :=
  (if_neg (mt (belowZero_iff p).mpr (not_belowZero_of_aboveHundred h))).trans
    (if_pos ((aboveHundred_iff p).mp h))

theorem clampPercent_of_between {c : Bool} {p : Wide} (hb : ¬ BelowZero p)
    (ha : ¬ (c = true ∧ AboveHundred p)) : clampPercent c p = p := by
  rw [aboveHundred_iff, ← Bool.and_eq_true] at ha
  exact (if_neg (mt (belowZero_iff p).mpr hb)).trans (if_neg ha)

theorem not_belowZero_of_fin_false {p : Wide} {m : Nat} (h : Float64.unpack p = .fin false m) :
    ¬ BelowZero p := by
  simp [BelowZero, h]

theorem not_aboveHundred_of_fin_le {p : Wide} {a : Bool} {m : Nat}
    (h : Float64.unpack p = .fin a m) (hm : m ≤ 100 * 2 ^ 1074) : ¬ AboveHundred p := by
  rintro (hinf | ⟨k, hk, hfin⟩)
  · cases h.symm.trans hinf
  · obtain ⟨-, rfl⟩ := Float64.Datum.fin.inj (h.symm.trans hfin)
    exact absurd hm hk.not_ge

/-- A clamped percentage is in the range of its mode. -/
theorem clampPercent_range (c : Bool) (p : Wide) :
    ¬ BelowZero (clampPercent c p) ∧ ¬ (c = true ∧ AboveHundred (clampPercent c p)) := by
  rcases clampPercent_cases c p with ⟨-, h⟩ | ⟨-, -, -, h⟩ | ⟨hb, ha, h⟩ <;> rw [h]
  · exact ⟨not_belowZero_of_fin_false Float64.unpack_plusZero,
      fun hc => not_aboveHundred_of_fin_le Float64.unpack_plusZero (Nat.zero_le _) hc.2⟩
  · exact ⟨not_belowZero_of_fin_false Float64.unpack_hundred,
      fun hc => not_aboveHundred_of_fin_le Float64.unpack_hundred le_rfl hc.2⟩
  · exact ⟨hb, ha⟩

theorem unpack_clampPercent_ne_nan (c : Bool) {p : Wide} (hp : Float64.unpack p ≠ .nan) :
    Float64.unpack (clampPercent c p) ≠ .nan := by
  rcases clampPercent_cases c p with ⟨-, h⟩ | ⟨-, -, -, h⟩ | ⟨-, -, h⟩ <;> rw [h]
  · exact fun hnan => nomatch Float64.unpack_plusZero.symm.trans hnan
  · exact fun hnan => nomatch Float64.unpack_hundred.symm.trans hnan
  · exact hp

/-! What is rejected (rule R262). -/

/-- LEVEL_PCT rejects its operands or its percentage. -/
def LevelRejected (var : LevelVar) (s : State) : Prop :=
  levelOperandsRejected var s.scaled s.ref s.span = true ∨
    Float64.isNaN (levelPercent var s.scaled s.ref s.span) = true

theorem levelRejected_iff (var : LevelVar) (s : State) : LevelRejected var s ↔
    s.span = 0x0000000000000000 ∨ s.span = 0x8000000000000000
      ∨ nanPattern s.scaled ∨ nanPattern s.span ∨ (var = .referenced ∧ nanPattern s.ref)
      ∨ nanPattern (levelPercent var s.scaled s.ref s.span) := by
  simp only [LevelRejected, levelOperandsRejected, Bool.or_eq_true, Bool.and_eq_true,
    decide_eq_true_eq, Float64.isZero_iff, Float64.isNaN_iff, or_assoc]

theorem exec_levelPct_of_rejected {var : LevelVar} (c : Bool) {s : State} (h : LevelRejected var s) :
    exec (.levelPct var c) s = .next (s.finish .invalidArgument) := by
  refine congrArg Host.Outcome.next ?_
  by_cases hop : levelOperandsRejected var s.scaled s.ref s.span = true
  · exact if_pos hop
  · exact (if_neg hop).trans (if_pos (h.resolve_left hop))

theorem exec_levelPct_of_accepted {var : LevelVar} (c : Bool) {s : State} {p : Wide}
    (hp : levelPercent var s.scaled s.ref s.span = p) (h : ¬ LevelRejected var s) :
    exec (.levelPct var c) s = .next { s with scaled := clampPercent c p, result := .success } := by
  obtain ⟨hop, hnan⟩ := not_or.mp h
  subst hp
  exact congrArg Host.Outcome.next ((if_neg hop).trans (if_neg hnan))

/-- Settles O54: by the two equations of LEVEL_PCT and those of the clamp. -/
theorem levelPctComputesAndClamps : Obligations.LevelPctComputesAndClamps := by
  intro var clampHi s quotient p rejected below above
  have hp : levelPercent var s.scaled s.ref s.span = p := by cases var <;> rfl
  have hrejected : LevelRejected var s ↔ rejected := by rw [levelRejected_iff, hp]
  have haccepted := fun h => exec_levelPct_of_accepted clampHi hp (mt hrejected.mp h)
  refine ⟨fun h => exec_levelPct_of_rejected clampHi (hrejected.mpr h), fun h hb => ?_,
    fun h hc ha => ?_, fun h hb ha => ?_⟩
  · rw [haccepted h, clampPercent_of_below clampHi hb]
    rfl
  · rw [haccepted h, hc, clampPercent_of_above ha]
    rfl
  · rw [haccepted h, clampPercent_of_between hb ha]

/-- Settles O55: a successful LEVEL_PCT leaves the clamp of a percentage that is no NaN. -/
theorem levelPctResultIsClamped : Obligations.LevelPctResultIsClamped := by
  intro var clampHi s t hexec hsuccess quotient p
  have hp : levelPercent var s.scaled s.ref s.span = p := by cases var <;> rfl
  obtain ⟨hnan, ht⟩ : Float64.unpack p ≠ .nan ∧ t.scaled = clampPercent clampHi p := by
    rcases execLevelPct_cases hexec with ⟨-, rfl⟩ | ⟨-, hnan, rfl⟩
    · cases hsuccess
    · rw [hp] at hnan ⊢
      exact ⟨by simpa [Float64.isNaN] using hnan, rfl⟩
  obtain ⟨hbelow, habove⟩ := clampPercent_range clampHi p
  rw [ht]
  refine ⟨unpack_clampPercent_ne_nan clampHi hnan, fun h => hbelow (.inl h),
    fun m hm h => hbelow (.inr ⟨m, hm, h⟩), fun hc => ⟨fun h => habove ⟨hc, .inl h⟩,
      fun m hm h => habove ⟨hc, .inr ⟨m, hm, h⟩⟩⟩, fun h => ?_, fun h => ?_, fun h => ?_⟩
  · have hzero := (Float64.unpack_zero_iff p true).mpr h
    have hkept : clampPercent clampHi p = p := clampPercent_of_between (by simp [BelowZero, hzero])
      fun hc => not_aboveHundred_of_fin_le hzero (Nat.zero_le _) hc.2
    exact hkept.trans h
  · exact clampPercent_of_below clampHi (.inl ((Float64.unpack_inf_iff p true).mpr h))
  · have hinf : AboveHundred p := .inl ((Float64.unpack_inf_iff p false).mpr h)
    cases clampHi with
    | true => exact clampPercent_of_above hinf
    | false => exact (clampPercent_of_between (not_belowZero_of_aboveHundred hinf) (by simp)).trans h

/-! The examples (rule R263): a finite percentage comes from operands that are not rejected. -/

/-- What the formula of rule R260 divides by SPAN. -/
def levelNumerator (var : LevelVar) (m ref : Wide) : Wide :=
  match var with
  | .direct => m
  | .referenced => Float64.fsub ref m

theorem levelPercent_eq (var : LevelVar) (m ref span : Wide) : levelPercent var m ref span =
    Float64.fmul (Float64.fdiv (levelNumerator var m ref) span) Float64.hundred := by
  cases var <;> rfl

theorem not_nan_of_levelNumerator {var : LevelVar} {m ref : Wide}
    (h : Float64.unpack (levelNumerator var m ref) ≠ .nan) :
    Float64.unpack m ≠ .nan ∧ (var = .referenced → Float64.unpack ref ≠ .nan) := by
  cases var with
  | direct => exact ⟨h, by simp⟩
  | referenced =>
    have hsub : ¬ (Float64.unpack ref = .nan ∨ Float64.unpack m = .nan) := fun hnan => by
      rw [levelNumerator, (Float64.fsub_eq_canonicalNaN_iff ref m).mpr (.inl hnan)] at h
      exact h Float64.unpack_canonicalNaN
    exact ⟨fun hm => hsub (.inr hm), fun _ hr => hsub (.inl hr)⟩

theorem not_levelRejected_of_fin {var : LevelVar} {s : State} {a : Bool} {k : Nat}
    (h : Float64.unpack (levelPercent var s.scaled s.ref s.span) = .fin a k) :
    ¬ LevelRejected var s := by
  have hpercent : Float64.unpack (levelPercent var s.scaled s.ref s.span) ≠ .nan := by simp [h]
  rw [levelPercent_eq] at h
  obtain ⟨b, m, hquotient⟩ := Float64.fin_of_fmul_hundred h
  obtain ⟨hnumerator, hspan, hzero⟩ := Float64.operands_of_fdiv_fin hquotient
  obtain ⟨hscaled, href⟩ := not_nan_of_levelNumerator hnumerator
  rw [levelRejected_iff]
  simp only [Float64.nanPattern_iff]
  rintro (h0 | h0 | hn | hn | ⟨hv, hn⟩ | hn)
  · exact hzero false ((Float64.unpack_zero_iff _ _).mpr h0)
  · exact hzero true ((Float64.unpack_zero_iff _ _).mpr h0)
  · exact hscaled hn
  · exact hspan hn
  · exact href hv hn
  · exact hpercent hn

/-- Settles O56: both percentages are finite, so nothing is rejected; -5 lies below 0 and 150 above
100. -/
theorem clampExamples : Obligations.ClampExamples := by
  intro var clampHi s quotient p
  have hp : levelPercent var s.scaled s.ref s.span = p := by cases var <;> rfl
  have haccepted := fun {a k} (h : Float64.unpack p = .fin a k) =>
    exec_levelPct_of_accepted clampHi hp (not_levelRejected_of_fin (hp.symm ▸ h))
  refine ⟨fun h => ?_, fun h => ?_⟩
  · have hfin : Float64.unpack p = .fin true (5 * 2 ^ 1074) := by rw [h]; decide +kernel
    rw [haccepted hfin, clampPercent_of_below clampHi (.inr ⟨_, by positivity, hfin⟩)]
    rfl
  · have hfin : Float64.unpack p = .fin false (150 * 2 ^ 1074) := by rw [h]; decide +kernel
    have habove : AboveHundred p :=
      .inr ⟨_, Nat.mul_lt_mul_of_pos_right (by decide) (by positivity), hfin⟩
    rw [haccepted hfin]
    cases clampHi with
    | true => rw [clampPercent_of_above habove]; rfl
    | false =>
      rw [clampPercent_of_between (not_belowZero_of_aboveHundred habove) (by simp), h]
      rfl

end Sys2Proof.Machine
end

section
/-! 60_exceptions.md rules R280 and R281: how a command ends. -/

namespace Sys2Proof.Machine

open Sys2Proof.Safety

/-- SUCCESS stands in every row of rule R281's table. -/
theorem success_mem_listedResults (i : Instr) : .success ∈ listedResults i := by
  cases i <;> exact List.mem_cons_self

/-- Both parsers list PROTOCOL_EXCEPTION (rule R281). -/
theorem protocolException_mem_listedResults {i : Instr} (h : i = .parseRead ∨ i = .parseWrite) :
    .protocolException ∈ listedResults i := by
  rcases h with rfl | rfl <;> simp [listedResults]

/-- The code a command ends with is one that rule R281 lists for it. -/
theorem exec_result_mem_listedResults {i : Instr} {s t : State} (h : exec i s = .next t) :
    t.result ∈ listedResults i := by
  rcases exec_cases h with ⟨_, hlisted, _, _, rfl⟩ | ⟨hparser, rfl⟩ | ⟨_, _, rfl⟩ |
    ⟨_, _, _, rfl⟩ | ⟨_, _, rfl⟩ | ⟨_, _, _, _, rfl⟩ | ⟨_, _, _, _, rfl⟩
  · exact hlisted
  · exact protocolException_mem_listedResults hparser
  all_goals exact success_mem_listedResults i

/-- Settles O7: a command always ends in a next state, which is one of the shapes of `exec_cases`; apart
from the codes those name, it ends in SUCCESS. -/
theorem everyCommandEndsInAListedResult : Obligations.EveryCommandEndsInAListedResult := by
  intro i s
  obtain ⟨t, ht⟩ := exec_completes i s
  exact ⟨t, ht, exec_result_mem_listedResults ht⟩

end Sys2Proof.Machine
end
